-- ==== Sys2Proof/Word.lean ====
section
/-! DEFINITION. The value types of HUFF-CORE (00_scope.md R6, R7, R10, R11) and the table maker used by the memories. -/

namespace Sys2Proof

/-- A byte of BUF (R45). -/
abbrev Byte := BitVec 8

/-- A host port word, a register, a command word (R7, R90). -/
abbrev Word := BitVec 32

/-- A symbol is one byte, 0..255 (R6). -/
abbrev Symbol := BitVec 8

/-- A NODE index, 9 bits (R41, R42). -/
abbrev NodeIdx := BitVec 9

/-- A tree node weight, 40 bits (R7). -/
abbrev Weight := BitVec 40

/-- A byte address of the host port, 17 bits (R60). -/
abbrev PortAddr := BitVec 17

/-- A bit string, first bit first (R11). -/
abbrev Bits := List Bool

/-- `f k, f (k + 1), …`, `n` entries. -/
def tabulateList {α : Type} (f : Nat → α) : (n k : Nat) → List α
  | 0, _ => []
  | n + 1, k => f k :: tabulateList f n (k + 1)

theorem tabulateList_length {α : Type} (f : Nat → α) (n k : Nat) : (tabulateList f n k).length = n := by
  induction n generalizing k with
  | zero => rfl
  | succ n ih => simp [tabulateList, ih]

/-- The table with `n` entries whose entry `i` is `f i`. -/
def tabulate {α : Type} (n : Nat) (f : Nat → α) : Vector α n :=
  ⟨(tabulateList f n 0).toArray, by simp [tabulateList_length]⟩

/-- The table with entry `i` set to `x`; an index outside the table changes nothing. -/
def setEntry {α : Type} {n : Nat} (v : Vector α n) (i : Nat) (x : α) : Vector α n :=
  if h : i < n then v.set i x h else v

/-- The 256 symbols in ascending order (R6). -/
def symbols : List Symbol := tabulateList (BitVec.ofNat 8) 256 0

end Sys2Proof
end

