-- ==== Sys2Proof/Syntax.lean ====
section
/-! DEFINITION. The commands of HUFF-CORE, one constructor per row of the opcode table (30_encoding.md R91), and the one
command format CMD32 (R90). A command has no operand field (R94): its operands are latched at issue, in the sequencer. -/

namespace Sys2Proof

/-- The nine commands (R91). -/
inductive Instr where
  /-- NOP, 45_system.md R221. -/
  | nop
  /-- FREQ_CLEAR, 40_frequency.md R111. -/
  | freqClear
  /-- FREQ_COUNT, 40_frequency.md R112. -/
  | freqCount
  /-- TREE_INIT, 41_tree.md R134. -/
  | treeInit
  /-- TREE_STEP, 41_tree.md R136. -/
  | treeStep
  /-- TREE_BUILD, 41_tree.md R137. -/
  | treeBuild
  /-- CODE_GEN, 42_codegen.md R160. -/
  | codeGen
  /-- ENCODE, 43_pack.md R180. -/
  | encode
  /-- DECODE, 44_unpack.md R200. -/
  | decode
  deriving DecidableEq, Repr

/-- The format CMD32 (R90): OPC in bits [31:24], ZERO in bits [23:0]. -/
structure CmdFields where
  /-- bits [31:24], the operation code -/
  opc : BitVec 8
  /-- bits [23:0], reserved, must be 0 -/
  zero : BitVec 24
  deriving DecidableEq, Repr

end Sys2Proof
end

