-- ==== Sys2Proof/WellFormed.lean ====
section
/-! DEFINITION. Which command words are legal (30_encoding.md R90, R92, R93): ZERO is 0 and OPC is one of the nine. -/

namespace Sys2Proof

/-- The operation codes of R91, in the table's order. -/
def definedOpcodes : List (BitVec 8) := [0x00, 0x01, 0x02, 0x10, 0x11, 0x12, 0x20, 0x30, 0x31]

/-- First check of R92: the reserved field is 0. -/
def CmdFields.zeroOk (c : CmdFields) : Bool := c.zero == 0

/-- Second check of R92: the operation code is defined. -/
def CmdFields.opcOk (c : CmdFields) : Bool := definedOpcodes.contains c.opc

/-- "A command is legal exactly when OPC is one of the values in R91 and ZERO = 0" (R90). -/
def CmdFields.wellFormed (c : CmdFields) : Bool := c.zeroOk && c.opcOk

/-- The operation code of a command (R91). -/
def Instr.opc : Instr → BitVec 8
  | .nop => 0x00
  | .freqClear => 0x01
  | .freqCount => 0x02
  | .treeInit => 0x10
  | .treeStep => 0x11
  | .treeBuild => 0x12
  | .codeGen => 0x20
  | .encode => 0x30
  | .decode => 0x31

/-- The fields of a command's word (R90, R91). -/
def Instr.fields (i : Instr) : CmdFields := { opc := i.opc, zero := 0 }

/-- An instruction is well formed when its fields are a legal command. No constructor has an operand, so every one is. -/
def Instr.wellFormed (i : Instr) : Bool := i.fields.wellFormed

end Sys2Proof
end

