-- ==== Sys2Proof/Decode.lean ====
section
/-! DEFINITION. Decoding a command word (30_encoding.md R92), total on every 32-bit word and rejecting by name, and after it the
encoder (R90, R91). -/

namespace Sys2Proof

/-- Why a word selects no command (R92, R93). Both complete with E_ILLEGAL (R222). -/
inductive DecodeError where
  /-- bits [23:0] are not 0 -/
  | reservedBits
  /-- OPC is none of the nine of R91 -/
  | undefinedOpcode
  deriving DecidableEq, Repr

/-- The fields of a command word (R90). -/
def fieldsOf (w : Word) : CmdFields :=
  { opc := w.extractLsb 31 24, zero := w.extractLsb 23 0 }

/-- The opcode map (R91). -/
def instrOfOpc (opc : BitVec 8) : Option Instr :=
  if opc = 0x00 then some .nop
  else if opc = 0x01 then some .freqClear
  else if opc = 0x02 then some .freqCount
  else if opc = 0x10 then some .treeInit
  else if opc = 0x11 then some .treeStep
  else if opc = 0x12 then some .treeBuild
  else if opc = 0x20 then some .codeGen
  else if opc = 0x30 then some .encode
  else if opc = 0x31 then some .decode
  else none

/-- Decode of a command word (R92): the reserved field is checked first, then the operation code. -/
def decodeWord (w : Word) : Except DecodeError Instr :=
  if (fieldsOf w).zeroOk then
    match instrOfOpc (fieldsOf w).opc with
    | some i => .ok i
    | none => .error .undefinedOpcode
  else .error .reservedBits

/-- The word of a command (R90, R91): { OPC, ZERO }. -/
def encodeInstr (i : Instr) : Word := i.fields.opc ++ i.fields.zero

/-- The command the decoder reads from an opcode-table row's bits. A command is the one word the host writes to CMD (R95), so
the table's bit numbers are the word's own. -/
def decodeTableWord (nbits w : Nat) : Option Instr :=
  match decodeWord (BitVec.ofNat 32 (w % 2 ^ nbits)) with
  | .ok i => some i
  | .error _ => none

end Sys2Proof
end

