-- ==== Sys2Proof/Config.lean ====
section
/-! DEFINITION. What an implementation fixes (00_scope.md R9) and the values the spec leaves open (93_implementation_defined.md
section 2). An open value is an opaque constant with no body, applied to the number of the draw (log 3): nothing in Lean can
evaluate it, and a claim about it holds for every value. -/

namespace Sys2Proof

/-- The one configuration option of HUFF-CORE (R2). -/
structure Params where
  /-- BUF_BYTES, the size of BUF in bytes (R9) -/
  bufBytes : Nat
  deriving DecidableEq, Repr

/-- "It is a multiple of 4 in the range 16..65536" (R9). -/
def Params.legal (p : Params) : Bool := p.bufBytes % 4 == 0 && 16 ≤ p.bufBytes && p.bufBytes ≤ 65536

/-- "Its default is 65536" (R9). -/
def Params.default : Params := { bufBytes := 65536 }

namespace Config

/-- A window read that returns any value (R64, R69): one fresh word per read. -/
opaque freeWord (draw : Nat) : Word

/-- CMD_LATENCY (R290): how many host actions are performed between the issue of `cmd` and its completion. -/
opaque cmdLatency (cmd : Word) (draw : Nat) : Nat

/-- An unspecified FREQ entry (R51, R224). -/
opaque freeFreq (draw : Nat) (s : Nat) : Word

/-- An unspecified HEAP entry (R51, R224). -/
opaque freeHeap (draw : Nat) (i : Nat) : NodeIdx

/-- An unspecified NODE entry: VALID, LEAF, WEIGHT, LEFT, RIGHT (R51, R224). -/
opaque freeNode (draw : Nat) (n : Nat) : Bool × Bool × Weight × NodeIdx × NodeIdx

/-- An unspecified CT entry: a bit string, of which the first 255 bits are used (R51, R224, log 16). -/
opaque freeCode (draw : Nat) (s : Nat) : Bits

/-- An unspecified BUF byte (R51, R224). -/
opaque freeByte (draw : Nat) (a : Nat) : Byte

end Config

end Sys2Proof
end

