-- ==== Sys2Proof/Machine/State.lean ====
section
/-! DEFINITION. The state of HUFF-CORE (10_state.md R20), plain data: registers, the five memories, the sequencer, and the
model's own fields for the host's port (20_memory.md R78, R85) and the free values (93_implementation_defined.md). -/

namespace Sys2Proof.Machine

/-- STATUS.TREE_STATE (R24). "The value 3 never occurs." -/
inductive TreeState where
  /-- 0: no tree -/
  | empty
  /-- 1: the heap holds two or more nodes -/
  | building
  /-- 2: the tree is complete, ROOT is valid -/
  | done
  deriving DecidableEq, Repr

/-- The result codes (60_exceptions.md R240). "Codes 12..255 are never produced." -/
inductive ResultCode where
  | ok
  | illegal
  | seq
  | empty
  | range
  | overlap
  | freqOvf
  | noCode
  | badPad
  | badCode
  | trunc
  | count
  deriving DecidableEq, Repr

/-- One NODE entry (R42). -/
structure Node where
  /-- 1 when the entry is a node of the current tree or build -/
  valid : Bool
  /-- 1 for a leaf, 0 for an internal node -/
  leaf : Bool
  /-- the node's frequency -/
  weight : Weight
  /-- left child, used only when `leaf` is 0 -/
  left : NodeIdx
  /-- right child, used only when `leaf` is 0 -/
  right : NodeIdx
  deriving DecidableEq, Repr

/-- The entry TREE_INIT clears to (R134), and what entry 511, which does not exist, reads as (R65). -/
def Node.zero : Node := { valid := false, leaf := false, weight := 0, left := 0, right := 0 }

/-- The tree builder's state: NODE, HEAP, the counters, TREE_STATE and ROOT.INDEX (R34 to R37, R41, R42). -/
structure TreeMem where
  /-- NODE[0..510] -/
  node : Vector Node 511
  /-- HEAP[0..255]; only the entries below HEAP_SIZE mean anything -/
  heap : Vector NodeIdx 256
  /-- HEAP_SIZE -/
  heapSize : BitVec 9
  /-- NLEAF -/
  nleaf : BitVec 9
  /-- NINT -/
  nint : BitVec 9
  /-- STATUS.TREE_STATE -/
  state : TreeState
  /-- ROOT.INDEX -/
  root : NodeIdx
  deriving DecidableEq, Repr

/-- The sequencer (R46), with the command in flight and the operands latched at its issue. STATUS.BUSY is 1 exactly in `busy`. -/
inductive Sequencer where
  | idle
  | busy (cmd src len dst : Word)
  deriving DecidableEq, Repr

/-- One action of the host, in the notation of 30_encoding.md R98, and the two edges of rst_n (R85). -/
inductive HostAct where
  /-- RD addr -/
  | rd (addr : PortAddr)
  /-- WR addr, value -/
  | wr (addr : PortAddr) (value : Word)
  /-- WAIT: reads of STATUS until BUSY is 0 -/
  | wait
  /-- rst_n goes low -/
  | rstAssert
  /-- rst_n goes high -/
  | rstRelease
  deriving DecidableEq, Repr

/-- The bytes of BUF written since the last hardware reset: (address, byte), addresses strictly rising. An address not listed
holds a value nobody knows (R51), which `State.bufByte` reads as a free value (log 5). -/
abbrev Memory := List Host.Cell

/-- The machine (R20). -/
structure State where
  /-- BUF_BYTES, read in CFG (R9, R22, log 6); no step changes it -/
  params : Params
  /-- CTRL.DONE_IE (R23) -/
  doneIe : Bool
  /-- CTRL.ERR_IE (R23) -/
  errIe : Bool
  /-- STATUS.DONE (R24) -/
  done : Bool
  /-- STATUS.ERRF (R24) -/
  errf : Bool
  /-- STATUS.OVR (R24) -/
  ovr : Bool
  /-- STATUS.CODES_VALID (R24) -/
  codesValid : Bool
  /-- ARG0 (R26) -/
  arg0 : Word
  /-- ARG1 (R27) -/
  arg1 : Word
  /-- ARG2 (R28) -/
  arg2 : Word
  /-- RESULT (R29) -/
  result : ResultCode
  /-- ERR_INFO (R30) -/
  errInfo : Word
  /-- OUT_LEN (R31) -/
  outLen : Word
  /-- PAD (R32) -/
  pad : BitVec 3
  /-- TOTAL_BITS (R33) -/
  totalBits : Word
  /-- MAXLEN (R38) -/
  maxLen : BitVec 8
  /-- FREQ[0..255] (R40) -/
  freq : Vector Word 256
  /-- NODE, HEAP, HEAP_SIZE, NLEAF, NINT, TREE_STATE, ROOT (R34 to R37, R41, R42) -/
  tree : TreeMem
  /-- CT[0..255]: CT_CODE[s], whose length is CT_LEN[s] (R44) -/
  ct : Vector Bits 256
  /-- BUF (R45) -/
  buf : Memory
  /-- the sequencer (R46) -/
  seq : Sequencer
  /-- rst_n is held low: the port is ignored (R280) -/
  inReset : Bool
  /-- h_rdata: what the last port read returned (R85, log 9) -/
  rdata : Word
  /-- MODEL's own: the host's port actions still to come, oldest first (R78, log 1) -/
  host : List HostAct
  /-- MODEL's own: host actions still to be performed before the command in flight completes (R290, log 2) -/
  delay : Nat
  /-- MODEL's own: how many free values have been drawn (log 3) -/
  draws : Nat
  /-- MODEL's own: the draw that gave BUF its unspecified contents at the last hardware reset (R51, log 3) -/
  bufDraw : Nat
  deriving DecidableEq, Repr

/-- An unspecified NODE entry (R51, R224). -/
def Node.free (draw n : Nat) : Node :=
  { valid := (Config.freeNode draw n).1
    leaf := (Config.freeNode draw n).2.1
    weight := (Config.freeNode draw n).2.2.1
    left := (Config.freeNode draw n).2.2.2.1
    right := (Config.freeNode draw n).2.2.2.2 }

/-- Unspecified FREQ contents. -/
def freeFreqTable (draw : Nat) : Vector Word 256 := tabulate 256 (Config.freeFreq draw)

/-- Unspecified NODE contents. -/
def freeNodeTable (draw : Nat) : Vector Node 511 := tabulate 511 (Node.free draw)

/-- Unspecified HEAP contents. -/
def freeHeapTable (draw : Nat) : Vector NodeIdx 256 := tabulate 256 (Config.freeHeap draw)

/-- Unspecified CT contents: a bit string of at most 255 bits each (R44, log 16). -/
def freeCodeTable (draw : Nat) : Vector Bits 256 := tabulate 256 (fun s => (Config.freeCode draw s).take 255)

/-- Right after hardware reset (R50, R51, R280), BUF_BYTES at its default. The memories hold the free values of draw 0 (log 4). -/
def State.reset : State :=
  { params := Params.default
    doneIe := false
    errIe := false
    done := false
    errf := false
    ovr := false
    codesValid := false
    arg0 := 0
    arg1 := 0
    arg2 := 0
    result := .ok
    errInfo := 0
    outLen := 0
    pad := 0
    totalBits := 0
    maxLen := 0
    freq := freeFreqTable 0
    tree :=
      { node := freeNodeTable 0
        heap := freeHeapTable 0
        heapSize := 0
        nleaf := 0
        nint := 0
        state := .empty
        root := 0 }
    ct := freeCodeTable 0
    buf := []
    seq := .idle
    inReset := false
    rdata := 0
    host := []
    delay := 0
    draws := 1
    bufDraw := 0 }

/-- Where the model stops. Both arise only in states no run reaches, where the spec's pseudocode has no meaning. -/
inductive Fault where
  /-- Raised by TREE_STEP when TREE_STATE is BUILDING and the bounds of R135 do not hold (the preconditions of R131 and R132):
  fewer than 2 or more than 256 heap entries, or no free internal NODE entry. Safe (log 14). -/
  | heapBounds
  /-- Raised by CODE_GEN when NODE is no tree of R43, so that the traversal of R160 does not end or meets a leaf that is no
  symbol. Safe (log 15). -/
  | treeShape
  deriving DecidableEq, Repr

/-- Why an instruction has no meaning. -/
inductive Refusal where
  /-- The instruction is not modelled; raised in exec's arm alone. No arm raises it now. Safe. -/
  | notModelled (mnemonic : String)
  deriving DecidableEq, Repr

end Sys2Proof.Machine
end

