-- ==== Sys2Proof/Machine/Ops.lean ====
section
/-! DEFINITION. The named operations over the memories and registers: BUF (R45), FREQ (R40), NODE and HEAP (R41, R42), CT
(R44), the bit order of a byte and a word (R71), and the completion record with its acknowledge (R241, R225). -/

namespace Sys2Proof.Machine

/-! ### BUF as a sparse memory (R45) -/

/-- The canonical form: addresses strictly rising. An unlisted address reads as no value, so no entry equals it. -/
abbrev Memory.wf (m : Memory) : Prop := m.Pairwise (fun x y => x.1 < y.1)

/-- Every listed address is below `n`. -/
abbrev Memory.below (m : Memory) (n : Nat) : Prop := ∀ c ∈ m, c.1 < n

/-- What was written at `a` since the last hardware reset, if anything was. -/
def Memory.read : Memory → Nat → Option Byte
  | [], _ => none
  | (x, v) :: m, a => if a = x then some v else Memory.read m a

/-- Write one byte, keeping the canonical form. -/
def Memory.write : Memory → Nat → Byte → Memory
  | [], a, b => [(a, b)]
  | (x, v) :: m, a, b =>
    if a < x then (a, b) :: (x, v) :: m
    else if a = x then (a, b) :: m
    else (x, v) :: Memory.write m a b

/-- Write consecutive bytes, the first at `a`. -/
def Memory.writeList : Memory → Nat → List Byte → Memory
  | m, _, [] => m
  | m, a, b :: bs => Memory.writeList (Memory.write m a b) (a + 1) bs

/-- BUF[a] (R45). A byte nothing has written since the last hardware reset is a free value, the same on every read (R51). -/
def State.bufByte (s : State) (a : Nat) : Byte := (s.buf.read a).getD (Config.freeByte s.bufDraw a)

/-- BUF[a .. a + n - 1]. -/
def State.bufRange (s : State) (a n : Nat) : List Byte := (List.range n).map (fun i => s.bufByte (a + i))

/-- BUF[a + i] <- bytes[i] for every i. -/
def State.writeBuf (s : State) (a : Nat) (bytes : List Byte) : State :=
  { s with buf := s.buf.writeList a bytes }

/-! ### FREQ, CT, NODE and HEAP -/

/-- FREQ[v] (R40). -/
def freqAt (f : Vector Word 256) (v : Symbol) : Word := f[v.toNat]'(by have := v.isLt; omega)

/-- CT_CODE[v] (R44). -/
def codeAt (ct : Vector Bits 256) (v : Symbol) : Bits := ct[v.toNat]'(by have := v.isLt; omega)

/-- CT_LEN[v] (R44): 8 bits, the length of the code. -/
def codeLen (ct : Vector Bits 256) (v : Symbol) : BitVec 8 := BitVec.ofNat 8 (codeAt ct v).length

/-- CT_CODE[v] <- p, and CT_LEN[v] <- len(p) with it. -/
def setCode (ct : Vector Bits 256) (v : Symbol) (p : Bits) : Vector Bits 256 :=
  ct.set v.toNat p (by have := v.isLt; omega)

/-- NODE[n] (R42). Entry 511 does not exist and reads 0 (R65). -/
def TreeMem.nodeAt (t : TreeMem) (n : NodeIdx) : Node := t.node[n.toNat]?.getD Node.zero

/-- NODE[n] <- x. -/
def TreeMem.setNode (t : TreeMem) (n : NodeIdx) (x : Node) : TreeMem :=
  { t with node := setEntry t.node n.toNat x }

/-- HEAP[i] (R41), for i in 0..255. -/
def TreeMem.heapAt (t : TreeMem) (i : Nat) : NodeIdx := t.heap[i]?.getD 0

/-- HEAP[i] <- n. -/
def TreeMem.setHeap (t : TreeMem) (i : Nat) (n : NodeIdx) : TreeMem :=
  { t with heap := setEntry t.heap i n }

/-- HEAP_SIZE <- n. -/
def TreeMem.setSize (t : TreeMem) (n : BitVec 9) : TreeMem := { t with heapSize := n }

/-- swap HEAP[i], HEAP[j]. -/
def TreeMem.swapHeap (t : TreeMem) (i j : Nat) : TreeMem :=
  (t.setHeap i (t.heapAt j)).setHeap j (t.heapAt i)

/-! ### Bit order (R71) -/

/-- `n` bits, `f 0` in the most significant position and `f (n - 1)` in bit 0. -/
def msbFirst : (n : Nat) → (Nat → Bool) → BitVec n
  | 0, _ => BitVec.nil
  | n + 1, f => BitVec.cons (f 0) (msbFirst n (fun k => f (k + 1)))

/-- The 8 bits of a byte, most significant first: bit k is bit position 7 - k. -/
def bitsOfByte (b : Byte) : Bits := (List.range 8).map (fun k => b.getLsbD (7 - k))

/-- The bits of a byte sequence, in stream order (R71). -/
def bitsOfBytes (bs : List Byte) : Bits := bs.flatMap bitsOfByte

/-- The first `n` bytes of a bit string, 8 bits a byte, first bit most significant (R181). -/
def packBytes : Nat → Bits → List Byte
  | 0, _ => []
  | n + 1, s => msbFirst 8 (fun k => s.getD k false) :: packBytes n (s.drop 8)

/-! ### The completion of a command and its acknowledge -/

/-- The completion record, the last step of every command: `finish(code, info)` (R241). This is how HUFF-CORE reports an
error: it has no other exception. -/
def finish (code : ResultCode) (info : Word) (s : State) : State :=
  { s with
    result := code
    errInfo := info
    done := true
    errf := s.errf || decide (code ≠ .ok)
    seq := .idle }

/-- `raise E_X(info)` means `finish(E_X, info)` (R12). -/
def raise (code : ResultCode) (info : Word) (s : State) : State := finish code info s

/-- Acknowledge (R225): a write of `w` to STATUS clears DONE, ERRF and OVR where `w` has a 1. It is all there is to returning
from an error (R245). -/
def acknowledge (w : Word) (s : State) : State :=
  { s with
    done := s.done && !w.getLsbD 1
    errf := s.errf && !w.getLsbD 2
    ovr := s.ovr && !w.getLsbD 3 }

/-- A dropped write sets STATUS.OVR and nothing else (R248, R284). -/
def dropWrite (s : State) : State := { s with ovr := true }

end Sys2Proof.Machine
end

