-- ==== Sys2Proof/Machine/Operands.lean ====
section
/-! DEFINITION. The operands of commands: latched at issue (30_encoding.md R94, 10_state.md R46), the range and overlap checks
(20_memory.md R75, R76), and the output record that ENCODE and DECODE share. -/

namespace Sys2Proof.Machine

/-- `src`: ARG0 as latched at issue (R46, R94). With no command in flight, the value an issue would latch now (log 13). -/
def State.src (s : State) : Nat :=
  match s.seq with
  | .busy _ a _ _ => a.toNat
  | .idle => s.arg0.toNat

/-- `len`: ARG1 as latched at issue (R46, R94). -/
def State.len (s : State) : Nat :=
  match s.seq with
  | .busy _ _ b _ => b.toNat
  | .idle => s.arg1.toNat

/-- `dst`: ARG2 as latched at issue (R46, R94). -/
def State.dst (s : State) : Nat :=
  match s.seq with
  | .busy _ _ _ c => c.toNat
  | .idle => s.arg2.toNat

/-- STATUS.BUSY is 1 exactly in `Busy` (R46). -/
def State.isBusy (s : State) : Bool :=
  match s.seq with
  | .busy .. => true
  | .idle => false

/-- `in_buf(a, n)`: a + n ≤ BUF_BYTES on unbounded natural numbers (R75). -/
def State.inBuf (s : State) (a n : Nat) : Bool := a + n ≤ s.params.bufBytes

/-- `overlap(a, n, b, m)` (R76). -/
def overlap (a n b m : Nat) : Bool := 0 < n && 0 < m && a < b + m && b < a + n

/-- What a successful ENCODE or DECODE produces: the bytes for BUF[dst ..], PAD and TOTAL_BITS. -/
structure Output where
  /-- the bytes to write, the first at `dst`; their number is OUT_LEN (R31) -/
  bytes : List Byte
  /-- the padding-bit count (R32) -/
  pad : Nat
  /-- the number of payload bits without padding (R33) -/
  bits : Nat
  deriving DecidableEq, Repr

/-- The checks on the destination that ENCODE and DECODE make last, in this order: E_RANGE(1), then E_OVERLAP(0) (R243). -/
def checkDst (s : State) (o : Output) : Except (ResultCode × Word) Output :=
  if s.inBuf s.dst o.bytes.length = false then .error (.range, 1)
  else if overlap s.src s.len s.dst o.bytes.length then .error (.overlap, 0)
  else .ok o

/-- The end of ENCODE and DECODE (R180, R200): on success BUF, OUT_LEN, PAD and TOTAL_BITS are written; on failure only the
completion record. -/
def emit (r : Except (ResultCode × Word) Output) (s : State) : State :=
  match r with
  | .error e => raise e.1 e.2 s
  | .ok o =>
    finish .ok 0
      { s with
        buf := s.buf.writeList s.dst o.bytes
        outLen := BitVec.ofNat 32 o.bytes.length
        pad := BitVec.ofNat 3 o.pad
        totalBits := BitVec.ofNat 32 o.bits }

end Sys2Proof.Machine
end

