-- ==== Sys2Proof/Machine/Flags.lean ====
section
/-! DEFINITION. The words of STATUS, CTRL, RESULT and ROOT as the port reads them (10_state.md R23, R24, R29, R34) and the
interrupt output (60_exceptions.md R250). -/

namespace Sys2Proof.Machine

/-- The number of a result code (R240). -/
def ResultCode.number : ResultCode → BitVec 8
  | .ok => 0
  | .illegal => 1
  | .seq => 2
  | .empty => 3
  | .range => 4
  | .overlap => 5
  | .freqOvf => 6
  | .noCode => 7
  | .badPad => 8
  | .badCode => 9
  | .trunc => 10
  | .count => 11

/-- The TREE_STATE field (R24). -/
def TreeState.bits : TreeState → BitVec 2
  | .empty => 0
  | .building => 1
  | .done => 2

/-- STATUS (R24): reserved [31:7], CODES_VALID [6], TREE_STATE [5:4], OVR [3], ERRF [2], DONE [1], BUSY [0]. -/
def State.statusWord (s : State) : Word :=
  (0#25 ++ BitVec.ofBool s.codesValid ++ s.tree.state.bits ++ BitVec.ofBool s.ovr ++ BitVec.ofBool s.errf ++
    BitVec.ofBool s.done ++ BitVec.ofBool s.isBusy : BitVec (25 + 1 + 2 + 1 + 1 + 1 + 1))

/-- CTRL as read (R23): SRST [31] reads 0, reserved [30:2], ERR_IE [1], DONE_IE [0]. -/
def State.ctrlWord (s : State) : Word :=
  (0#30 ++ BitVec.ofBool s.errIe ++ BitVec.ofBool s.doneIe : BitVec (30 + 1 + 1))

/-- ROOT.VALID equals (TREE_STATE = DONE) (R34). -/
def TreeMem.rootValid (t : TreeMem) : Bool := t.state = .done

/-- ROOT (R34): VALID [31], reserved [30:9], INDEX [8:0]; INDEX reads 0 when VALID is 0. -/
def TreeMem.rootWord (t : TreeMem) : Word :=
  if t.rootValid then (1#1 ++ 0#22 ++ t.root : BitVec (1 + 22 + 9)) else 0

/-- The interrupt output, active high, level-sensitive and combinational (R250). -/
def State.irq (s : State) : Bool := (s.done && s.doneIe) || ((s.errf || s.ovr) && s.errIe)

end Sys2Proof.Machine
end

