-- ==== Sys2Proof/Machine/Codegen.lean ====
section
/-! DEFINITION. The code table generator (42_codegen.md R160 to R163). -/

namespace Sys2Proof.Machine

/-- CT[n] <- p for a leaf n. A leaf's index is its symbol (R42), so an index from 256 on is no leaf of a tree of R43. -/
def recordCode (ct : Vector Bits 256) (n : NodeIdx) (p : Bits) : Option (Vector Bits 256) :=
  if n.toNat < 256 then some (setCode ct (n.setWidth 8) p) else none

/-- `visit(n, p)`, left before right (R160, R162), to a depth of fewer than `fuel` edges; `none` when the traversal does not end
within them. A tree of R43 has depth at most 255 (R162). -/
def TreeMem.visit (t : TreeMem) : Nat → NodeIdx → Bits → Vector Bits 256 → Option (Vector Bits 256)
  | 0, _, _, _ => none
  | fuel + 1, n, p, ct =>
    if (t.nodeAt n).leaf then recordCode ct n p
    else
      match TreeMem.visit t fuel (t.nodeAt n).left (p ++ [false]) ct with
      | none => none
      | some ct' => TreeMem.visit t fuel (t.nodeAt n).right (p ++ [true]) ct'

/-- CT as CODE_GEN fills it (R160): every entry empty, then the codes of the leaves; a root that is a leaf gets the code 0. -/
def TreeMem.codes (t : TreeMem) : Option (Vector Bits 256) :=
  if (t.nodeAt t.root).leaf then recordCode (tabulate 256 (fun _ => [])) t.root [false]
  else t.visit 256 t.root [] (tabulate 256 (fun _ => []))

/-- MAXLEN: the greatest CT_LEN (R160). -/
def maxCodeLen (ct : Vector Bits 256) : Nat := (symbols.map (fun v => (codeAt ct v).length)).foldl max 0

/-- CODE_GEN (R160). In a state that breaks R43, which no run reaches, it stops (log 15). -/
def execCodeGen (s : State) : Host.Outcome State Fault Refusal :=
  if s.tree.state ≠ .done then .next (raise .seq 0 s)
  else
    match s.tree.codes with
    | some ct =>
      .next (finish .ok 0 { s with ct := ct, maxLen := BitVec.ofNat 8 (maxCodeLen ct), codesValid := true })
    | none => .fault .treeShape

end Sys2Proof.Machine
end

