-- ==== Sys2Proof/Machine/Frequency.lean ====
section
/-! DEFINITION. The frequency table commands (40_frequency.md R110 to R113). -/

namespace Sys2Proof.Machine

/-- `occ(a, n, v)`: the number of indices i below n with BUF[a + i] = v (R110). -/
def State.occ (s : State) (a n : Nat) (v : Symbol) : Nat := (s.bufRange a n).count v

/-- The unbounded sum of FREQ_COUNT: FREQ[v] plus the occurrences of v in the range's bytes (R112). -/
def countSum (freq : Vector Word 256) (bytes : List Byte) (v : Symbol) : Nat := (freqAt freq v).toNat + bytes.count v

/-- A sum, saturated at 2^32 - 1 (R112). -/
def saturate (t : Nat) : Word := if t > 0xFFFFFFFF then 0xFFFFFFFF else BitVec.ofNat 32 t

/-- The lowest symbol whose sum passes 2^32 - 1, if there is one (R112). -/
def firstSaturated (freq : Vector Word 256) (bytes : List Byte) : Option Symbol :=
  symbols.find? (fun v => decide (countSum freq bytes v > 0xFFFFFFFF))

/-- FREQ after FREQ_COUNT over a range's bytes: every sum, saturated (R112). -/
def countedFreq (freq : Vector Word 256) (bytes : List Byte) : Vector Word 256 :=
  tabulate 256 (fun v => saturate (countSum freq bytes (BitVec.ofNat 8 v)))

/-- FREQ_CLEAR (R111). -/
def execFreqClear (s : State) : Host.Outcome State Fault Refusal :=
  .next (finish .ok 0 { s with freq := tabulate 256 (fun _ => 0) })

/-- RESULT of a FREQ_COUNT whose range lies in BUF: E_FREQ_OVF when a sum saturated (R112). -/
def countCode (saturated : Option Symbol) : ResultCode :=
  match saturated with
  | some _ => .freqOvf
  | none => .ok

/-- ERR_INFO of it: the lowest symbol that saturated, 0 on success (R112, R242). -/
def countInfo (saturated : Option Symbol) : Word :=
  match saturated with
  | some v => v.setWidth 32
  | none => 0

/-- The end of FREQ_COUNT once its range is known to lie in BUF: the sums stay in place when one saturates (R112, R244). -/
def countBytes (bytes : List Byte) (s : State) : State :=
  finish (countCode (firstSaturated s.freq bytes)) (countInfo (firstSaturated s.freq bytes))
    { s with freq := countedFreq s.freq bytes }

/-- FREQ_COUNT (R112). -/
def execFreqCount (s : State) : Host.Outcome State Fault Refusal :=
  .next (if s.inBuf s.src s.len = false then raise .range 0 s else countBytes (s.bufRange s.src s.len) s)

end Sys2Proof.Machine
end

