-- ==== Sys2Proof/Machine/Pack.lean ====
section
/-! DEFINITION. The bit packer (43_pack.md R180 to R183) and the stream format (30_encoding.md R96). -/

namespace Sys2Proof.Machine

/-- The codes of the input bytes, concatenated in input order, or the offset (counted from `i`) of the first byte with no code
(R180). -/
def collectCodes (ct : Vector Bits 256) : List Byte → Nat → Except Nat Bits
  | [], _ => .ok []
  | v :: vs, i =>
    if (codeAt ct v).length = 0 then .error i
    else
      match collectCodes ct vs (i + 1) with
      | .error j => .error j
      | .ok rest => .ok (codeAt ct v ++ rest)

/-- P = (8 - T mod 8) mod 8 (R182). -/
def padCount (t : Nat) : Nat := (8 - t % 8) % 8

/-- The packed stream of a bit string (R96): the padding byte, then N = (T + P) div 8 payload bytes holding the bits and P
zero bits. -/
def packStream (bits : Bits) : Output :=
  { bytes :=
      BitVec.ofNat 8 (padCount bits.length) ::
        packBytes ((bits.length + padCount bits.length) / 8) (bits ++ List.replicate (padCount bits.length) false)
    pad := padCount bits.length
    bits := bits.length }

/-- The checks of ENCODE in order, and what it produces when all pass (R180, R243). -/
def encodePlan (s : State) : Except (ResultCode × Word) Output :=
  if s.codesValid = false then .error (.seq, 0)
  else if s.inBuf s.src s.len = false then .error (.range, 0)
  else if s.len = 0 then .error (.empty, 0)
  else
    match collectCodes s.ct (s.bufRange s.src s.len) 0 with
    | .error i => .error (.noCode, BitVec.ofNat 32 i)
    | .ok bits => checkDst s (packStream bits)

/-- ENCODE (R180). -/
def execEncode (s : State) : Host.Outcome State Fault Refusal := .next (emit (encodePlan s) s)

end Sys2Proof.Machine
end

