-- ==== Sys2Proof/Machine/Tree.lean ====
section
/-! DEFINITION. The Huffman tree builder (41_tree.md R130 to R137): the priority order, the binary min-heap, and the commands
TREE_INIT, TREE_STEP and TREE_BUILD. -/

namespace Sys2Proof.Machine

/-! ### The priority order and the heap -/

/-- `less(a, b)`: by weight, then by index (R130). -/
def TreeMem.less (t : TreeMem) (a b : NodeIdx) : Bool :=
  decide ((t.nodeAt a).weight < (t.nodeAt b).weight) ||
    (decide ((t.nodeAt a).weight = (t.nodeAt b).weight) && decide (a < b))

/-- The loop of heap_insert: HEAP[i] moves up while it is less than its parent (R131). It makes at most i moves. -/
def TreeMem.siftUp : Nat → TreeMem → Nat → TreeMem
  | 0, t, _ => t
  | fuel + 1, t, i =>
    if i = 0 then t
    else if t.less (t.heapAt i) (t.heapAt ((i - 1) / 2)) then
      TreeMem.siftUp fuel (t.swapHeap i ((i - 1) / 2)) ((i - 1) / 2)
    else t

/-- `heap_insert(n)` (R131). -/
def TreeMem.heapInsert (t : TreeMem) (n : NodeIdx) : TreeMem :=
  TreeMem.siftUp t.heapSize.toNat ((t.setHeap t.heapSize.toNat n).setSize (t.heapSize + 1)) t.heapSize.toNat

/-- The lesser child of i, when i has a child in the heap (R132). -/
def TreeMem.lesserChild (t : TreeMem) (i : Nat) : Nat :=
  if 2 * i + 2 < t.heapSize.toNat && t.less (t.heapAt (2 * i + 2)) (t.heapAt (2 * i + 1)) then 2 * i + 2
  else 2 * i + 1

/-- The loop of heap_extract: HEAP[i] moves down while its lesser child is less (R132). It makes fewer than HEAP_SIZE moves. -/
def TreeMem.siftDown : Nat → TreeMem → Nat → TreeMem
  | 0, t, _ => t
  | fuel + 1, t, i =>
    if 2 * i + 1 ≥ t.heapSize.toNat then t
    else if t.less (t.heapAt (t.lesserChild i)) (t.heapAt i) then
      TreeMem.siftDown fuel (t.swapHeap (t.lesserChild i) i) (t.lesserChild i)
    else t

/-- What heap_extract leaves in the heap (R132). -/
def TreeMem.heapRest (t : TreeMem) : TreeMem :=
  if t.heapSize - 1 = 0 then t.setSize (t.heapSize - 1)
  else
    TreeMem.siftDown (t.heapSize - 1).toNat
      ((t.setHeap 0 (t.heapAt (t.heapSize - 1).toNat)).setSize (t.heapSize - 1)) 0

/-- `heap_extract()`: the least node, and the heap without it (R132). -/
def TreeMem.heapExtract (t : TreeMem) : NodeIdx × TreeMem := (t.heapAt 0, t.heapRest)

/-! ### TREE_INIT -/

/-- The first two lines of TREE_INIT: the arena is cleared and the counters are 0 (R134). HEAP is not written: its entries are
unspecified from HEAP_SIZE on (log 21). -/
def TreeMem.clear (t : TreeMem) : TreeMem :=
  { t with
    node := tabulate 511 (fun _ => Node.zero)
    heapSize := 0
    nleaf := 0
    nint := 0 }

/-- The leaf of a symbol with frequency `f` (R134). -/
def leafNode (f : Word) : Node := { valid := true, leaf := true, weight := f.setWidth 40, left := 0, right := 0 }

/-- One pass of TREE_INIT's loop (R134): a symbol with a nonzero frequency gets its leaf, which enters the queue. -/
def TreeMem.addLeaf (freq : Vector Word 256) (t : TreeMem) (v : Symbol) : TreeMem :=
  if freqAt freq v = 0 then t
  else
    let u := (t.setNode (v.setWidth 9) (leafNode (freqAt freq v))).heapInsert (v.setWidth 9)
    { u with nleaf := u.nleaf + 1 }

/-- The loop of TREE_INIT, over the symbols in ascending order (R134). -/
def TreeMem.load (freq : Vector Word 256) (t : TreeMem) : TreeMem := symbols.foldl (TreeMem.addLeaf freq) t.clear

/-- The last lines of TREE_INIT: TREE_STATE and ROOT (R134). -/
def TreeMem.settle (t : TreeMem) : TreeMem :=
  if t.nleaf = 0 then { t with state := .empty, root := 0 }
  else if t.heapSize = 1 then { t with state := .done, root := t.heapAt 0 }
  else { t with state := .building, root := 0 }

/-- The body of TREE_INIT on the tree's state (R134). -/
def TreeMem.init (freq : Vector Word 256) (t : TreeMem) : TreeMem := (t.load freq).settle

/-! ### TREE_STEP and TREE_BUILD -/

/-- The index of the next internal node, 256 + NINT (R36, R136). -/
def TreeMem.nextInternal (t : TreeMem) : NodeIdx := 256 + t.nint

/-- The internal node that joins `a` (removed first, LEFT) and `b` (removed second, RIGHT) (R136). -/
def TreeMem.joinNode (t : TreeMem) (a b : NodeIdx) : Node :=
  { valid := true
    leaf := false
    weight := (t.nodeAt a).weight + (t.nodeAt b).weight
    left := a
    right := b }

/-- The tail of TREE_STEP: the new node enters the queue, and the last merge completes the tree (R136). -/
def TreeMem.join (t : TreeMem) (a b : NodeIdx) : TreeMem :=
  let u := { t.setNode t.nextInternal (t.joinNode a b) with nint := t.nint + 1 }.heapInsert t.nextInternal
  if u.heapSize = 1 then { u with state := .done, root := u.heapAt 0 } else u

/-- The body of TREE_STEP on the tree's state, without its E_SEQ check (R136). -/
def TreeMem.merge (t : TreeMem) : TreeMem :=
  t.heapExtract.2.heapExtract.2.join t.heapExtract.1 t.heapExtract.2.heapExtract.1

/-- The loop of TREE_BUILD: merges while TREE_STATE is BUILDING, at most `fuel` of them (R137). -/
def TreeMem.buildLoop : Nat → TreeMem → TreeMem
  | 0, t => t
  | fuel + 1, t => if t.state = .building then TreeMem.buildLoop fuel t.merge else t

/-- The body of TREE_BUILD on the tree's state: at most NLEAF - 1 ≤ 255 merges (R137). -/
def TreeMem.build (freq : Vector Word 256) (t : TreeMem) : TreeMem := TreeMem.buildLoop 255 (t.init freq)

/-- The bounds of R135 that a merge needs (the preconditions of R131 and R132): two nodes in the queue, a queue that fits
HEAP, and a free internal entry of NODE. -/
def TreeMem.canMerge (t : TreeMem) : Bool := 2 ≤ t.heapSize.toNat && t.heapSize.toNat ≤ 256 && t.nint.toNat ≤ 254

/-- The completion of TREE_INIT and TREE_BUILD: E_EMPTY(0) when there is no leaf, success otherwise (R134, R137). -/
def finishTree (t : TreeMem) (s : State) : State :=
  finish (if t.nleaf = 0 then .empty else .ok) 0 { s with tree := t, codesValid := false }

/-- TREE_INIT (R134). -/
def execTreeInit (s : State) : Host.Outcome State Fault Refusal := .next (finishTree (s.tree.init s.freq) s)

/-- TREE_STEP (R136). In a state that breaks R135, which no run reaches, it stops (log 14). -/
def execTreeStep (s : State) : Host.Outcome State Fault Refusal :=
  if s.tree.state ≠ .building then .next (raise .seq 0 s)
  else if s.tree.canMerge then .next (finish .ok 0 { s with tree := s.tree.merge })
  else .fault .heapBounds

/-- TREE_BUILD (R137). -/
def execTreeBuild (s : State) : Host.Outcome State Fault Refusal := .next (finishTree (s.tree.build s.freq) s)

end Sys2Proof.Machine
end

