-- ==== Sys2Proof/Machine/Unpack.lean ====
section
/-! DEFINITION. The bit depacker and its tree walk (44_unpack.md R200 to R205). -/

namespace Sys2Proof.Machine

/-- The child a bit leads to: 0 is LEFT, 1 is RIGHT (R200). -/
def TreeMem.child (t : TreeMem) (n : NodeIdx) (bit : Bool) : NodeIdx :=
  if bit then (t.nodeAt n).right else (t.nodeAt n).left

/-- The walk of R200 under a root that is no leaf, from position `pos` at bit index `k`, the current code having begun at bit
`start`: the symbols emitted, the final position and the final `start`. A leaf's symbol is its index (R42, log 17). -/
def TreeMem.walk (t : TreeMem) : Bits → NodeIdx → Nat → Nat → List Symbol × NodeIdx × Nat
  | [], pos, _, start => ([], pos, start)
  | b :: bs, pos, k, start =>
    if (t.nodeAt (t.child pos b)).leaf then
      let rest := TreeMem.walk t bs t.root (k + 1) (k + 1)
      ((t.child pos b).setWidth 8 :: rest.1, rest.2)
    else TreeMem.walk t bs (t.child pos b) (k + 1) start

/-- The symbols of a payload (R200): under a root that is a leaf each 0 bit is one symbol and a 1 bit is E_BAD_CODE (R202);
otherwise the walk, which must end at the root (E_TRUNC). -/
def TreeMem.decodeBits (t : TreeMem) (bits : Bits) : Except (ResultCode × Word) (List Symbol) :=
  if (t.nodeAt t.root).leaf then
    match bits.findIdx? id with
    | some k => .error (.badCode, BitVec.ofNat 32 k)
    | none => .ok (List.replicate bits.length (t.root.setWidth 8))
  else
    let w := t.walk bits t.root 0 0
    if w.2.1 ≠ t.root then .error (.trunc, BitVec.ofNat 32 w.2.2) else .ok w.1

/-- A stream's bytes (R96) unpacked and walked, with every check of R200 between E_BAD_PAD(0) and E_COUNT in order. The last P
bits of the payload are dropped unread (R201, R204). -/
def TreeMem.decodeStream (t : TreeMem) : List Byte → Except (ResultCode × Word) Output
  | [] => .error (.badPad, 0)
  | p :: payload =>
    if p.toNat > 7 then .error (.badPad, 1)
    else if p.toNat > 8 * payload.length then .error (.badPad, 2)
    else
      match t.decodeBits ((bitsOfBytes payload).take (8 * payload.length - p.toNat)) with
      | .error e => .error e
      | .ok out =>
        if out.length ≠ (t.nodeAt t.root).weight.toNat then .error (.count, BitVec.ofNat 32 out.length)
        else .ok { bytes := out, pad := p.toNat, bits := 8 * payload.length - p.toNat }

/-- The checks of DECODE in order, and what it produces when all pass (R200, R243). -/
def decodePlan (s : State) : Except (ResultCode × Word) Output :=
  if s.tree.state ≠ .done then .error (.seq, 0)
  else if s.inBuf s.src s.len = false then .error (.range, 0)
  else
    match s.tree.decodeStream (s.bufRange s.src s.len) with
    | .error e => .error e
    | .ok o => checkDst s o

/-- DECODE (R200). -/
def execDecode (s : State) : Host.Outcome State Fault Refusal := .next (emit (decodePlan s) s)

end Sys2Proof.Machine
end

