-- ==== Sys2Proof/Machine/System.lean ====
section
/-! DEFINITION. The system operations (45_system.md R220 to R225; the acknowledge is in Ops.lean) and hardware reset
(70_reset_and_hazards.md R280, R281). -/

namespace Sys2Proof.Machine

/-- NOP (R221). -/
def execNop (s : State) : Host.Outcome State Fault Refusal := .next (finish .ok 0 s)

/-- A word that decoding rejects completes with E_ILLEGAL (R222). -/
def illegalCommand (s : State) : State := raise .illegal 0 s

/-- Command issue, a write of `w` to CMD (R220): latched with ARG0..ARG2 when Idle, dropped with OVR when Busy. The delay to
completion is open (R290) and is drawn here. -/
def issue (w : Word) (s : State) : State :=
  match s.seq with
  | .idle =>
    { s with
      seq := .busy w s.arg0 s.arg1 s.arg2
      delay := Config.cmdLatency w s.draws
      draws := s.draws + 1 }
  | .busy .. => dropWrite s

/-! ### Soft reset (R223) and what it leaves of an aborted command's memory (R224) -/

/-- Every FREQ entry becomes unspecified. -/
def clobberFreq (s : State) : State :=
  { s with freq := freeFreqTable s.draws, draws := s.draws + 1 }

/-- Every NODE and HEAP entry becomes unspecified. -/
def clobberTree (s : State) : State :=
  { s with
    tree := { s.tree with node := freeNodeTable s.draws, heap := freeHeapTable s.draws }
    draws := s.draws + 1 }

/-- Every CT entry becomes unspecified. -/
def clobberCodes (s : State) : State :=
  { s with ct := freeCodeTable s.draws, draws := s.draws + 1 }

/-- The destination range of an ENCODE or DECODE that would have succeeded becomes unspecified; one that would have failed
changes nothing. -/
def clobberOutput (r : Except (ResultCode × Word) Output) (s : State) : State :=
  match r with
  | .error _ => s
  | .ok o =>
    { s with
      buf := s.buf.writeList s.dst ((List.range o.bytes.length).map (fun i => Config.freeByte s.draws (s.dst + i)))
      draws := s.draws + 1 }

/-- The memory an aborted command leaves (R224, log 8). -/
def clobber (i : Instr) (s : State) : State :=
  match i with
  | .nop => s
  | .freqClear => clobberFreq s
  | .freqCount => clobberFreq s
  | .treeInit => clobberTree s
  | .treeStep => clobberTree s
  | .treeBuild => clobberTree s
  | .codeGen => clobberCodes s
  | .encode => clobberOutput (encodePlan s) s
  | .decode => clobberOutput (decodePlan s) s

/-- Abort the command in flight, if there is one (R223). An illegal word changes no memory (R224). -/
def abort (s : State) : State :=
  match s.seq with
  | .idle => s
  | .busy cmd _ _ _ =>
    match decodeWord cmd with
    | .ok i => clobber i s
    | .error _ => s

/-- Every register at its reset value and the sequencer Idle (R50); the memories are untouched. -/
def resetRegisters (s : State) : State :=
  { s with
    doneIe := false
    errIe := false
    done := false
    errf := false
    ovr := false
    codesValid := false
    arg0 := 0
    arg1 := 0
    arg2 := 0
    result := .ok
    errInfo := 0
    outLen := 0
    pad := 0
    totalBits := 0
    maxLen := 0
    tree := { s.tree with heapSize := 0, nleaf := 0, nint := 0, state := .empty, root := 0 }
    seq := .idle
    delay := 0 }

/-- Soft reset, a write to CTRL with SRST = 1 (R223, R281). -/
def softReset (s : State) : State := resetRegisters (abort s)

/-! ### Hardware reset (R280) -/

/-- FREQ, HEAP, NODE, CT and BUF become unspecified (R51). -/
def forgetMemories (s : State) : State :=
  { s with
    freq := freeFreqTable s.draws
    tree := { s.tree with node := freeNodeTable s.draws, heap := freeHeapTable s.draws }
    ct := freeCodeTable s.draws
    buf := []
    bufDraw := s.draws
    draws := s.draws + 1 }

/-- rst_n goes low: the state takes its reset values and the port is ignored from now on (R85, R280, log 10). -/
def hardReset (s : State) : State := { resetRegisters (forgetMemories s) with inReset := true }

/-- rst_n goes high: the block waits in Idle (R280). -/
def releaseReset (s : State) : State := { s with inReset := false }

end Sys2Proof.Machine
end

