-- ==== Sys2Proof/Machine/Port.lean ====
section
/-! DEFINITION. The host port (20_memory.md R60 to R70): the address map, register and window reads and writes, and the host's
actions (30_encoding.md R98). -/

namespace Sys2Proof.Machine

/-- The registers, in address order from 0x000, one word each (R21 to R38). -/
inductive Reg where
  | id
  | cfg
  | ctrl
  | status
  | cmd
  | arg0
  | arg1
  | arg2
  | result
  | errInfo
  | outLen
  | pad
  | totalBits
  | root
  | nleaf
  | nint
  | heapSize
  | maxLen
  deriving DecidableEq, Repr

/-- The registers in address order. -/
def Reg.all : List Reg :=
  [.id, .cfg, .ctrl, .status, .cmd, .arg0, .arg1, .arg2, .result, .errInfo, .outLen, .pad, .totalBits, .root, .nleaf, .nint,
    .heapSize, .maxLen]

/-- What a port address reaches (R61). -/
inductive Loc where
  /-- a register -/
  | reg (r : Reg)
  /-- FREQ[v] (R63) -/
  | freq (v : Symbol)
  /-- HEAP[i] (R64) -/
  | heap (i : BitVec 8)
  /-- a word of NODE[n]: `high` is the second one (R65) -/
  | node (n : NodeIdx) (high : Bool)
  /-- word `w` of CT entry v (R66) -/
  | ct (v : Symbol) (w : BitVec 4)
  /-- the BUF bytes 4m .. 4m + 3 (R67) -/
  | buf (m : Nat)
  /-- reserved or unmapped (R68) -/
  | reserved
  deriving DecidableEq, Repr

/-- The address map (R61). Address bits [1:0] are ignored (R60), so the map is one of word numbers. -/
def locate (p : Params) (addr : PortAddr) : Loc :=
  let w := addr.toNat / 4
  if w < 0x100 then
    match Reg.all[w]? with
    | some r => .reg r
    | none => .reserved
  else if w < 0x200 then .freq (BitVec.ofNat 8 (w - 0x100))
  else if w < 0x300 then .heap (BitVec.ofNat 8 (w - 0x200))
  else if w < 0x400 then .reserved
  else if w < 0x800 then .node (BitVec.ofNat 9 ((w - 0x400) / 2)) (w % 2 == 1)
  else if w < 0x1800 then .ct (BitVec.ofNat 8 ((w - 0x800) / 16)) (BitVec.ofNat 4 (w % 16))
  else if w < 0x4000 then .reserved
  else if 4 * (w - 0x4000) < p.bufBytes then .buf (w - 0x4000)
  else .reserved

/-! ### Reads -/

/-- A register's value, reserved bits reading 0 (R62; R21 to R38). -/
def State.readReg (s : State) : Reg → Word
  | .id => 0x48554646
  | .cfg => BitVec.ofNat 32 s.params.bufBytes
  | .ctrl => s.ctrlWord
  | .status => s.statusWord
  | .cmd => 0
  | .arg0 => s.arg0
  | .arg1 => s.arg1
  | .arg2 => s.arg2
  | .result => s.result.number.setWidth 32
  | .errInfo => s.errInfo
  | .outLen => s.outLen
  | .pad => s.pad.setWidth 32
  | .totalBits => s.totalBits
  | .root => s.tree.rootWord
  | .nleaf => s.tree.nleaf.setWidth 32
  | .nint => s.tree.nint.setWidth 32
  | .heapSize => s.tree.heapSize.setWidth 32
  | .maxLen => s.maxLen.setWidth 32

/-- A word of a NODE entry (R65): WEIGHT[31:0], or { VALID, LEAF, 4'b0, RIGHT, LEFT, WEIGHT[39:32] } with LEFT and RIGHT
reading 0 when LEAF = 1. -/
def Node.word (x : Node) (high : Bool) : Word :=
  if high then
    (BitVec.ofBool x.valid ++ BitVec.ofBool x.leaf ++ 0#4 ++ (if x.leaf then 0#9 else x.right) ++
      (if x.leaf then 0#9 else x.left) ++ x.weight.extractLsb 39 32 : BitVec (1 + 1 + 4 + 9 + 9 + 8))
  else x.weight.setWidth 32

/-- Word `w` of a CT entry (R66): CT_LEN in word 0, the code's bits left-aligned and first bit first in words 1 to 8, 0 in the
positions from CT_LEN on and in words 9 to 15. -/
def codeWord (ct : Vector Bits 256) (v : Symbol) (w : BitVec 4) : Word :=
  if w = 0 then (codeLen ct v).setWidth 32
  else if w.toNat ≤ 8 then msbFirst 32 (fun k => (codeAt ct v).getD (32 * (w.toNat - 1) + k) false)
  else 0

/-- The BUF bytes 4m .. 4m + 3 in their lanes, BUF[4m + j] in bits [8j + 7 : 8j] (R67). -/
def State.bufWord (s : State) (m : Nat) : Word :=
  s.bufByte (4 * m + 3) ++ s.bufByte (4 * m + 2) ++ s.bufByte (4 * m + 1) ++ s.bufByte (4 * m)

/-- The read returns any value: a window read while BUSY = 1 (R69), and a HEAP entry at or above HEAP_SIZE (R64). -/
def State.readIsFree (s : State) : Loc → Bool
  | .reg _ => false
  | .reserved => false
  | .heap i => s.isBusy || decide (s.tree.heapSize.toNat ≤ i.toNat)
  | .freq _ => s.isBusy
  | .node _ _ => s.isBusy
  | .ct _ _ => s.isBusy
  | .buf _ => s.isBusy

/-- The value at a location when the spec gives one (R62 to R68). -/
def State.readLoc (s : State) : Loc → Word
  | .reg r => s.readReg r
  | .freq v => freqAt s.freq v
  | .heap i => (s.tree.heapAt i.toNat).setWidth 32
  | .node n high => (s.tree.nodeAt n).word high
  | .ct v w => codeWord s.ct v w
  | .buf m => s.bufWord m
  | .reserved => 0

/-- MemRead(addr, 4): the value goes to h_rdata (R60, R85). No read has a side effect (R62, R70): beside h_rdata only the
model's own count of free values moves, and only when the value is one. -/
def hostRead (addr : PortAddr) (s : State) : State :=
  if s.readIsFree (locate s.params addr) then
    { s with rdata := Config.freeWord s.draws, draws := s.draws + 1 }
  else { s with rdata := s.readLoc (locate s.params addr) }

/-! ### Writes -/

/-- A write to CTRL (R23): SRST = 1 performs the soft reset and discards the other bits. -/
def writeCtrl (w : Word) (s : State) : State :=
  if w.getLsbD 31 then softReset s else { s with doneIe := w.getLsbD 0, errIe := w.getLsbD 1 }

/-- A register write (R62): read-only registers ignore it. -/
def writeReg (r : Reg) (w : Word) (s : State) : State :=
  match r with
  | .ctrl => writeCtrl w s
  | .status => acknowledge w s
  | .cmd => issue w s
  | .arg0 => { s with arg0 := w }
  | .arg1 => { s with arg1 := w }
  | .arg2 => { s with arg2 := w }
  | .id => s
  | .cfg => s
  | .result => s
  | .errInfo => s
  | .outLen => s
  | .pad => s
  | .totalBits => s
  | .root => s
  | .nleaf => s
  | .nint => s
  | .heapSize => s
  | .maxLen => s

/-- The bytes of a host word in lane order, the lowest address first (R67). -/
def lanes (w : Word) : List Byte :=
  [w.extractLsb 7 0, w.extractLsb 15 8, w.extractLsb 23 16, w.extractLsb 31 24]

/-- FREQ[v] <- w. -/
def writeFreq (v : Symbol) (w : Word) (s : State) : State :=
  { s with freq := s.freq.set v.toNat w (by have := v.isLt; omega) }

/-- A write to a location (R62 to R69): while BUSY = 1 a FREQ or BUF write is dropped with OVR; HEAP, NODE, CT and reserved
addresses ignore writes and set nothing (log 22). -/
def writeLoc (l : Loc) (w : Word) (s : State) : State :=
  match l with
  | .reg r => writeReg r w s
  | .freq v => if s.isBusy then dropWrite s else writeFreq v w s
  | .buf m => if s.isBusy then dropWrite s else s.writeBuf (4 * m) (lanes w)
  | .heap _ => s
  | .node _ _ => s
  | .ct _ _ => s
  | .reserved => s

/-- MemWrite(addr, 4, w) (R60). -/
def hostWrite (addr : PortAddr) (w : Word) (s : State) : State := writeLoc (locate s.params addr) w s

/-! ### The host's actions -/

/-- The address of STATUS (R24). -/
def statusAddr : PortAddr := 0x00C

/-- One host action on a block out of reset. WAIT is performed once the poll finds BUSY = 0 (R98, log 11). -/
def portAction (a : HostAct) (s : State) : State :=
  match a with
  | .rd addr => hostRead addr s
  | .wr addr w => hostWrite addr w s
  | .wait => hostRead statusAddr s
  | .rstAssert => hardReset s
  | .rstRelease => releaseReset s

/-- One host action while rst_n is low: the port is ignored (R280). -/
def resetAction (a : HostAct) (s : State) : State :=
  match a with
  | .rd _ => s
  | .wr _ _ => s
  | .wait => s
  | .rstAssert => s
  | .rstRelease => releaseReset s

/-- The host performs the action `a`, of which `rest` is still to come. -/
def hostAct (a : HostAct) (rest : List HostAct) (s : State) : State :=
  if s.inReset then resetAction a { s with host := rest }
  else portAction a { s with host := rest, delay := s.delay - 1 }

end Sys2Proof.Machine
end

