-- ==== Sys2Proof/Machine/Sequencer.lean ====
section
/-! DEFINITION. Which agent moves next, and the completion of the command in flight (45_system.md R220, 60_exceptions.md R247,
70_reset_and_hazards.md R290). -/

namespace Sys2Proof.Machine

/-- Who takes the next step. -/
inductive Turn where
  /-- the command `cmd` completes -/
  | core (cmd : Word)
  /-- the host performs its next action -/
  | host (a : HostAct) (rest : List HostAct)
  /-- nothing is to be done: the block waits in Idle, or in reset, and the host asks for nothing -/
  | nobody
  deriving DecidableEq, Repr

/-- The host asks for nothing that the completion must wait for: it has no action left, or it polls for the completion (WAIT). -/
def State.hostYields (s : State) : Bool :=
  match s.host with
  | [] => true
  | a :: _ => decide (a = .wait)

/-- The host's next action, if it has one. -/
def State.hostTurn (s : State) : Turn :=
  match s.host with
  | [] => .nobody
  | a :: rest => .host a rest

/-- Whose turn it is. While Busy, the completion is due when the drawn delay has run out or the host yields; until then host
accesses come first (R247). The delay is a free value, so both orders are admitted; it is finite, so the completion comes
(R290). -/
def State.turn (s : State) : Turn :=
  if s.inReset then s.hostTurn
  else
    match s.seq with
    | .idle => s.hostTurn
    | .busy cmd _ _ _ => if s.hostYields || s.delay == 0 then .core cmd else s.hostTurn

/-- Completion of the command in flight: decode, then its rule, which ends in finish (R220, R92). -/
def complete (cmd : Word) (s : State) : Host.Outcome State Fault Refusal :=
  match decodeWord cmd with
  | .ok i => exec i s
  | .error _ => .next (illegalCommand s)

end Sys2Proof.Machine
end

