-- ==== Sys2Proof/Machine/Step.lean ====
section
/-! DEFINITION. One step of the machine: a completion, one host action, or waiting (20_memory.md R78, 60_exceptions.md R247). -/

namespace Sys2Proof.Machine

/-- One step: the command in flight completes, or the host performs one action, or the block waits. -/
def step (s : State) : Host.Outcome State Fault Refusal :=
  match s.turn with
  | .core cmd => complete cmd s
  | .host a rest => .next (hostAct a rest s)
  | .nobody => .next s

/-- `s` with the command word `w` in flight, its completion due: what a host write of `w` to CMD with ARG0..ARG2 as they are
leaves once the delay has run out (R220, log 12). -/
def State.withFetchWord (s : State) (nbits w : Nat) : State :=
  { s with
    seq := .busy (BitVec.ofNat 32 (w % 2 ^ nbits)) s.arg0 s.arg1 s.arg2
    delay := 0
    inReset := false }

end Sys2Proof.Machine
end

