-- ==== Sys2Proof/Safety.lean ====
section
/-! DEFINITION. What holds in every state a run reaches: the memory form (10_state.md R45), the code table (R44), the counters
and the tree (R34 to R37, R41 to R43, 41_tree.md R133, R135), and what CODES_VALID means (R24). -/

namespace Sys2Proof.Machine

/-- The step ends in a next state. -/
def Runs (o : Host.Outcome State Fault Refusal) : Prop := ∃ t, o = .next t

/-! ### The terms the statements use -/

/-- The completion record of a success: RESULT = 0, ERR_INFO = 0, DONE set, ERRF as it was, the sequencer Idle (R241). -/
def State.succeeded (s : State) : State :=
  { s with result := .ok, errInfo := 0, done := true, seq := .idle }

/-- The completion record of a failure: RESULT and ERR_INFO, DONE and ERRF set, the sequencer Idle (R241). -/
def State.failed (s : State) (code : ResultCode) (info : Word) : State :=
  { s with result := code, errInfo := info, done := true, errf := true, seq := .idle }

/-- The command in flight is due: the block is out of reset, and the drawn delay has run out, or the host has no access left,
or it waits (R247, R290). -/
def State.due (s : State) : Prop := s.inReset = false ∧ (s.delay = 0 ∨ s.host = [] ∨ s.host.head? = some .wait)

/-- The number of indices i below n with BUF[a + i] = v (R110). -/
def State.occurrences (s : State) (a n : Nat) (v : Symbol) : Nat :=
  ((List.range n).filter (fun i => decide (s.bufByte (a + i) = v))).length

/-- The symbols present in FREQ. -/
def presentSymbols (freq : Vector Word 256) : List Symbol := symbols.filter (fun v => decide (freqAt freq v ≠ 0))

/-- The codes of the source bytes, concatenated in input order: the bit string S of ENCODE (R180). -/
def State.sourceBits (s : State) : Bits := (List.range s.len).flatMap (fun i => codeAt s.ct (s.bufByte (s.src + i)))

/-- P of a stream of T bits (R182). -/
def padOf (t : Nat) : Nat := (8 - t % 8) % 8

/-- The length of the stream of T bits: the padding byte and ceil(T / 8) payload bytes (R180). -/
def streamLength (t : Nat) : Nat := 1 + (t + 7) / 8

/-- The payload bits that DECODE reads: bit k is bit 7 - (k mod 8) of BUF[src + 1 + k div 8], for k below 8 * (len - 1) - P
(R201). -/
def State.streamBits (s : State) : Bits :=
  (List.range (8 * (s.len - 1) - (s.bufByte s.src).toNat)).map
    (fun k => (s.bufByte (s.src + 1 + k / 8)).getLsbD (7 - k % 8))

/-- The node a bit string leads to from the root: LEFT on 0, RIGHT on 1 (R161). -/
def TreeMem.follow (t : TreeMem) (p : Bits) : NodeIdx :=
  p.foldl (fun n b => if b then (t.nodeAt n).right else (t.nodeAt n).left) t.root

/-- `p` is the path from the root to the leaf of `v`: it ends there, and meets no leaf on the way (R161). -/
def TreeMem.Path (t : TreeMem) (v : Symbol) (p : Bits) : Prop :=
  p ≠ [] ∧ t.follow p = v.setWidth 9 ∧ (t.nodeAt (v.setWidth 9)).leaf = true ∧
    ∀ k, 0 < k → k < p.length → (t.nodeAt (t.follow (p.take k))).leaf = false

/-- `bits` is the paths of the symbols `out`, one after the other. -/
def TreeMem.Spells (t : TreeMem) : List Symbol → Bits → Prop
  | [], bits => bits = []
  | v :: vs, bits => ∃ p rest, bits = p ++ rest ∧ t.Path v p ∧ TreeMem.Spells t vs rest

/-- TREE_STEP, `k` times. -/
def repeatTreeStep : Nat → State → Option State
  | 0, s => some s
  | k + 1, s =>
    match exec .treeStep s with
    | .next t => repeatTreeStep k t
    | .fault _ => none
    | .refused _ => none

/-! ### The heap's arrangement (R131, R132), over the queue as a list -/

/-- swap HEAP[i], HEAP[j]. -/
def swapAt (q : List NodeIdx) (i j : Nat) : List NodeIdx := (q.set i (q.getD j 0)).set j (q.getD i 0)

/-- The loop of heap_insert from index i turns q into q' (R131). -/
inductive SiftsUp (less : NodeIdx → NodeIdx → Bool) : List NodeIdx → Nat → List NodeIdx → Prop where
  /-- it stops at the top, or where HEAP[i] is not less than its parent -/
  | stop (q : List NodeIdx) (i : Nat) (h : i = 0 ∨ less (q.getD i 0) (q.getD ((i - 1) / 2) 0) = false) : SiftsUp less q i q
  /-- otherwise it swaps the two and goes on at the parent -/
  | up (q : List NodeIdx) (i : Nat) (q' : List NodeIdx) (h : 0 < i)
      (hl : less (q.getD i 0) (q.getD ((i - 1) / 2) 0) = true)
      (hs : SiftsUp less (swapAt q i ((i - 1) / 2)) ((i - 1) / 2) q') : SiftsUp less q i q'

/-- c is the child of i that heap_extract compares: the right one when it is in the heap and less than the left one (R132). -/
def IsLesserChild (less : NodeIdx → NodeIdx → Bool) (q : List NodeIdx) (i c : Nat) : Prop :=
  2 * i + 1 < q.length ∧
    ((2 * i + 2 < q.length ∧ less (q.getD (2 * i + 2) 0) (q.getD (2 * i + 1) 0) = true) ∧ c = 2 * i + 2 ∨
      ¬ (2 * i + 2 < q.length ∧ less (q.getD (2 * i + 2) 0) (q.getD (2 * i + 1) 0) = true) ∧ c = 2 * i + 1)

/-- The loop of heap_extract from index i turns q into q' (R132). -/
inductive SiftsDown (less : NodeIdx → NodeIdx → Bool) : List NodeIdx → Nat → List NodeIdx → Prop where
  /-- it stops where i has no child -/
  | bottom (q : List NodeIdx) (i : Nat) (h : q.length ≤ 2 * i + 1) : SiftsDown less q i q
  /-- it stops where the lesser child is not less than HEAP[i] -/
  | stop (q : List NodeIdx) (i c : Nat) (h : IsLesserChild less q i c) (hl : less (q.getD c 0) (q.getD i 0) = false) :
      SiftsDown less q i q
  /-- otherwise it swaps the two and goes on at the child -/
  | down (q : List NodeIdx) (i c : Nat) (q' : List NodeIdx) (h : IsLesserChild less q i c)
      (hl : less (q.getD c 0) (q.getD i 0) = true) (hs : SiftsDown less (swapAt q c i) c q') : SiftsDown less q i q'

/-- heap_insert(n) turns the queue q into q' (R131). -/
def Inserts (less : NodeIdx → NodeIdx → Bool) (q : List NodeIdx) (n : NodeIdx) (q' : List NodeIdx) : Prop :=
  SiftsUp less (q ++ [n]) q.length q'

/-- heap_insert of each node of the list, in its order, turns the queue q into q'. -/
inductive InsertsAll (less : NodeIdx → NodeIdx → Bool) : List NodeIdx → List NodeIdx → List NodeIdx → Prop where
  | nil (q : List NodeIdx) : InsertsAll less q [] q
  | cons (q : List NodeIdx) (n : NodeIdx) (ns q1 q' : List NodeIdx) (h : Inserts less q n q1)
      (hs : InsertsAll less q1 ns q') : InsertsAll less q (n :: ns) q'

/-- heap_extract() returns m and turns the queue q into q': the last entry takes HEAP[0]'s place and sifts down (R132). -/
def Extracts (less : NodeIdx → NodeIdx → Bool) (q : List NodeIdx) (m : NodeIdx) (q' : List NodeIdx) : Prop :=
  q.head? = some m ∧
    (q.length = 1 ∧ q' = [] ∨
      1 < q.length ∧ SiftsDown less (q.set 0 (q.getD (q.length - 1) 0)).dropLast 0 q')

/-! ### The invariants -/

/-- BUF_BYTES is legal (R9), and BUF lists addresses below it, strictly rising. -/
structure State.MemoryOk (s : State) : Prop where
  params : s.params.legal = true
  canonical : s.buf.wf
  inside : s.buf.below s.params.bufBytes

/-- Every code fits CT_LEN's 8 bits (R7, R44). -/
def State.CodesFit (s : State) : Prop := ∀ v, (codeAt s.ct v).length ≤ 255

/-- CODES_VALID is 1 only when the tree is complete and CT holds its codes (R24, R44). -/
def State.CodesCurrent (s : State) : Prop :=
  s.codesValid = true → s.tree.state = .done ∧ s.tree.codes = some s.ct

/-- The nodes in the priority queue, in heap order: HEAP[0 .. HEAP_SIZE - 1] (R41). -/
def TreeMem.queue (t : TreeMem) : List NodeIdx := (List.range t.heapSize.toNat).map t.heapAt

/-- The internal nodes created so far, in order of creation: 256 .. 256 + NINT - 1 (R36, R42). -/
def TreeMem.internals (t : TreeMem) : List NodeIdx := (List.range t.nint.toNat).map (fun k => BitVec.ofNat 9 (256 + k))

/-- Every reference to a node: from the queue, and as a child of an internal node (R43). -/
def TreeMem.owned (t : TreeMem) : List NodeIdx :=
  t.queue ++ t.internals.flatMap (fun n => [(t.nodeAt n).left, (t.nodeAt n).right])

/-- The symbols that have a leaf. -/
def TreeMem.leaves (t : TreeMem) : List Symbol := symbols.filter (fun v => (t.nodeAt (v.setWidth 9)).valid)

/-- The weight of a node as a number. -/
def TreeMem.weightOf (t : TreeMem) (n : NodeIdx) : Nat := (t.nodeAt n).weight.toNat

/-- The counters, TREE_STATE and ROOT agree (R24, R34 to R37, R135). -/
structure TreeMem.Counts (t : TreeMem) : Prop where
  /-- HEAP_SIZE + NINT = NLEAF -/
  sum : t.heapSize.toNat + t.nint.toNat = t.nleaf.toNat
  /-- NLEAF ≤ 256 -/
  bound : t.nleaf.toNat ≤ 256
  /-- EMPTY: no node in the queue -/
  empty_iff : t.state = .empty ↔ t.heapSize = 0
  /-- DONE: one node in the queue; so BUILDING has two or more -/
  done_iff : t.state = .done ↔ t.heapSize = 1
  /-- EMPTY: no leaf -/
  no_leaf : t.state = .empty → t.nleaf = 0
  /-- ROOT.INDEX is the one node of the queue when DONE, else 0 -/
  root : t.root = if t.state = .done then t.heapAt 0 else 0

/-- The heap invariant (R133): no node of the queue is less than its parent. -/
def TreeMem.HeapOrder (t : TreeMem) : Prop :=
  ∀ i, 0 < i → i < t.heapSize.toNat → t.less (t.heapAt ((i - 1) / 2)) (t.heapAt i) = true

/-- The tree shape (R42, R43): a forest whose roots are the nodes of the queue. -/
structure TreeMem.Shape (t : TreeMem) : Prop where
  /-- a valid entry below 256 is a leaf -/
  low_leaf : ∀ n : NodeIdx, n.toNat < 256 → (t.nodeAt n).valid = true → (t.nodeAt n).leaf = true
  /-- from 256 on exactly the entries created so far are valid -/
  high_valid : ∀ n : NodeIdx, 256 ≤ n.toNat → ((t.nodeAt n).valid = true ↔ n.toNat < 256 + t.nint.toNat)
  /-- and they are internal nodes -/
  high_internal : ∀ n : NodeIdx, 256 ≤ n.toNat → (t.nodeAt n).leaf = false
  /-- a leaf's weight is a nonzero 32-bit frequency -/
  leaf_weight : ∀ n : NodeIdx, (t.nodeAt n).valid = true → (t.nodeAt n).leaf = true →
    1 ≤ t.weightOf n ∧ t.weightOf n ≤ 0xFFFFFFFF
  /-- NLEAF counts the leaves -/
  leaf_count : t.leaves.length = t.nleaf.toNat
  /-- the children of a valid internal node are two valid nodes of smaller index -/
  children : ∀ n : NodeIdx, (t.nodeAt n).valid = true → (t.nodeAt n).leaf = false →
    (t.nodeAt (t.nodeAt n).left).valid = true ∧ (t.nodeAt (t.nodeAt n).right).valid = true ∧
    (t.nodeAt n).left ≠ (t.nodeAt n).right ∧ (t.nodeAt n).left < n ∧ (t.nodeAt n).right < n
  /-- and its weight is their sum -/
  weight : ∀ n : NodeIdx, (t.nodeAt n).valid = true → (t.nodeAt n).leaf = false →
    t.weightOf n = t.weightOf (t.nodeAt n).left + t.weightOf (t.nodeAt n).right
  /-- no node is referred to twice -/
  owned_once : t.owned.Nodup
  /-- the nodes referred to are exactly the valid ones -/
  owned_valid : ∀ n : NodeIdx, n ∈ t.owned ↔ (t.nodeAt n).valid = true

/-- The tree builder's state between commands: the counters always agree, and while there is a tree or a build (TREE_STATE ≠
EMPTY) the heap is in order and the arena is a forest. -/
structure TreeMem.Ok (t : TreeMem) : Prop where
  counts : t.Counts
  order : t.state ≠ .empty → t.HeapOrder
  shape : t.state ≠ .empty → t.Shape

/-- All of it. -/
structure State.Inv (s : State) : Prop where
  memory : s.MemoryOk
  fit : s.CodesFit
  current : s.CodesCurrent
  tree : s.tree.Ok

end Sys2Proof.Machine
end

