-- ==== Sys2Proof/Certificates/Slice0/Obligations.lean ====
section
/-! DEFINITION. The statements for the provers. Each is about the model; its docstring names the rule of the spec it states. -/

open Sys2Proof Sys2Proof.Machine

/-! ### Encoding -/

/-- R92: decoding is total, and a word selects a command exactly when it is that command's word; so decode and encode agree
both ways and every other word is rejected. -/
def Obligations.DecodeAndEncodeAgree : Prop :=
  ∀ (w : Word) (i : Instr), decodeWord w = .ok i ↔ w = encodeInstr i

/-- R91: the nine words of the opcode map decode to their commands and are what the encoder gives, and the high nibble groups
the families. -/
def Obligations.OpcodeMapWords : Prop :=
  (∀ p ∈ [(0x00000000, Instr.nop), (0x01000000, .freqClear), (0x02000000, .freqCount), (0x10000000, .treeInit),
      (0x11000000, .treeStep), (0x12000000, .treeBuild), (0x20000000, .codeGen), (0x30000000, .encode),
      (0x31000000, .decode)], decodeWord p.1 = .ok p.2 ∧ encodeInstr p.2 = p.1) ∧
  (∀ i ∈ [Instr.nop, .freqClear, .freqCount], (encodeInstr i).extractLsb' 28 4 = 0) ∧
  (∀ i ∈ [Instr.treeInit, .treeStep, .treeBuild], (encodeInstr i).extractLsb' 28 4 = 1) ∧
  (encodeInstr .codeGen).extractLsb' 28 4 = 2 ∧
  (∀ i ∈ [Instr.encode, .decode], (encodeInstr i).extractLsb' 28 4 = 3)

/-- R222: a word with a nonzero ZERO field or an undefined OPC, once due, completes with E_ILLEGAL and changes nothing but the
completion record. -/
def Obligations.IllegalWordCompletes : Prop :=
  ∀ (s : State) (cmd a b c : Word), s.seq = .busy cmd a b c → s.due →
    (cmd.toNat % 2 ^ 24 ≠ 0 ∨ cmd.toNat / 2 ^ 24 ∉ [0x00, 0x01, 0x02, 0x10, 0x11, 0x12, 0x20, 0x30, 0x31]) →
    step s = .next (s.failed .illegal 0) ∧ (s.failed .illegal 0).readReg .result = 1

/-! ### The step -/

/-- A step runs the decoded command: when the command in flight is due and its word decodes to i, the step is exec of i. -/
def Obligations.StepRunsTheDecodedCommand : Prop :=
  ∀ (s : State) (cmd a b c : Word) (i : Instr), s.seq = .busy cmd a b c → s.due → decodeWord cmd = .ok i →
    step s = exec i s

/-- R247: a host access that comes before the completion is performed wholly before it: while the delay has not run out the
host acts, and the command in flight stays in flight until it is due. When Idle the host acts, and with no action left the
block waits (R280). -/
def Obligations.HostActsBetweenCommands : Prop :=
  ∀ (s : State), s.inReset = false →
    (∀ a rest, s.host = a :: rest → (s.seq = .idle ∨ (s.delay ≠ 0 ∧ a ≠ .wait)) →
      step s = .next (portAction a { s with host := rest, delay := s.delay - 1 })) ∧
    (s.host = [] → s.seq = .idle → step s = .next s)

/-- R280: while rst_n is asserted the block ignores the port; on release nothing else changes. -/
def Obligations.PortIsIgnoredInReset : Prop :=
  ∀ (s : State), s.inReset = true →
    (s.host = [] → step s = .next s) ∧
    (∀ a rest, s.host = a :: rest →
      step s = .next { s with host := rest, inReset := decide (a ≠ .rstRelease) })

/-- R22: CFG never changes. -/
def Obligations.ConfigurationNeverChanges : Prop :=
  ∀ s t, step s = .next t → t.params = s.params ∧ t.readReg .cfg = BitVec.ofNat 32 s.params.bufBytes

/-! ### Reset -/

/-- R50: what every register reads after a hardware reset from any state, and in State.reset; the sequencer is Idle and irq 0. -/
def Obligations.HardwareResetValues : Prop :=
  ∀ (s t : State), (t = releaseReset (hardReset s) ∨ t = State.reset) →
    t.readReg .id = 0x48554646 ∧ t.readReg .cfg = BitVec.ofNat 32 t.params.bufBytes ∧
    (∀ r ∈ [Reg.ctrl, .status, .arg0, .arg1, .arg2, .result, .errInfo, .outLen, .pad, .totalBits, .root, .nleaf, .nint,
      .heapSize, .maxLen], t.readReg r = 0) ∧
    t.seq = .idle ∧ t.irq = false

/-- R223: a write to CTRL with SRST = 1 resets every register, from any state, sets no DONE and no error, leaves the sequencer
Idle and irq 0; and with no command in flight every memory keeps its contents. -/
def Obligations.SoftResetValues : Prop :=
  ∀ (s : State) (w : Word), w.getLsbD 31 = true →
    (∀ r ∈ [Reg.ctrl, .status, .arg0, .arg1, .arg2, .result, .errInfo, .outLen, .pad, .totalBits, .root, .nleaf, .nint,
      .heapSize, .maxLen], (hostWrite 0x008 w s).readReg r = 0) ∧
    (hostWrite 0x008 w s).seq = .idle ∧ (hostWrite 0x008 w s).irq = false ∧
    (hostWrite 0x008 w s).params = s.params ∧
    (s.seq = .idle →
      (hostWrite 0x008 w s).freq = s.freq ∧ (hostWrite 0x008 w s).ct = s.ct ∧
      (hostWrite 0x008 w s).tree.node = s.tree.node ∧ (hostWrite 0x008 w s).tree.heap = s.tree.heap ∧
      ∀ a, (hostWrite 0x008 w s).bufByte a = s.bufByte a)

/-- R224: what a soft reset that aborts the word in flight leaves of the memories. An illegal word changes none. Of the commands,
only FREQ_CLEAR and FREQ_COUNT can change FREQ, only the tree commands NODE and HEAP, only CODE_GEN CT, and only an ENCODE or
DECODE that would have succeeded BUF, inside its destination range; an ENCODE or DECODE that would have failed changes nothing,
and NOP changes nothing. Whether it would have succeeded is read from the state at the abort, which is the model's DEDUCED
reading (log 8). -/
def Obligations.AbortedCommandTouchesOnlyItsTargets : Prop :=
  ∀ (s : State) (cmd a b c w : Word), s.seq = .busy cmd a b c → w.getLsbD 31 = true →
    ((cmd.toNat % 2 ^ 24 ≠ 0 ∨ cmd.toNat / 2 ^ 24 ∉ [0x00, 0x01, 0x02, 0x10, 0x11, 0x12, 0x20, 0x30, 0x31]) →
      (hostWrite 0x008 w s).freq = s.freq ∧ (hostWrite 0x008 w s).tree.node = s.tree.node ∧
      (hostWrite 0x008 w s).tree.heap = s.tree.heap ∧ (hostWrite 0x008 w s).ct = s.ct ∧
      ∀ x, (hostWrite 0x008 w s).bufByte x = s.bufByte x) ∧
    (∀ i : Instr, cmd = encodeInstr i →
      (i ∉ [Instr.freqClear, .freqCount] → (hostWrite 0x008 w s).freq = s.freq) ∧
      (i ∉ [Instr.treeInit, .treeStep, .treeBuild] →
        (hostWrite 0x008 w s).tree.node = s.tree.node ∧ (hostWrite 0x008 w s).tree.heap = s.tree.heap) ∧
      (i ≠ .codeGen → (hostWrite 0x008 w s).ct = s.ct) ∧
      (i ∉ [Instr.encode, .decode] → ∀ x, (hostWrite 0x008 w s).bufByte x = s.bufByte x) ∧
      (∀ t, exec i s = .next t →
        (t.result ≠ .ok → ∀ x, (hostWrite 0x008 w s).bufByte x = s.bufByte x) ∧
        (s.params.legal = true → ∀ x, ¬ (s.dst ≤ x ∧ x < s.dst + t.outLen.toNat) →
          (hostWrite 0x008 w s).bufByte x = s.bufByte x)))

/-! ### System and frequency commands -/

/-- R221: NOP completes and does nothing else. -/
def Obligations.NopOnlyCompletes : Prop := ∀ s, exec .nop s = .next s.succeeded

/-- R111: FREQ_CLEAR sets the whole table to zero and changes nothing else but the completion record. -/
def Obligations.FreqClearZeroesTheTable : Prop :=
  ∀ s, ∃ f, (∀ v, freqAt f v = 0) ∧ exec .freqClear s = .next { s.succeeded with freq := f }

/-- R112: FREQ_COUNT. A range that leaves BUF is E_RANGE(0) and changes nothing; else every count grows by the occurrences of
its symbol, saturating at 2^32 - 1, and when some sum passes that bound the lowest such symbol is reported by E_FREQ_OVF with
all the sums kept. -/
def Obligations.FreqCountAddsTheOccurrences : Prop :=
  ∀ s : State,
    (s.params.bufBytes < s.src + s.len → exec .freqCount s = .next (s.failed .range 0)) ∧
    (s.src + s.len ≤ s.params.bufBytes →
      (∀ v, (freqAt s.freq v).toNat + s.occurrences s.src s.len v ≤ 0xFFFFFFFF) →
      ∃ f, (∀ v, (freqAt f v).toNat = (freqAt s.freq v).toNat + s.occurrences s.src s.len v) ∧
        exec .freqCount s = .next { s.succeeded with freq := f }) ∧
    (s.src + s.len ≤ s.params.bufBytes →
      ∀ v0 : Symbol, 0xFFFFFFFF < (freqAt s.freq v0).toNat + s.occurrences s.src s.len v0 →
      (∀ v : Symbol, v < v0 → (freqAt s.freq v).toNat + s.occurrences s.src s.len v ≤ 0xFFFFFFFF) →
      ∃ f, (∀ v, (freqAt f v).toNat = min ((freqAt s.freq v).toNat + s.occurrences s.src s.len v) 0xFFFFFFFF) ∧
        exec .freqCount s = .next { s.failed .freqOvf (v0.setWidth 32) with freq := f })

/-! ### Tree commands -/

/-- R134: with a present symbol, TREE_INIT makes one leaf per present symbol in an otherwise cleared arena, queues exactly the
leaves in heap order, arranged as inserting them in ascending symbol order arranges them (R131), sets the counters, TREE_STATE and ROOT, clears CODES_VALID, and changes nothing else but the completion
record. -/
def Obligations.TreeInitLoadsTheLeaves : Prop :=
  ∀ s : State, presentSymbols s.freq ≠ [] →
    ∃ u : TreeMem,
      exec .treeInit s = .next { s.succeeded with tree := u, codesValid := false } ∧
      (∀ v : Symbol, u.nodeAt (v.setWidth 9) =
        if freqAt s.freq v = 0 then Node.zero
        else { valid := true, leaf := true, weight := (freqAt s.freq v).setWidth 40, left := 0, right := 0 }) ∧
      (∀ n : NodeIdx, 256 ≤ n.toNat → u.nodeAt n = Node.zero) ∧
      u.nleaf.toNat = (presentSymbols s.freq).length ∧ u.nint = 0 ∧ u.heapSize = u.nleaf ∧
      u.queue.Perm ((presentSymbols s.freq).map (fun v => v.setWidth 9)) ∧ u.HeapOrder ∧
      InsertsAll u.less [] ((presentSymbols s.freq).map (fun v => v.setWidth 9)) u.queue ∧
      (u.nleaf = 1 → u.state = .done ∧ u.root = u.heapAt 0) ∧
      (u.nleaf ≠ 1 → u.state = .building ∧ u.root = 0)

/-- R134, R137: with every count 0, TREE_INIT and TREE_BUILD complete with E_EMPTY(0) and leave the cleared state. -/
def Obligations.EmptyTableIsReported : Prop :=
  ∀ s : State, (∀ v, freqAt s.freq v = 0) → ∀ i ∈ [Instr.treeInit, .treeBuild],
    ∃ u : TreeMem,
      exec i s = .next { s.failed .empty 0 with tree := u, codesValid := false } ∧
      (∀ n, u.nodeAt n = Node.zero) ∧ u.heap = s.tree.heap ∧ u.heapSize = 0 ∧ u.nleaf = 0 ∧ u.nint = 0 ∧
      u.state = .empty ∧ u.root = 0

/-- R136, R160: TREE_STEP outside a build and CODE_GEN without a complete tree complete with E_SEQ(0) and change nothing else. -/
def Obligations.WrongSequenceIsReported : Prop :=
  ∀ s : State,
    (s.tree.state ≠ .building → exec .treeStep s = .next (s.failed .seq 0)) ∧
    (s.tree.state ≠ .done → exec .codeGen s = .next (s.failed .seq 0))

/-- R136, R130: during a build TREE_STEP takes the least node a and then the least of the rest b out of the queue, makes the
next internal node with LEFT a, RIGHT b and their exact weight sum, queues it, counts it, and at the last merge completes the
tree; nothing else changes but the completion record. The queue is arranged as the two extractions (R132) and the insertion
(R131) arrange it. -/
def Obligations.TreeStepMergesTheTwoLeast : Prop :=
  ∀ s : State, s.tree.Ok → s.tree.state = .building →
    ∃ (a b n : NodeIdx) (rest : List NodeIdx) (u : TreeMem),
      n.toNat = 256 + s.tree.nint.toNat ∧
      s.tree.queue.Perm (a :: b :: rest) ∧
      (∀ c ∈ b :: rest, s.tree.less a c = true) ∧ (∀ c ∈ rest, s.tree.less b c = true) ∧
      exec .treeStep s = .next { s.succeeded with tree := u } ∧
      (u.nodeAt n).valid = true ∧ (u.nodeAt n).leaf = false ∧ (u.nodeAt n).left = a ∧ (u.nodeAt n).right = b ∧
      u.weightOf n = s.tree.weightOf a + s.tree.weightOf b ∧
      (∀ m, m ≠ n → u.nodeAt m = s.tree.nodeAt m) ∧
      u.queue.Perm (n :: rest) ∧ u.HeapOrder ∧
      (∃ q1 q2, Extracts s.tree.less s.tree.queue a q1 ∧ Extracts s.tree.less q1 b q2 ∧ Inserts u.less q2 n u.queue) ∧
      u.nleaf = s.tree.nleaf ∧ u.nint.toNat = s.tree.nint.toNat + 1 ∧ u.heapSize.toNat + 1 = s.tree.heapSize.toNat ∧
      (rest = [] → u.state = .done ∧ u.root = n) ∧
      (rest ≠ [] → u.state = .building ∧ u.root = 0)

/-- R137: with a present symbol, TREE_BUILD completes the tree in exactly NLEAF - 1 merges, clears CODES_VALID and changes
nothing else but the completion record. -/
def Obligations.TreeBuildCompletesTheTree : Prop :=
  ∀ s : State, presentSymbols s.freq ≠ [] →
    ∃ u : TreeMem,
      exec .treeBuild s = .next { s.succeeded with tree := u, codesValid := false } ∧
      u.state = .done ∧ u.nleaf.toNat = (presentSymbols s.freq).length ∧ u.nint.toNat + 1 = u.nleaf.toNat ∧
      u.heapSize = 1 ∧ u.root = u.heapAt 0 ∧ u.Ok

/-- R137: TREE_BUILD equals TREE_INIT followed by NLEAF - 1 TREE_STEPs, in the whole state. -/
def Obligations.TreeBuildIsInitThenSteps : Prop :=
  ∀ s : State, presentSymbols s.freq ≠ [] →
    ∃ s0 t, exec .treeInit s = .next s0 ∧ exec .treeBuild s = .next t ∧
      repeatTreeStep ((presentSymbols s.freq).length - 1) s0 = some t

/-- R138: NODE, ROOT, NLEAF, NINT and TREE_STATE after TREE_BUILD depend on FREQ alone, whatever came before. -/
def Obligations.TreeDependsOnFreqAlone : Prop :=
  ∀ s1 s2 : State, s1.freq = s2.freq →
    ∃ t1 t2, exec .treeBuild s1 = .next t1 ∧ exec .treeBuild s2 = .next t2 ∧
      t1.tree.node = t2.tree.node ∧ t1.tree.root = t2.tree.root ∧ t1.tree.nleaf = t2.tree.nleaf ∧
      t1.tree.nint = t2.tree.nint ∧ t1.tree.heapSize = t2.tree.heapSize ∧ t1.tree.state = t2.tree.state

/-- R139: the weight of the root after TREE_BUILD is the sum of FREQ. -/
def Obligations.RootWeightIsTheFrequencySum : Prop :=
  ∀ s t : State, presentSymbols s.freq ≠ [] → exec .treeBuild s = .next t →
    t.tree.weightOf t.tree.root = (symbols.map (fun v => (freqAt s.freq v).toNat)).sum

/-! ### The code table -/

/-- R160, R161: on a complete tree CODE_GEN gives a symbol with no leaf the empty code, a lone leaf the code 0, and every other
leaf its path from the root; MAXLEN is the greatest length; CODES_VALID is set; nothing else changes but the completion record. -/
def Obligations.CodeGenRecordsThePaths : Prop :=
  ∀ s : State, s.tree.Ok → s.tree.state = .done →
    ∃ (ct : Vector Bits 256) (m : BitVec 8),
      exec .codeGen s = .next { s.succeeded with ct := ct, maxLen := m, codesValid := true } ∧
      (∀ v : Symbol, (s.tree.nodeAt (v.setWidth 9)).valid = false → codeAt ct v = []) ∧
      (∀ v : Symbol, (s.tree.nodeAt s.tree.root).leaf = true → (s.tree.nodeAt (v.setWidth 9)).valid = true →
        codeAt ct v = [false]) ∧
      (∀ v : Symbol, (s.tree.nodeAt s.tree.root).leaf = false → (s.tree.nodeAt (v.setWidth 9)).valid = true →
        s.tree.Path v (codeAt ct v)) ∧
      (∀ v, (codeAt ct v).length ≤ m.toNat) ∧ (∃ v, (codeAt ct v).length = m.toNat)

/-- R163(a), (c): while CODES_VALID is 1 no code is a prefix of another, and a symbol has a code exactly when it has a leaf. -/
def Obligations.CodesArePrefixFree : Prop :=
  ∀ s : State, s.tree.Ok → s.CodesCurrent → s.codesValid = true →
    (∀ v w : Symbol, v ≠ w → codeAt s.ct v ≠ [] → codeAt s.ct w ≠ [] → ¬ (codeAt s.ct v <+: codeAt s.ct w)) ∧
    (∀ v : Symbol, codeAt s.ct v ≠ [] ↔ (s.tree.nodeAt (v.setWidth 9)).valid = true)

/-- R163(b): with two or more leaves the codes are complete: the sum of 2^-CT_LEN over the present symbols is 1 (here times
2^255). -/
def Obligations.CodesAreComplete : Prop :=
  ∀ s : State, s.tree.Ok → s.CodesCurrent → s.codesValid = true → 2 ≤ s.tree.nleaf.toNat →
    ((symbols.filter (fun v => decide (codeAt s.ct v ≠ []))).map (fun v => 2 ^ (255 - (codeAt s.ct v).length))).sum = 2 ^ 255

/-! ### ENCODE and DECODE -/

/-- R180, R243: ENCODE reports the first check that fails, in the order E_SEQ, E_RANGE(0), E_EMPTY, E_NO_CODE(lowest i),
E_RANGE(1), E_OVERLAP, and then changes nothing but the completion record. -/
def Obligations.EncodeReportsTheFirstFailure : Prop :=
  ∀ s : State,
    (s.codesValid = false → exec .encode s = .next (s.failed .seq 0)) ∧
    (s.codesValid = true →
      (s.params.bufBytes < s.src + s.len → exec .encode s = .next (s.failed .range 0)) ∧
      (s.src + s.len ≤ s.params.bufBytes →
        (s.len = 0 → exec .encode s = .next (s.failed .empty 0)) ∧
        (∀ i, i < s.len → codeAt s.ct (s.bufByte (s.src + i)) = [] →
          (∀ j, j < i → codeAt s.ct (s.bufByte (s.src + j)) ≠ []) →
          exec .encode s = .next (s.failed .noCode (BitVec.ofNat 32 i))) ∧
        (s.len ≠ 0 → (∀ i, i < s.len → codeAt s.ct (s.bufByte (s.src + i)) ≠ []) →
          (s.params.bufBytes < s.dst + streamLength s.sourceBits.length →
            exec .encode s = .next (s.failed .range 1)) ∧
          (s.dst + streamLength s.sourceBits.length ≤ s.params.bufBytes →
            s.src < s.dst + streamLength s.sourceBits.length → s.dst < s.src + s.len →
            exec .encode s = .next (s.failed .overlap 0)))))

/-- R180, R181, R182: when every check passes ENCODE writes the padding byte P at dst, bit k of the concatenated codes at bit
7 - (k mod 8) of BUF[dst + 1 + k div 8], zeros in the P padding positions, OUT_LEN, PAD and TOTAL_BITS, and nothing else but the
completion record. -/
def Obligations.EncodePacksTheCodes : Prop :=
  ∀ s : State, s.params.legal = true → s.codesValid = true → s.src + s.len ≤ s.params.bufBytes → s.len ≠ 0 →
    (∀ i, i < s.len → codeAt s.ct (s.bufByte (s.src + i)) ≠ []) →
    s.dst + streamLength s.sourceBits.length ≤ s.params.bufBytes →
    (s.dst + streamLength s.sourceBits.length ≤ s.src ∨ s.src + s.len ≤ s.dst) →
    ∃ (m : Memory) (o : Word) (p : BitVec 3) (b : Word) (t : State),
      t = { s.succeeded with buf := m, outLen := o, pad := p, totalBits := b } ∧
      exec .encode s = .next t ∧
      o.toNat = streamLength s.sourceBits.length ∧ p.toNat = padOf s.sourceBits.length ∧
      b.toNat = s.sourceBits.length ∧
      (t.bufByte s.dst).toNat = padOf s.sourceBits.length ∧
      (∀ k, k < s.sourceBits.length →
        (t.bufByte (s.dst + 1 + k / 8)).getLsbD (7 - k % 8) = s.sourceBits.getD k false) ∧
      (∀ k, s.sourceBits.length ≤ k → k < s.sourceBits.length + padOf s.sourceBits.length →
        (t.bufByte (s.dst + 1 + k / 8)).getLsbD (7 - k % 8) = false) ∧
      (∀ x, ¬ (s.dst ≤ x ∧ x < s.dst + streamLength s.sourceBits.length) → t.bufByte x = s.bufByte x)

/-- R183: after a successful ENCODE, 8 * (OUT_LEN - 1) - PAD = TOTAL_BITS = the sum of the code lengths of the source bytes. -/
def Obligations.PaddingIsCorrect : Prop :=
  ∀ s t : State, s.params.legal = true → exec .encode s = .next t → t.result = .ok →
    8 * (t.outLen.toNat - 1) - t.pad.toNat = t.totalBits.toNat ∧
    t.totalBits.toNat = ((List.range s.len).map (fun i => (codeAt s.ct (s.bufByte (s.src + i))).length)).sum

/-- R200, R243: DECODE reports the first check that fails among E_SEQ, E_RANGE(0) and the three of E_BAD_PAD, and changes
nothing but the completion record. -/
def Obligations.DecodeChecksTheStream : Prop :=
  ∀ s : State,
    (s.tree.state ≠ .done → exec .decode s = .next (s.failed .seq 0)) ∧
    (s.tree.state = .done →
      (s.params.bufBytes < s.src + s.len → exec .decode s = .next (s.failed .range 0)) ∧
      (s.src + s.len ≤ s.params.bufBytes →
        (s.len = 0 → exec .decode s = .next (s.failed .badPad 0)) ∧
        (s.len ≠ 0 → 7 < (s.bufByte s.src).toNat → exec .decode s = .next (s.failed .badPad 1)) ∧
        (s.len ≠ 0 → (s.bufByte s.src).toNat ≤ 7 → 8 * (s.len - 1) < (s.bufByte s.src).toNat →
          exec .decode s = .next (s.failed .badPad 2))))

/-- R200, R202: the remaining failures of DECODE on a stream with a legal padding byte. A 1 bit under a lone leaf is
E_BAD_CODE at its index; a stream that ends inside a path is E_TRUNC at the path's first bit; a number of symbols other than
the root's weight is E_COUNT; then the destination range and the overlap are checked. -/
def Obligations.DecodeReportsCorruptStreams : Prop :=
  ∀ s : State, s.params.legal = true → s.tree.Ok → s.tree.state = .done → s.src + s.len ≤ s.params.bufBytes → s.len ≠ 0 →
    (s.bufByte s.src).toNat ≤ 7 → (s.bufByte s.src).toNat ≤ 8 * (s.len - 1) →
    ((s.tree.nodeAt s.tree.root).leaf = true →
      ∀ k, k < s.streamBits.length → s.streamBits.getD k false = true →
        (∀ j, j < k → s.streamBits.getD j false = false) →
        exec .decode s = .next (s.failed .badCode (BitVec.ofNat 32 k))) ∧
    ((s.tree.nodeAt s.tree.root).leaf = false →
      ∀ (out : List Symbol) (whole part : Bits), s.streamBits = whole ++ part → s.tree.Spells out whole → part ≠ [] →
        (∀ k, 0 < k → k ≤ part.length → (s.tree.nodeAt (s.tree.follow (part.take k))).leaf = false) →
        exec .decode s = .next (s.failed .trunc (BitVec.ofNat 32 whole.length))) ∧
    (∀ out : List Symbol,
      (((s.tree.nodeAt s.tree.root).leaf = false ∧ s.tree.Spells out s.streamBits) ∨
        ((s.tree.nodeAt s.tree.root).leaf = true ∧ (∀ b ∈ s.streamBits, b = false) ∧
          out = List.replicate s.streamBits.length (s.tree.root.setWidth 8))) →
      (out.length ≠ s.tree.weightOf s.tree.root →
        exec .decode s = .next (s.failed .count (BitVec.ofNat 32 out.length))) ∧
      (out.length = s.tree.weightOf s.tree.root →
        (s.params.bufBytes < s.dst + out.length → exec .decode s = .next (s.failed .range 1)) ∧
        (s.dst + out.length ≤ s.params.bufBytes → s.src < s.dst + out.length → s.dst < s.src + s.len →
          exec .decode s = .next (s.failed .overlap 0))))

/-- R200, R201, R202: when the payload bits are the paths of the symbols `out` (or zeros under a lone leaf), as many as the
root's weight, and the destination passes its checks, DECODE writes exactly `out` at dst, OUT_LEN, PAD and TOTAL_BITS, and
nothing else but the completion record. -/
def Obligations.DecodeRecoversTheSymbols : Prop :=
  ∀ (s : State) (out : List Symbol), s.params.legal = true → s.tree.state = .done →
    s.src + s.len ≤ s.params.bufBytes → s.len ≠ 0 →
    (s.bufByte s.src).toNat ≤ 7 → (s.bufByte s.src).toNat ≤ 8 * (s.len - 1) →
    (((s.tree.nodeAt s.tree.root).leaf = false ∧ s.tree.Spells out s.streamBits) ∨
      ((s.tree.nodeAt s.tree.root).leaf = true ∧ (∀ b ∈ s.streamBits, b = false) ∧
        out = List.replicate s.streamBits.length (s.tree.root.setWidth 8))) →
    out.length = s.tree.weightOf s.tree.root → s.dst + out.length ≤ s.params.bufBytes →
    (out = [] ∨ s.dst + out.length ≤ s.src ∨ s.src + s.len ≤ s.dst) →
    ∃ (m : Memory) (o : Word) (p : BitVec 3) (b : Word) (t : State),
      t = { s.succeeded with buf := m, outLen := o, pad := p, totalBits := b } ∧
      exec .decode s = .next t ∧
      o.toNat = out.length ∧ p.toNat = (s.bufByte s.src).toNat ∧ b.toNat = s.streamBits.length ∧
      (∀ i (h : i < out.length), t.bufByte (s.dst + i) = out[i]) ∧
      (∀ x, ¬ (s.dst ≤ x ∧ x < s.dst + out.length) → t.bufByte x = s.bufByte x)

/-- R205: a successful ENCODE of as many bytes as the root's weight, then DECODE of its stream with the same tree into a range
that fits and does not overlap the stream, writes exactly the source bytes. -/
def Obligations.DecodeInvertsEncode : Prop :=
  ∀ (s t : State) (d : Word), s.Inv → s.codesValid = true → exec .encode s = .next t → t.result = .ok →
    s.len = s.tree.weightOf s.tree.root → d.toNat + s.len ≤ s.params.bufBytes →
    (d.toNat + s.len ≤ s.dst ∨ s.dst + t.outLen.toNat ≤ d.toNat) →
    ∃ v, exec .decode { t with seq := .busy (encodeInstr .decode) (BitVec.ofNat 32 s.dst) t.outLen d } = .next v ∧
      v.result = .ok ∧ v.outLen.toNat = s.len ∧
      ∀ i, i < s.len → v.bufByte (d.toNat + i) = s.bufByte (s.src + i)

/-! ### Whole-machine rules -/

/-- R241: every command that completes sets DONE, leaves the sequencer Idle, and sets ERRF exactly when its result is not OK;
ERR_INFO is 0 on success. -/
def Obligations.EveryCompletionIsRecorded : Prop :=
  ∀ (i : Instr) (s t : State), exec i s = .next t →
    t.done = true ∧ t.seq = .idle ∧
    (t.result = .ok → t.errInfo = 0 ∧ t.errf = s.errf) ∧ (t.result ≠ .ok → t.errf = true)

/-- R244: a failed command leaves all state as it was but for the completion record, except that E_FREQ_OVF keeps the counts
and E_EMPTY from TREE_INIT or TREE_BUILD leaves the cleared tree state. -/
def Obligations.FailedCommandsArePrecise : Prop :=
  ∀ (i : Instr) (s t : State), exec i s = .next t → t.result ≠ .ok →
    (i ≠ .freqCount → i ≠ .treeInit → i ≠ .treeBuild → t = s.failed t.result t.errInfo) ∧
    (i = .freqCount → t.result ≠ .freqOvf → t = s.failed t.result t.errInfo) ∧
    (i = .freqCount → t.result = .freqOvf → t = { s.failed .freqOvf t.errInfo with freq := t.freq }) ∧
    (i = .treeInit ∨ i = .treeBuild →
      t = { s.failed .empty 0 with tree := t.tree, codesValid := false } ∧ t.tree.state = .empty)

/-- R48, R49, R74: no command writes ARG0..ARG2, CTRL or OVR. That it also leaves the model's own fields of the host's side as
they are is the model's choice: the host's actions (log 1), the delay (log 2), the counts of free values (log 3), the value of the
last read (log 9, unsafe) and the reset flag (log 10). -/
def Obligations.CommandsKeepTheHostsState : Prop :=
  ∀ (i : Instr) (s t : State), exec i s = .next t →
    t.arg0 = s.arg0 ∧ t.arg1 = s.arg1 ∧ t.arg2 = s.arg2 ∧ t.doneIe = s.doneIe ∧ t.errIe = s.errIe ∧ t.ovr = s.ovr ∧
    t.params = s.params ∧ t.inReset = s.inReset ∧ t.rdata = s.rdata ∧ t.host = s.host ∧ t.delay = s.delay ∧
    t.draws = s.draws ∧ t.bufDraw = s.bufDraw

/-- R31 to R33, R38, R40, R41, R44, R45, R49: which commands may write FREQ, the tree, CT and MAXLEN, CODES_VALID, and BUF with
OUT_LEN, PAD and TOTAL_BITS; every other command leaves each of them unchanged. -/
def Obligations.CommandsWriteOnlyTheirState : Prop :=
  ∀ (i : Instr) (s t : State), exec i s = .next t →
    (i ∉ [Instr.freqClear, .freqCount] → t.freq = s.freq) ∧
    (i ∉ [Instr.treeInit, .treeStep, .treeBuild] → t.tree = s.tree) ∧
    (i ≠ .codeGen → t.ct = s.ct ∧ t.maxLen = s.maxLen) ∧
    (i ∉ [Instr.treeInit, .treeBuild, .codeGen] → t.codesValid = s.codesValid) ∧
    (i ∉ [Instr.encode, .decode] →
      (∀ x, t.bufByte x = s.bufByte x) ∧ t.outLen = s.outLen ∧ t.pad = s.pad ∧ t.totalBits = s.totalBits)

/-- R285: writing ARG0, ARG1 or ARG2 while Busy does not disturb the command in flight: it does the same to everything else. -/
def Obligations.ArgWritesDoNotDisturbTheCommand : Prop :=
  ∀ (i : Instr) (s t : State) (cmd a b c x y z : Word), s.seq = .busy cmd a b c → exec i s = .next t →
    exec i { s with arg0 := x, arg1 := y, arg2 := z } = .next { t with arg0 := x, arg1 := y, arg2 := z }

/-- R49, R248, R284: OVR is set only by a host write to CMD, FREQ or BUF while a command is in flight. -/
def Obligations.OvrMeansADroppedWrite : Prop :=
  ∀ s t : State, step s = .next t → s.ovr = false → t.ovr = true →
    s.isBusy = true ∧ ∃ a w rest, s.host = .wr a w :: rest ∧
      (a.toNat / 4 = 4 ∨ (0x400 ≤ a.toNat ∧ a.toNat < 0x800) ∨
        (0x10000 ≤ a.toNat ∧ a.toNat < 0x10000 + (s.params.bufBytes + 3) / 4 * 4))

/-- R24, R46, R223, R280: a command in flight leaves the sequencer only by its completion, by a soft reset or by a hardware
reset; while it stays, its word and latched operands stay, and so do the result registers and the memories (R285). -/
def Obligations.CommandInFlightStaysUntilCompletion : Prop :=
  ∀ (s t : State) (cmd a b c : Word), s.seq = .busy cmd a b c → ¬ s.due → step s = .next t → s.inReset = false →
    (∃ w addr rest, s.host = .wr addr w :: rest ∧ addr.toNat / 4 = 2 ∧ w.getLsbD 31 = true ∧ t.seq = .idle) ∨
    (∃ rest, s.host = .rstAssert :: rest ∧ t.seq = .idle) ∨
    (t.seq = s.seq ∧ t.result = s.result ∧ t.errInfo = s.errInfo ∧ t.outLen = s.outLen ∧ t.pad = s.pad ∧
      t.totalBits = s.totalBits ∧ t.maxLen = s.maxLen ∧ t.tree = s.tree ∧ t.codesValid = s.codesValid ∧
      t.freq = s.freq ∧ t.ct = s.ct ∧ ∀ x, t.bufByte x = s.bufByte x)

/-! ### The port -/

/-- R220, R25: a write to CMD while Idle latches the word and ARG0..ARG2 and changes nothing else the port can see; while Busy
it is dropped with OVR. -/
def Obligations.IssueLatchesTheOperands : Prop :=
  ∀ (s : State) (w : Word),
    (s.seq = .idle →
      ∃ d k, hostWrite 0x010 w s = { s with seq := .busy w s.arg0 s.arg1 s.arg2, delay := d, draws := k }) ∧
    (s.isBusy = true → hostWrite 0x010 w s = { s with ovr := true })

/-- R225: a write to STATUS clears DONE, ERRF and OVR where the word has a 1 in bit 1, 2 or 3, and changes nothing else, also
while Busy. -/
def Obligations.AcknowledgeClearsTheSelectedBits : Prop :=
  ∀ (s : State) (w : Word),
    hostWrite 0x00C w s =
      { s with
        done := if w.getLsbD 1 then false else s.done
        errf := if w.getLsbD 2 then false else s.errf
        ovr := if w.getLsbD 3 then false else s.ovr }

/-- R250: irq = (DONE and DONE_IE) or ((ERRF or OVR) and ERR_IE); acknowledging all three, disabling both, or a reset lowers it. -/
def Obligations.IrqFollowsStatusAndControl : Prop :=
  ∀ s : State,
    (s.irq = true ↔ (s.done = true ∧ s.doneIe = true) ∨ ((s.errf = true ∨ s.ovr = true) ∧ s.errIe = true)) ∧
    (hostWrite 0x00C 0x0000000E s).irq = false ∧ (hostWrite 0x008 0 s).irq = false ∧
    (hostWrite 0x008 0x80000000 s).irq = false ∧ (hardReset s).irq = false

/-- R23: a write to CTRL with SRST = 0 stores DONE_IE and ERR_IE and changes nothing else; CTRL reads them back with every
other bit 0. -/
def Obligations.CtrlHoldsTheEnables : Prop :=
  ∀ (s : State) (w : Word), w.getLsbD 31 = false →
    hostWrite 0x008 w s = { s with doneIe := w.getLsbD 0, errIe := w.getLsbD 1 } ∧
    (hostWrite 0x008 w s).readReg .ctrl = w &&& 3

/-- R26, R27, R28, R285: ARG0, ARG1 and ARG2 hold what the host writes, Idle or Busy, and nothing else changes. -/
def Obligations.OperandRegistersHoldWhatIsWritten : Prop :=
  ∀ (s : State) (w : Word),
    hostWrite 0x014 w s = { s with arg0 := w } ∧ hostWrite 0x018 w s = { s with arg1 := w } ∧
    hostWrite 0x01C w s = { s with arg2 := w } ∧ hostRead 0x014 s = { s with rdata := s.arg0 } ∧
    hostRead 0x018 s = { s with rdata := s.arg1 } ∧ hostRead 0x01C s = { s with rdata := s.arg2 }

/-- R24: the fields of STATUS as read, with the three values of TREE_STATE; R23: CTRL as read. R21 to R38, R61, R62: what a read
of each register's address returns, ARG0 to ARG2 apart, CMD reading 0; R240: the number each result code reads as in RESULT. -/
def Obligations.StatusFields : Prop :=
  ∀ s : State,
    ((s.readReg .status).getLsbD 0 = s.isBusy) ∧ ((s.readReg .status).getLsbD 1 = s.done) ∧
    ((s.readReg .status).getLsbD 2 = s.errf) ∧ ((s.readReg .status).getLsbD 3 = s.ovr) ∧
    (∀ p ∈ [(TreeState.empty, (0 : BitVec 2)), (.building, 1), (.done, 2)],
      s.tree.state = p.1 → (s.readReg .status).extractLsb' 4 2 = p.2) ∧
    ((s.readReg .status).getLsbD 6 = s.codesValid) ∧ (s.readReg .status).toNat < 128 ∧
    (s.readReg .ctrl).toNat = s.doneIe.toNat + 2 * s.errIe.toNat ∧
    (∀ p ∈ [((0x000 : PortAddr), (0x48554646 : Word)), (0x004, BitVec.ofNat 32 s.params.bufBytes), (0x008, s.readReg .ctrl),
        (0x00C, s.readReg .status), (0x010, 0), (0x024, s.errInfo), (0x028, s.outLen), (0x02C, s.pad.setWidth 32),
        (0x030, s.totalBits), (0x034, s.readReg .root), (0x038, s.tree.nleaf.setWidth 32), (0x03C, s.tree.nint.setWidth 32),
        (0x040, s.tree.heapSize.setWidth 32), (0x044, s.maxLen.setWidth 32)],
      hostRead p.1 s = { s with rdata := p.2 }) ∧
    (∀ p ∈ [(ResultCode.ok, (0 : Word)), (.illegal, 1), (.seq, 2), (.empty, 3), (.range, 4), (.overlap, 5), (.freqOvf, 6),
        (.noCode, 7), (.badPad, 8), (.badCode, 9), (.trunc, 10), (.count, 11)],
      s.result = p.1 → hostRead 0x020 s = { s with rdata := p.2 })

/-- R34: ROOT reads {VALID, 0, INDEX} with VALID exactly when TREE_STATE is DONE, and 0 otherwise. -/
def Obligations.RootReadsZeroUnlessDone : Prop :=
  ∀ s : State,
    (s.tree.state = .done → (s.readReg .root).toNat = 2 ^ 31 + s.tree.root.toNat) ∧
    (s.tree.state ≠ .done → s.readReg .root = 0)

/-- R68: reserved and unmapped addresses read 0 and ignore writes, setting no status bit, Idle or Busy. -/
def Obligations.ReservedAddressesReadZero : Prop :=
  ∀ (s : State) (a : PortAddr) (w : Word),
    ((0x48 ≤ a.toNat ∧ a.toNat < 0x400) ∨ (0xC00 ≤ a.toNat ∧ a.toNat < 0x1000) ∨
      (0x6000 ≤ a.toNat ∧ a.toNat < 0x10000) ∨ 0x10000 + (s.params.bufBytes + 3) / 4 * 4 ≤ a.toNat) →
    hostRead a s = { s with rdata := 0 } ∧ hostWrite a w s = s

/-- R62, R64, R65, R66: writes to read-only registers and to the HEAP, NODE and CT windows have no effect and set no OVR, Idle
or Busy. -/
def Obligations.ReadOnlyAddressesIgnoreWrites : Prop :=
  ∀ (s : State) (a : PortAddr) (w : Word),
    (a.toNat < 8 ∨ (0x20 ≤ a.toNat ∧ a.toNat < 0x48) ∨ (0x800 ≤ a.toNat ∧ a.toNat < 0xC00) ∨
      (0x1000 ≤ a.toNat ∧ a.toNat < 0x6000)) →
    hostWrite a w s = s

/-- R69, R284: while Busy a write to CMD or to the FREQ or BUF window is dropped and sets OVR, and a read of any memory window
gives a free value. The free value itself is the model's (log 7). -/
def Obligations.BusyDropsWritesAndFreesReads : Prop :=
  ∀ (s : State) (a : PortAddr) (w : Word), s.isBusy = true →
    ((a.toNat / 4 = 4 ∨ (0x400 ≤ a.toNat ∧ a.toNat < 0x800) ∨
        (0x10000 ≤ a.toNat ∧ a.toNat < 0x10000 + s.params.bufBytes)) →
      hostWrite a w s = { s with ovr := true }) ∧
    (((0x400 ≤ a.toNat ∧ a.toNat < 0xC00) ∨ (0x1000 ≤ a.toNat ∧ a.toNat < 0x6000) ∨
        (0x10000 ≤ a.toNat ∧ a.toNat < 0x10000 + s.params.bufBytes)) →
      hostRead a s = { s with rdata := Config.freeWord s.draws, draws := s.draws + 1 })

/-- R62, R70: a read changes nothing but h_rdata and the model's count of free values; outside the windows' unspecified reads,
reading again gives the same. R60, R72: address bits [1:0] are ignored, so addresses that differ in them alone read and write
alike, at every register and in every window. -/
def Obligations.ReadsHaveNoSideEffect : Prop :=
  (∀ (s : State) (a : PortAddr),
    (∃ r k, hostRead a s = { s with rdata := r, draws := k }) ∧
    ((hostRead a s).draws = s.draws → hostRead a (hostRead a s) = hostRead a s)) ∧
  (∀ (s : State) (a b : PortAddr) (w : Word), a.extractLsb' 2 15 = b.extractLsb' 2 15 →
    hostRead a s = hostRead b s ∧ hostWrite a w s = hostWrite b w s)

/-- R63: the FREQ window. When Idle, the word at 0x400 + 4s reads FREQ[s], and a write sets FREQ[s] and nothing else. -/
def Obligations.FreqWindowReadsAndWrites : Prop :=
  ∀ (s : State) (v : Symbol) (w : Word) (a : PortAddr), a.toNat = 0x400 + 4 * v.toNat → s.isBusy = false →
    hostRead a s = { s with rdata := freqAt s.freq v } ∧
    ∃ f, hostWrite a w s = { s with freq := f } ∧ ∀ u, freqAt f u = if u = v then w else freqAt s.freq u

/-- R64: the HEAP window when Idle: entries below HEAP_SIZE read zero-extended, entries from HEAP_SIZE on read a free value. -/
def Obligations.HeapWindowReads : Prop :=
  ∀ (s : State) (i : Nat) (a : PortAddr), i < 256 → a.toNat = 0x800 + 4 * i → s.isBusy = false →
    (i < s.tree.heapSize.toNat → hostRead a s = { s with rdata := (s.tree.heapAt i).setWidth 32 }) ∧
    (s.tree.heapSize.toNat ≤ i →
      hostRead a s = { s with rdata := Config.freeWord s.draws, draws := s.draws + 1 })

/-- R65: the NODE window when Idle, word by word and field by field; entry 511 reads 0. -/
def Obligations.NodeWindowReads : Prop :=
  ∀ (s : State) (n : NodeIdx) (lo hi : PortAddr), lo.toNat = 0x1000 + 8 * n.toNat → hi.toNat = 0x1000 + 8 * n.toNat + 4 →
    s.isBusy = false →
    ∃ x y : Word, hostRead lo s = { s with rdata := x } ∧ hostRead hi s = { s with rdata := y } ∧
      x = (s.tree.nodeAt n).weight.extractLsb' 0 32 ∧
      y.getLsbD 31 = (s.tree.nodeAt n).valid ∧ y.getLsbD 30 = (s.tree.nodeAt n).leaf ∧ y.extractLsb' 26 4 = 0 ∧
      y.extractLsb' 17 9 = (if (s.tree.nodeAt n).leaf then 0 else (s.tree.nodeAt n).right) ∧
      y.extractLsb' 8 9 = (if (s.tree.nodeAt n).leaf then 0 else (s.tree.nodeAt n).left) ∧
      y.extractLsb' 0 8 = (s.tree.nodeAt n).weight.extractLsb' 32 8 ∧
      (n = 511 → x = 0 ∧ y = 0)

/-- R66: the CT window when Idle: CT_LEN in word 0, code bit k at bit 31 - (k mod 32) of word 1 + k div 32, 0 from CT_LEN on
and in words 9 to 15. -/
def Obligations.CtWindowReads : Prop :=
  ∀ (s : State) (v : Symbol) (j : Nat) (a : PortAddr), j < 16 → a.toNat = 0x2000 + 64 * v.toNat + 4 * j →
    s.isBusy = false → s.CodesFit →
    ∃ x : Word, hostRead a s = { s with rdata := x } ∧
      (j = 0 → x.toNat = (codeAt s.ct v).length) ∧
      (1 ≤ j → j ≤ 8 → ∀ k, k < 32 →
        x.getLsbD (31 - k) =
          if 32 * (j - 1) + k < (codeAt s.ct v).length then (codeAt s.ct v).getD (32 * (j - 1) + k) false else false) ∧
      (9 ≤ j → x = 0)

/-- R67: the BUF window when Idle: byte BUF[4m + j] in bits [8j + 7 : 8j] of the word at 0x10000 + 4m, and a write sets those
four bytes and no other. -/
def Obligations.BufWindowLanes : Prop :=
  ∀ (s : State) (m : Nat) (w : Word) (a : PortAddr), a.toNat = 0x10000 + 4 * m → 4 * m < s.params.bufBytes →
    s.isBusy = false →
    (∃ x : Word, hostRead a s = { s with rdata := x } ∧
      ∀ j, j < 4 → x.extractLsb' (8 * j) 8 = s.bufByte (4 * m + j)) ∧
    (∃ b : Memory, hostWrite a w s = { s with buf := b } ∧
      (∀ j, j < 4 → (hostWrite a w s).bufByte (4 * m + j) = w.extractLsb' (8 * j) 8) ∧
      ∀ x, ¬ (4 * m ≤ x ∧ x < 4 * m + 4) → (hostWrite a w s).bufByte x = s.bufByte x)

/-! ### Invariants -/

/-- The state after reset meets every invariant. -/
def Obligations.ResetMeetsTheInvariants : Prop := State.reset.Inv

/-- R45: every step keeps BUF's memory canonical and inside BUF_BYTES. -/
def Obligations.StepKeepsTheMemoryForm : Prop := ∀ s t, s.MemoryOk → step s = .next t → t.MemoryOk

/-- R7, R44, R160: every step keeps every code within 255 bits. -/
def Obligations.StepKeepsCodesWithinTheirWidth : Prop := ∀ s t, s.CodesFit → step s = .next t → t.CodesFit

/-- R24, R44: every step keeps the meaning of CODES_VALID: when it is 1 the tree is complete and CT holds its codes. -/
def Obligations.StepKeepsCodesCurrent : Prop := ∀ s t, s.CodesCurrent → step s = .next t → t.CodesCurrent

/-- R43, R133, R135: every step keeps the counters in agreement, the heap in order and the arena a forest. -/
def Obligations.StepKeepsTheTree : Prop := ∀ s t : State, s.tree.Ok → step s = .next t → t.tree.Ok

/-- In a state whose tree is sound no step faults or is refused: commands always complete (R220, R245). -/
def Obligations.SoundStatesNeverStop : Prop := ∀ s : State, s.tree.Ok → Runs (step s)
end

