-- ==== Sys2Proof/Laws/Table.lean ====
section
/-! SUPPORT. The laws of the tables (FREQ, HEAP, NODE, CT) and of the bit order. -/

namespace Sys2Proof

theorem tabulateList_getElem {α : Type} (f : Nat → α) (n k i : Nat) (h : i < (tabulateList f n k).length) :
    (tabulateList f n k)[i] = f (k + i) := by
  induction n generalizing k i with
  | zero => simp [tabulateList] at h
  | succ n ih =>
    cases i with
    | zero => rfl
    | succ i =>
      simp only [tabulateList, List.getElem_cons_succ]
      rw [ih]; congr 1; omega

@[simp] theorem tabulate_getElem {α : Type} (n : Nat) (f : Nat → α) (i : Nat) (h : i < n) : (tabulate n f)[i] = f i := by
  simp [tabulate, tabulateList_getElem]

theorem tabulate_getElem? {α : Type} (n : Nat) (f : Nat → α) (i : Nat) :
    (tabulate n f)[i]? = if i < n then some (f i) else none := by
  split
  · rename_i h; rw [Vector.getElem?_eq_getElem h, tabulate_getElem]
  · rename_i h; exact Vector.getElem?_eq_none (by omega)

theorem setEntry_getElem? {α : Type} {n : Nat} (v : Vector α n) (i : Nat) (x : α) (j : Nat) :
    (setEntry v i x)[j]? = if i = j ∧ j < n then some x else v[j]? := by
  unfold setEntry
  split
  · rename_i h
    rw [Vector.getElem?_set]
    by_cases hij : i = j
    · subst hij; simp [h]
    · simp [hij]
  · rename_i h
    rw [if_neg (by omega)]

theorem mem_symbols (v : Symbol) : v ∈ symbols := by
  have h : v.toNat < (tabulateList (BitVec.ofNat 8) 256 0).length := by
    rw [tabulateList_length]; exact v.isLt
  have := List.getElem_mem h
  rw [tabulateList_getElem] at this
  simpa [symbols] using this

theorem symbols_nodup : symbols.Nodup := by decide +kernel

namespace Machine

@[simp] theorem freqAt_tabulate (f : Nat → Word) (v : Symbol) : freqAt (tabulate 256 f) v = f v.toNat := by
  simp [freqAt]

@[simp] theorem codeAt_tabulate (f : Nat → Bits) (v : Symbol) : codeAt (tabulate 256 f) v = f v.toNat := by
  simp [codeAt]

theorem codeAt_setCode (ct : Vector Bits 256) (v w : Symbol) (p : Bits) :
    codeAt (setCode ct v p) w = if w = v then p else codeAt ct w := by
  simp only [codeAt, setCode, Vector.getElem_set]
  by_cases h : v = w
  · subst h; simp
  · rw [if_neg (by intro e; exact h (BitVec.eq_of_toNat_eq e)), if_neg (fun e => h e.symm)]

theorem TreeMem.nodeAt_setNode (t : TreeMem) (n m : NodeIdx) (x : Node) :
    (t.setNode n x).nodeAt m = if n = m ∧ m.toNat < 511 then x else t.nodeAt m := by
  simp only [TreeMem.nodeAt, TreeMem.setNode, setEntry_getElem?]
  by_cases h : n = m
  · subst h; by_cases h2 : n.toNat < 511 <;> simp [h2]
  · rw [if_neg (by rintro ⟨e, _⟩; exact h (BitVec.eq_of_toNat_eq e)), if_neg (by tauto)]

theorem TreeMem.heapAt_setHeap (t : TreeMem) (i j : Nat) (n : NodeIdx) :
    (t.setHeap i n).heapAt j = if i = j ∧ j < 256 then n else t.heapAt j := by
  simp only [TreeMem.heapAt, TreeMem.setHeap, setEntry_getElem?]
  split <;> rfl

@[simp] theorem TreeMem.nodeAt_setHeap (t : TreeMem) (i : Nat) (n m : NodeIdx) : (t.setHeap i n).nodeAt m = t.nodeAt m := rfl

@[simp] theorem TreeMem.heapAt_setNode (t : TreeMem) (n : NodeIdx) (x : Node) (i : Nat) :
    (t.setNode n x).heapAt i = t.heapAt i := rfl

@[simp] theorem TreeMem.nodeAt_setSize (t : TreeMem) (k : BitVec 9) (n : NodeIdx) : (t.setSize k).nodeAt n = t.nodeAt n :=
  rfl

@[simp] theorem TreeMem.heapAt_setSize (t : TreeMem) (k : BitVec 9) (i : Nat) : (t.setSize k).heapAt i = t.heapAt i := rfl

@[simp] theorem TreeMem.heapSize_setSize (t : TreeMem) (k : BitVec 9) : (t.setSize k).heapSize = k := rfl

@[simp] theorem TreeMem.heapSize_setHeap (t : TreeMem) (i : Nat) (n : NodeIdx) : (t.setHeap i n).heapSize = t.heapSize :=
  rfl

@[simp] theorem TreeMem.heapSize_swapHeap (t : TreeMem) (i j : Nat) : (t.swapHeap i j).heapSize = t.heapSize := rfl

/-- The swap of two heap entries, entry by entry. -/
theorem TreeMem.heapAt_swapHeap (t : TreeMem) {i j : Nat} (hi : i < 256) (hj : j < 256) (k : Nat) :
    (t.swapHeap i j).heapAt k = if k = i then t.heapAt j else if k = j then t.heapAt i else t.heapAt k := by
  simp only [TreeMem.swapHeap, TreeMem.heapAt_setHeap]
  by_cases h1 : k = i
  · subst h1
    by_cases h2 : j = k
    · subst h2; simp
    · simp [h2, hi]
  · by_cases h2 : k = j
    · subst h2; simp [hj, h1]
    · simp [h1, h2, Ne.symm h1, Ne.symm h2]

/-- Bit `k` of `msbFirst n f`, counted from the most significant, is `f k` (R71). -/
theorem msbFirst_getLsbD (n : Nat) (f : Nat → Bool) (k : Nat) (h : k < n) :
    (msbFirst n f).getLsbD (n - 1 - k) = f k := by
  induction n generalizing f k with
  | zero => omega
  | succ n ih =>
    simp only [msbFirst, BitVec.getLsbD_cons]
    cases k with
    | zero => simp
    | succ k =>
      rw [if_neg (by omega), ← ih (fun k => f (k + 1)) k (by omega)]
      congr 1; omega

end Machine

end Sys2Proof
end

