-- ==== Sys2Proof/Laws/Heap.lean ====
section
/-! SUPPORT. What the heap primitives do (41_tree.md R130 to R133): what they leave alone, that they rearrange the queue,
that they keep heap order, and that their loops are the spec's. -/

namespace Sys2Proof.Machine

/-! ### The priority order (R130) -/

theorem TreeMem.less_iff (t : TreeMem) (a b : NodeIdx) :
    t.less a b = true ↔
      (t.nodeAt a).weight.toNat < (t.nodeAt b).weight.toNat ∨
        ((t.nodeAt a).weight.toNat = (t.nodeAt b).weight.toNat ∧ a.toNat < b.toNat) := by
  simp [TreeMem.less, BitVec.lt_def, BitVec.toNat_eq]

theorem TreeMem.less_irrefl (t : TreeMem) (a : NodeIdx) : ¬ t.less a a = true := by
  rw [less_iff]; omega

theorem TreeMem.less_trans {t : TreeMem} {a b c : NodeIdx} (h : t.less a b = true) (g : t.less b c = true) :
    t.less a c = true := by
  rw [less_iff] at *; omega

theorem TreeMem.less_asymm {t : TreeMem} {a b : NodeIdx} (h : t.less a b = true) : ¬ t.less b a = true := by
  rw [less_iff] at *; omega

/-- The order is total: two different nodes compare one way or the other (R130). -/
theorem TreeMem.less_total {t : TreeMem} {a b : NodeIdx} (h : a ≠ b) (g : ¬ t.less a b = true) : t.less b a = true := by
  have : a.toNat ≠ b.toNat := fun e => h (BitVec.eq_of_toNat_eq e)
  rw [less_iff] at *; omega

/-- The order reads NODE alone. -/
theorem TreeMem.less_congr {t u : TreeMem} (h : u.node = t.node) (a b : NodeIdx) : u.less a b = t.less a b := by
  simp only [TreeMem.less, TreeMem.nodeAt, h]; rfl

/-! ### What the primitives leave alone -/

theorem TreeMem.siftUp_frame (fuel : Nat) (t : TreeMem) (i : Nat) :
    t.siftUp fuel i = { t with heap := (t.siftUp fuel i).heap } := by
  induction fuel generalizing t i with
  | zero => rfl
  | succ fuel ih =>
    rw [TreeMem.siftUp]
    split
    · rfl
    · split
      · rw [ih]; rfl
      · rfl

theorem TreeMem.siftDown_frame (fuel : Nat) (t : TreeMem) (i : Nat) :
    t.siftDown fuel i = { t with heap := (t.siftDown fuel i).heap } := by
  induction fuel generalizing t i with
  | zero => rfl
  | succ fuel ih =>
    rw [TreeMem.siftDown]
    split
    · rfl
    · split
      · rw [ih]; rfl
      · rfl

/-- heap_insert writes HEAP and HEAP_SIZE alone (R131). -/
theorem TreeMem.heapInsert_frame (t : TreeMem) (n : NodeIdx) :
    t.heapInsert n = { t with heap := (t.heapInsert n).heap, heapSize := t.heapSize + 1 } := by
  rw [TreeMem.heapInsert, TreeMem.siftUp_frame]; rfl

/-- heap_extract writes HEAP and HEAP_SIZE alone (R132). -/
theorem TreeMem.heapRest_frame (t : TreeMem) :
    t.heapRest = { t with heap := t.heapRest.heap, heapSize := t.heapSize - 1 } := by
  unfold TreeMem.heapRest
  split
  · rfl
  · rw [TreeMem.siftDown_frame]; rfl

@[simp] theorem TreeMem.heapInsert_node (t : TreeMem) (n : NodeIdx) : (t.heapInsert n).node = t.node := by
  rw [heapInsert_frame]
@[simp] theorem TreeMem.heapInsert_heapSize (t : TreeMem) (n : NodeIdx) : (t.heapInsert n).heapSize = t.heapSize + 1 := by
  rw [heapInsert_frame]
@[simp] theorem TreeMem.heapInsert_nleaf (t : TreeMem) (n : NodeIdx) : (t.heapInsert n).nleaf = t.nleaf := by
  rw [heapInsert_frame]
@[simp] theorem TreeMem.heapInsert_nint (t : TreeMem) (n : NodeIdx) : (t.heapInsert n).nint = t.nint := by
  rw [heapInsert_frame]
@[simp] theorem TreeMem.heapInsert_state (t : TreeMem) (n : NodeIdx) : (t.heapInsert n).state = t.state := by
  rw [heapInsert_frame]
@[simp] theorem TreeMem.heapInsert_root (t : TreeMem) (n : NodeIdx) : (t.heapInsert n).root = t.root := by
  rw [heapInsert_frame]
@[simp] theorem TreeMem.heapRest_node (t : TreeMem) : t.heapRest.node = t.node := by rw [heapRest_frame]
@[simp] theorem TreeMem.heapRest_heapSize (t : TreeMem) : t.heapRest.heapSize = t.heapSize - 1 := by rw [heapRest_frame]
@[simp] theorem TreeMem.heapRest_nleaf (t : TreeMem) : t.heapRest.nleaf = t.nleaf := by rw [heapRest_frame]
@[simp] theorem TreeMem.heapRest_nint (t : TreeMem) : t.heapRest.nint = t.nint := by rw [heapRest_frame]
@[simp] theorem TreeMem.heapRest_state (t : TreeMem) : t.heapRest.state = t.state := by rw [heapRest_frame]
@[simp] theorem TreeMem.heapRest_root (t : TreeMem) : t.heapRest.root = t.root := by rw [heapRest_frame]

/-! ### The queue is rearranged -/

/-- Exchanging two positions of a listing of `0 .. n - 1` rearranges it. -/
theorem map_swap_perm {α : Type} (f g : Nat → α) (n i j : Nat) (hi : i < n) (hj : j < n)
    (h : ∀ k, g k = if k = i then f j else if k = j then f i else f k) :
    ((List.range n).map g).Perm ((List.range n).map f) := by
  have hg : g = f ∘ Equiv.swap i j := by
    funext k
    rw [h k, Function.comp, Equiv.swap_apply_def]
    split
    · rfl
    · split <;> rfl
  have hp : ((List.range n).map (Equiv.swap i j)).Perm (List.range n) := by
    refine (List.perm_ext_iff_of_nodup (List.nodup_range.map (Equiv.injective _)) List.nodup_range).mpr fun k => ?_
    simp only [List.mem_map, List.mem_range]
    constructor
    · rintro ⟨m, hm, rfl⟩
      rw [Equiv.swap_apply_def]; split
      · exact hj
      · split
        · exact hi
        · exact hm
    · intro hk
      refine ⟨Equiv.swap i j k, ?_, Equiv.swap_apply_self i j k⟩
      rw [Equiv.swap_apply_def]; split
      · exact hj
      · split
        · exact hi
        · exact hk
  rw [hg, ← List.map_map]
  exact hp.map f

theorem TreeMem.queue_swapHeap (t : TreeMem) {i j : Nat} (h : t.heapSize.toNat ≤ 256) (hi : i < t.heapSize.toNat)
    (hj : j < t.heapSize.toNat) : (t.swapHeap i j).queue.Perm t.queue :=
  map_swap_perm t.heapAt (t.swapHeap i j).heapAt _ i j hi hj
    (fun k => t.heapAt_swapHeap (by omega) (by omega) k)

theorem TreeMem.queue_siftUp (fuel : Nat) (t : TreeMem) (i : Nat) (h : t.heapSize.toNat ≤ 256)
    (hi : i < t.heapSize.toNat) : (t.siftUp fuel i).queue.Perm t.queue := by
  induction fuel generalizing t i with
  | zero => exact .refl _
  | succ fuel ih =>
    rw [TreeMem.siftUp]
    split
    · exact .refl _
    · split
      · exact (ih (t.swapHeap i ((i - 1) / 2)) _ h (by show _ < t.heapSize.toNat; omega)).trans
          (t.queue_swapHeap h hi (by omega))
      · exact .refl _

theorem TreeMem.lesserChild_cases (t : TreeMem) (i : Nat) (h : 2 * i + 1 < t.heapSize.toNat) :
    (t.lesserChild i = 2 * i + 1 ∨ t.lesserChild i = 2 * i + 2) ∧ t.lesserChild i < t.heapSize.toNat := by
  unfold TreeMem.lesserChild
  split
  · rename_i hc; simp at hc; omega
  · omega

theorem TreeMem.queue_siftDown (fuel : Nat) (t : TreeMem) (i : Nat) (h : t.heapSize.toNat ≤ 256)
    (hi : i < t.heapSize.toNat) : (t.siftDown fuel i).queue.Perm t.queue := by
  induction fuel generalizing t i with
  | zero => exact .refl _
  | succ fuel ih =>
    rw [TreeMem.siftDown]
    split
    · exact .refl _
    · rename_i hc
      obtain ⟨-, hl⟩ := t.lesserChild_cases i (by omega)
      split
      · exact (ih (t.swapHeap (t.lesserChild i) i) _ h hl).trans (t.queue_swapHeap h hl hi)
      · exact .refl _

/-- The first line of heap_insert puts n at the end of the queue (R131). -/
theorem TreeMem.queue_push (t : TreeMem) (n : NodeIdx) (h : t.heapSize.toNat < 256) :
    ((t.setHeap t.heapSize.toNat n).setSize (t.heapSize + 1)).queue = t.queue ++ [n] := by
  have hs : (t.heapSize + 1).toNat = t.heapSize.toNat + 1 := by rw [BitVec.toNat_add]; simp; omega
  simp only [TreeMem.queue, heapSize_setSize, hs, List.range_succ, List.map_append, List.map_cons, List.map_nil,
    heapAt_setSize, heapAt_setHeap]
  congr 1
  · refine List.map_congr_left fun k hk => ?_
    have := List.mem_range.mp hk
    rw [heapAt_setSize, heapAt_setHeap, if_neg (by omega)]
  · simp [h]

/-- heap_insert(n): the queue holds n beside what it held (R131). -/
theorem TreeMem.queue_heapInsert (t : TreeMem) (n : NodeIdx) (h : t.heapSize.toNat < 256) :
    (t.heapInsert n).queue.Perm (n :: t.queue) := by
  have hs : (t.heapSize + 1).toNat = t.heapSize.toNat + 1 := by rw [BitVec.toNat_add]; simp; omega
  have hq := t.queue_push n h
  refine (TreeMem.queue_siftUp _ _ _ (by simp only [heapSize_setSize]; omega) (by simp only [heapSize_setSize]; omega)).trans ?_
  rw [hq]
  exact List.perm_append_singleton n t.queue

/-- heap_extract(): HEAP[0] leaves the queue and the rest stays (R132). -/
theorem TreeMem.queue_heapRest (t : TreeMem) (h : 1 ≤ t.heapSize.toNat) (h2 : t.heapSize.toNat ≤ 256) :
    t.queue.Perm (t.heapAt 0 :: t.heapRest.queue) := by
  have hs : (t.heapSize - 1).toNat = t.heapSize.toNat - 1 := by
    rw [BitVec.toNat_sub]; simp; omega
  unfold TreeMem.heapRest
  split
  · rename_i h0
    have h1 : t.heapSize.toNat = 1 := by
      have := congrArg BitVec.toNat h0
      rw [hs] at this; simp at this; omega
    simp [TreeMem.queue, h1]
  · rename_i h0
    have hne : (t.heapSize - 1).toNat ≠ 0 := fun e => h0 (BitVec.eq_of_toNat_eq (by simpa using e))
    refine List.Perm.trans ?_ (List.Perm.cons _ (TreeMem.queue_siftDown _ _ _ (by simp only [heapSize_setSize]; omega)
      (by simp only [heapSize_setSize]; omega)).symm)
    obtain ⟨m, hm⟩ : ∃ m, (t.heapSize - 1).toNat = m + 1 := ⟨(t.heapSize - 1).toNat - 1, by omega⟩
    have hn : t.heapSize.toNat = m + 1 + 1 := by omega
    have e1 : t.queue = t.heapAt 0 :: ((List.range m).map (fun k => t.heapAt (k + 1)) ++ [t.heapAt (m + 1)]) := by
      rw [TreeMem.queue, hn, List.range_succ_eq_map, List.map_cons, List.map_map, List.range_succ, List.map_append]
      rfl
    have e2 : ((t.setHeap 0 (t.heapAt (t.heapSize - 1).toNat)).setSize (t.heapSize - 1)).queue =
        t.heapAt (m + 1) :: (List.range m).map (fun k => t.heapAt (k + 1)) := by
      rw [TreeMem.queue, heapSize_setSize, hm, List.range_succ_eq_map, List.map_cons, List.map_map]
      simp only [heapAt_setSize, heapAt_setHeap, Function.comp_def]
      simp
    rw [e1, e2]
    exact List.Perm.cons _ (List.perm_append_singleton _ _)

/-! ### Heap order (R133) -/

theorem TreeMem.heapAt_ne {t : TreeMem} (h : t.queue.Nodup) {j k : Nat} (hj : j < t.heapSize.toNat)
    (hk : k < t.heapSize.toNat) (hne : j ≠ k) : t.heapAt j ≠ t.heapAt k := fun e => by
  have := List.inj_on_of_nodup_map h (List.mem_range.mpr hj) (List.mem_range.mpr hk) e
  exact hne this

/-- Heap order everywhere but between i and its parent, i's children being no less than that parent. -/
structure TreeMem.UpOrder (t : TreeMem) (i : Nat) : Prop where
  other : ∀ j, 0 < j → j < t.heapSize.toNat → j ≠ i → t.less (t.heapAt ((j - 1) / 2)) (t.heapAt j) = true
  skip : ∀ j, 0 < j → j < t.heapSize.toNat → (j - 1) / 2 = i → 0 < i →
    t.less (t.heapAt ((i - 1) / 2)) (t.heapAt j) = true

theorem TreeMem.order_siftUp (fuel : Nat) (t : TreeMem) (i : Nat) (hf : i ≤ fuel) (h : t.heapSize.toNat ≤ 256)
    (hi : i < t.heapSize.toNat) (hd : t.queue.Nodup) (hu : t.UpOrder i) : (t.siftUp fuel i).HeapOrder := by
  induction fuel generalizing t i with
  | zero => exact fun j hj hjs => hu.other j hj hjs (by omega)
  | succ fuel ih =>
    rw [TreeMem.siftUp]
    split
    · exact fun j hj hjs => hu.other j hj hjs (by omega)
    · rename_i hi0
      have hp : (i - 1) / 2 < i := by omega
      have sw := t.heapAt_swapHeap (i := i) (j := (i - 1) / 2) (by omega) (by omega)
      split
      · rename_i hl
        have hq := t.queue_swapHeap h hi (j := (i - 1) / 2) (by omega)
        refine ih (t.swapHeap i ((i - 1) / 2)) _ (by omega) h (by show _ < t.heapSize.toNat; omega)
          (hq.nodup_iff.mpr hd) ⟨fun j hj hjs hne => ?_, fun j hj hjs hpar hp0 => ?_⟩
        · show t.less _ _ = true
          rw [sw, sw]
          by_cases hji : j = i
          · subst hji; rw [if_neg (by omega), if_pos rfl, if_pos rfl]; exact hl
          · by_cases hpi : (j - 1) / 2 = i
            · rw [if_pos hpi, if_neg hji, if_neg hne]
              exact hu.skip j hj hjs hpi (by omega)
            · by_cases hpp : (j - 1) / 2 = (i - 1) / 2
              · rw [if_neg hpi, if_pos hpp, if_neg hji, if_neg hne]
                exact TreeMem.less_trans hl (hpp ▸ hu.other j hj hjs hji)
              · rw [if_neg hpi, if_neg hpp, if_neg hji, if_neg hne]
                exact hu.other j hj hjs hji
        · show t.less _ _ = true
          have hpp := hu.other ((i - 1) / 2) hp0 (by omega) (by omega)
          rw [sw, sw, if_neg (by omega), if_neg (by omega)]
          by_cases hji : j = i
          · rw [if_pos hji]; exact hpp
          · rw [if_neg hji, if_neg (by omega)]
            exact TreeMem.less_trans hpp (hpar ▸ hu.other j hj hjs hji)
      · rename_i hl
        intro j hj hjs
        by_cases hji : j = i
        · subst hji
          exact TreeMem.less_total (t.heapAt_ne hd hjs (by omega) (by omega)) hl
        · exact hu.other j hj hjs hji

/-- Heap order everywhere but between i and its children, those being no less than i's parent. -/
structure TreeMem.DownOrder (t : TreeMem) (i : Nat) : Prop where
  other : ∀ j, 0 < j → j < t.heapSize.toNat → (j - 1) / 2 ≠ i → t.less (t.heapAt ((j - 1) / 2)) (t.heapAt j) = true
  skip : ∀ j, 0 < j → j < t.heapSize.toNat → (j - 1) / 2 = i → 0 < i →
    t.less (t.heapAt ((i - 1) / 2)) (t.heapAt j) = true

/-- The lesser child is less than the other one (R132). -/
theorem TreeMem.lesserChild_least {t : TreeMem} (hd : t.queue.Nodup) {i j : Nat} (hj : 0 < j)
    (hjs : j < t.heapSize.toNat) (hpar : (j - 1) / 2 = i) (hne : j ≠ t.lesserChild i) :
    t.less (t.heapAt (t.lesserChild i)) (t.heapAt j) = true := by
  by_cases hc : 2 * i + 2 < t.heapSize.toNat ∧ t.less (t.heapAt (2 * i + 2)) (t.heapAt (2 * i + 1)) = true
  · have hl : t.lesserChild i = 2 * i + 2 := by simp [TreeMem.lesserChild, hc]
    rw [hl] at hne ⊢
    rw [show j = 2 * i + 1 by omega]
    exact hc.2
  · have hl : t.lesserChild i = 2 * i + 1 := by
      unfold TreeMem.lesserChild
      rw [if_neg (by simpa using hc)]
    rw [hl] at hne ⊢
    have hj2 : j = 2 * i + 2 := by omega
    subst hj2
    exact TreeMem.less_total (t.heapAt_ne hd hjs (by omega) (by omega)) (fun e => hc ⟨hjs, e⟩)

theorem TreeMem.order_siftDown (fuel : Nat) (t : TreeMem) (i : Nat) (hf : t.heapSize.toNat ≤ fuel + i)
    (h : t.heapSize.toNat ≤ 256) (hi : i < t.heapSize.toNat) (hd : t.queue.Nodup) (hu : t.DownOrder i) :
    (t.siftDown fuel i).HeapOrder := by
  induction fuel generalizing t i with
  | zero => omega
  | succ fuel ih =>
    rw [TreeMem.siftDown]
    split
    · exact fun j hj hjs => hu.other j hj hjs (by omega)
    · rename_i hc
      obtain ⟨hcc, hl⟩ := t.lesserChild_cases i (by omega)
      have sw := t.heapAt_swapHeap (i := t.lesserChild i) (j := i) (by omega) (by omega)
      split
      · rename_i hlt
        have hq := t.queue_swapHeap h hl hi
        refine ih (t.swapHeap (t.lesserChild i) i) _ (by show t.heapSize.toNat ≤ _; omega) h hl
          (hq.nodup_iff.mpr hd) ⟨fun j hj hjs hne => ?_, fun j hj hjs hpar _ => ?_⟩
        · show t.less _ _ = true
          rw [sw, sw, if_neg hne]
          by_cases hjc : j = t.lesserChild i
          · rw [if_pos (by omega), if_pos hjc]; exact hlt
          · rw [if_neg hjc]
            by_cases hpi : (j - 1) / 2 = i
            · rw [if_pos hpi, if_neg (by omega)]
              exact TreeMem.lesserChild_least hd hj hjs hpi hjc
            · rw [if_neg hpi]
              by_cases hji : j = i
              · rw [if_pos hji, hji]
                exact hu.skip _ (by omega) hl (by omega) (by omega)
              · rw [if_neg hji]; exact hu.other j hj hjs hpi
        · show t.less _ _ = true
          rw [sw, sw, if_neg (by omega), if_pos (by omega), if_neg (by omega), if_neg (by omega)]
          exact hpar ▸ hu.other j hj hjs (by omega)
      · rename_i hlt
        have hic := TreeMem.less_total (t.heapAt_ne hd hl hi (by omega)) hlt
        intro j hj hjs
        by_cases hpi : (j - 1) / 2 = i
        · by_cases hjc : j = t.lesserChild i
          · rw [hpi, hjc]; exact hic
          · rw [hpi]; exact TreeMem.less_trans hic (TreeMem.lesserChild_least hd hj hjs hpi hjc)
        · exact hu.other j hj hjs hpi

/-- heap_insert(n) keeps heap order when n is not in the queue (R131, R133). -/
theorem TreeMem.order_heapInsert (t : TreeMem) (n : NodeIdx) (h : t.heapSize.toNat < 256) (ho : t.HeapOrder)
    (hd : t.queue.Nodup) (hn : n ∉ t.queue) : (t.heapInsert n).HeapOrder := by
  have hs : (t.heapSize + 1).toNat = t.heapSize.toNat + 1 := by rw [BitVec.toNat_add]; simp; omega
  have hq := t.queue_push n h
  refine TreeMem.order_siftUp _ _ _ (Nat.le_refl _) (by simp only [heapSize_setSize]; omega)
    (by simp only [heapSize_setSize]; omega) ?_ ⟨fun j hj hjs hne => ?_, fun j hj hjs hpar hi => ?_⟩
  · rw [hq]
    exact List.nodup_append.mpr ⟨hd, by simp, by rintro a ha b hb rfl; simp at hb; exact hn (hb ▸ ha)⟩
  · rw [heapSize_setSize, hs] at hjs
    show t.less _ _ = true
    simp only [heapAt_setSize, heapAt_setHeap]
    rw [if_neg (by omega), if_neg (by omega)]
    exact ho j hj (by omega)
  · rw [heapSize_setSize, hs] at hjs
    omega

/-- heap_extract() keeps heap order (R132, R133). -/
theorem TreeMem.order_heapRest (t : TreeMem) (h : 1 ≤ t.heapSize.toNat) (h2 : t.heapSize.toNat ≤ 256) (ho : t.HeapOrder)
    (hd : t.queue.Nodup) : t.heapRest.HeapOrder := by
  have hs : (t.heapSize - 1).toNat = t.heapSize.toNat - 1 := by
    rw [BitVec.toNat_sub]; simp; omega
  unfold TreeMem.heapRest
  split
  · rename_i h0
    intro j hj hjs
    rw [heapSize_setSize, h0] at hjs
    simp at hjs
  · rename_i h0
    have hne : (t.heapSize - 1).toNat ≠ 0 := fun e => h0 (BitVec.eq_of_toNat_eq (by simpa using e))
    have key : ∀ k, ((t.setHeap 0 (t.heapAt (t.heapSize - 1).toNat)).setSize (t.heapSize - 1)).heapAt k =
        if k = 0 then t.heapAt (t.heapSize - 1).toNat else t.heapAt k := by
      intro k
      rw [heapAt_setSize, heapAt_setHeap]
      by_cases hk : k = 0
      · simp [hk]
      · rw [if_neg (by omega), if_neg hk]
    refine TreeMem.order_siftDown _ _ _ (by simp) (by simp only [heapSize_setSize]; omega)
      (by simp only [heapSize_setSize]; omega) ?_ ⟨fun j hj hjs hne => ?_, fun j hj hjs hpar hi => by omega⟩
    · rw [TreeMem.queue, heapSize_setSize]
      refine List.Nodup.map_on ?_ List.nodup_range
      intro a ha b hb e
      have ha := List.mem_range.mp ha
      have hb := List.mem_range.mp hb
      rw [key, key] at e
      by_contra hab
      split at e
      · rw [if_neg (by omega)] at e
        exact t.heapAt_ne hd (by omega) (by omega) (by omega) e
      · split at e
        · exact t.heapAt_ne hd (by omega) (by omega) (by omega) e
        · exact t.heapAt_ne hd (by omega) (by omega) hab e
    · rw [heapSize_setSize] at hjs
      show t.less _ _ = true
      rw [key, key, if_neg hne, if_neg (by omega)]
      exact ho j hj (by omega)

/-- HEAP[0] is the least node of the queue (R133). -/
theorem TreeMem.heapAt_zero_least {t : TreeMem} (ho : t.HeapOrder) (j : Nat) (hj : 0 < j) (hjs : j < t.heapSize.toNat) :
    t.less (t.heapAt 0) (t.heapAt j) = true := by
  induction j using Nat.strong_induction_on with
  | _ j ih =>
    by_cases hp : (j - 1) / 2 = 0
    · exact hp ▸ ho j hj hjs
    · exact TreeMem.less_trans (ih ((j - 1) / 2) (by omega) (by omega) (by omega)) (ho j hj hjs)

/-! ### The exact arrangement (R131, R132) -/

@[simp] theorem TreeMem.length_queue (t : TreeMem) : t.queue.length = t.heapSize.toNat := by simp [TreeMem.queue]

/-- The queue lists HEAP[0 .. HEAP_SIZE - 1]. -/
theorem TreeMem.getD_queue (t : TreeMem) {k : Nat} (h : k < t.heapSize.toNat) : t.queue.getD k 0 = t.heapAt k := by
  simp [TreeMem.queue, List.getD_eq_getElem?_getD, h]

/-- A queue whose entries are known. -/
theorem TreeMem.queue_eq_of (t : TreeMem) {l : List NodeIdx} (hl : l.length = t.heapSize.toNat)
    (h : ∀ k, k < t.heapSize.toNat → t.heapAt k = l.getD k 0) : t.queue = l := by
  refine List.ext_getElem (by simp [hl]) fun k hk _ => ?_
  have hk' : k < t.heapSize.toNat := by simpa using hk
  have := h k hk'
  rw [List.getD_eq_getElem?_getD, List.getElem?_eq_getElem (by omega)] at this
  simpa [TreeMem.queue] using this

theorem getD_set {α : Type} (l : List α) (i k : Nat) (a d : α) (h : i < l.length) :
    (l.set i a).getD k d = if k = i then a else l.getD k d := by
  rw [List.getD_eq_getElem?_getD, List.getElem?_set, List.getD_eq_getElem?_getD]
  by_cases hk : i = k
  · subst hk; rw [if_pos rfl, if_pos h, if_pos rfl]; rfl
  · rw [if_neg hk, if_neg (Ne.symm hk)]

theorem getD_dropLast {α : Type} (l : List α) (k : Nat) (d : α) (h : k < l.length - 1) :
    l.dropLast.getD k d = l.getD k d := by
  rw [List.getD_eq_getElem?_getD, List.getElem?_dropLast, if_pos h, List.getD_eq_getElem?_getD]

theorem TreeMem.queue_swapHeap_eq (t : TreeMem) {i j : Nat} (h : t.heapSize.toNat ≤ 256) (hi : i < t.heapSize.toNat)
    (hj : j < t.heapSize.toNat) : (t.swapHeap i j).queue = swapAt t.queue i j := by
  refine TreeMem.queue_eq_of _ (by rw [swapAt, List.length_set, List.length_set, TreeMem.length_queue]; rfl) fun k hk => ?_
  have hk : k < t.heapSize.toNat := hk
  rw [t.heapAt_swapHeap (by omega) (by omega) k, swapAt, getD_set _ _ _ _ _ (by simpa using hj),
    getD_set _ _ _ _ _ (by simpa using hi), t.getD_queue hi, t.getD_queue hj, t.getD_queue hk]
  by_cases h1 : k = j
  · by_cases h2 : k = i
    · subst h1; subst h2; simp
    · simp [h1, show j ≠ i from fun e => h2 (h1.trans e)]
  · simp [h1]

/-- The fuelled loop of heap_insert is the loop of R131. -/
theorem TreeMem.siftUp_sifts (fuel : Nat) (t : TreeMem) (i : Nat) (hf : i ≤ fuel) (h : t.heapSize.toNat ≤ 256)
    (hi : i < t.heapSize.toNat) : SiftsUp t.less t.queue i (t.siftUp fuel i).queue := by
  induction fuel generalizing t i with
  | zero => exact .stop _ _ (.inl (by omega))
  | succ fuel ih =>
    rw [TreeMem.siftUp]
    split
    · exact .stop _ _ (.inl ‹_›)
    · have hp : (i - 1) / 2 < t.heapSize.toNat := by omega
      split
      · rename_i hl
        refine .up _ _ _ (by omega) (by rwa [t.getD_queue hi, t.getD_queue hp]) ?_
        rw [← t.queue_swapHeap_eq h hi hp]
        exact ih (t.swapHeap i ((i - 1) / 2)) _ (by omega) h hp
      · rename_i hl
        exact .stop _ _ (.inr (by rw [t.getD_queue hi, t.getD_queue hp]; simpa using hl))

theorem TreeMem.lesserChild_is (t : TreeMem) {i : Nat} (h : 2 * i + 1 < t.heapSize.toNat) :
    IsLesserChild t.less t.queue i (t.lesserChild i) := by
  have e1 := t.getD_queue h
  refine ⟨by simpa using h, ?_⟩
  by_cases h2 : 2 * i + 2 < t.heapSize.toNat
  · have e2 := t.getD_queue h2
    simp only [TreeMem.length_queue, e1, e2, TreeMem.lesserChild]
    by_cases hl : t.less (t.heapAt (2 * i + 2)) (t.heapAt (2 * i + 1)) = true <;> simp [h2, hl]
  · simp [TreeMem.lesserChild, h2]

/-- The fuelled loop of heap_extract is the loop of R132. -/
theorem TreeMem.siftDown_sifts (fuel : Nat) (t : TreeMem) (i : Nat) (hf : t.heapSize.toNat ≤ fuel + i)
    (h : t.heapSize.toNat ≤ 256) (hi : i < t.heapSize.toNat) : SiftsDown t.less t.queue i (t.siftDown fuel i).queue := by
  induction fuel generalizing t i with
  | zero => omega
  | succ fuel ih =>
    rw [TreeMem.siftDown]
    split
    · exact .bottom _ _ (by simpa using ‹_›)
    · rename_i hc
      obtain ⟨hcc, hl⟩ := t.lesserChild_cases i (by omega)
      have hc' := t.lesserChild_is (i := i) (by omega)
      split
      · rename_i hlt
        refine .down _ _ _ _ hc' (by rwa [t.getD_queue hl, t.getD_queue hi]) ?_
        rw [← t.queue_swapHeap_eq h hl hi]
        exact ih (t.swapHeap (t.lesserChild i) i) _ (by show t.heapSize.toNat ≤ _; omega) h hl
      · rename_i hlt
        exact .stop _ _ _ hc' (by rw [t.getD_queue hl, t.getD_queue hi]; simpa using hlt)

/-- heap_insert(n) arranges the queue as R131 says. -/
theorem TreeMem.heapInsert_inserts (t : TreeMem) (n : NodeIdx) (h : t.heapSize.toNat < 256) :
    Inserts t.less t.queue n (t.heapInsert n).queue := by
  have hs : (t.heapSize + 1).toNat = t.heapSize.toNat + 1 := by rw [BitVec.toNat_add]; simp; omega
  have := TreeMem.siftUp_sifts t.heapSize.toNat ((t.setHeap t.heapSize.toNat n).setSize (t.heapSize + 1))
    t.heapSize.toNat (Nat.le_refl _) (by simp only [heapSize_setSize]; omega) (by simp only [heapSize_setSize]; omega)
  rw [t.queue_push n h] at this
  rw [Inserts, TreeMem.length_queue]
  exact this

/-- heap_extract() returns HEAP[0] and arranges the queue as R132 says. -/
theorem TreeMem.heapRest_extracts (t : TreeMem) (h : 1 ≤ t.heapSize.toNat) (h2 : t.heapSize.toNat ≤ 256) :
    Extracts t.less t.queue (t.heapAt 0) t.heapRest.queue := by
  have hs : (t.heapSize - 1).toNat = t.heapSize.toNat - 1 := by
    rw [BitVec.toNat_sub]; simp; omega
  refine ⟨?_, ?_⟩
  · rw [List.head?_eq_getElem?, List.getElem?_eq_getElem (by simp; omega)]
    simp [TreeMem.queue]
  rw [TreeMem.length_queue, t.getD_queue (by omega)]
  unfold TreeMem.heapRest
  split
  · rename_i h0
    have h1 := congrArg BitVec.toNat h0
    rw [hs] at h1
    simp at h1
    refine .inl ⟨by omega, ?_⟩
    rw [TreeMem.queue, heapSize_setSize, h0]
    rfl
  · rename_i h0
    have hne : (t.heapSize - 1).toNat ≠ 0 := fun e => h0 (BitVec.eq_of_toNat_eq (by simpa using e))
    refine .inr ⟨by omega, ?_⟩
    have := TreeMem.siftDown_sifts (t.heapSize - 1).toNat
      ((t.setHeap 0 (t.heapAt (t.heapSize - 1).toNat)).setSize (t.heapSize - 1)) 0 (by simp)
      (by simp only [heapSize_setSize]; omega) (by simp only [heapSize_setSize]; omega)
    rw [TreeMem.queue_eq_of ((t.setHeap 0 (t.heapAt (t.heapSize - 1).toNat)).setSize (t.heapSize - 1))
      (l := (t.queue.set 0 (t.heapAt (t.heapSize.toNat - 1))).dropLast)
      (by rw [List.length_dropLast, List.length_set, TreeMem.length_queue, heapSize_setSize, hs]) fun k hk => ?_] at this
    · exact this
    · have hk : k < t.heapSize.toNat - 1 := by simpa only [heapSize_setSize, hs] using hk
      rw [heapAt_setSize, heapAt_setHeap, hs, getD_dropLast _ _ _ (by simpa using hk),
        getD_set _ _ _ _ _ (by rw [TreeMem.length_queue]; omega), t.getD_queue (by omega)]
      by_cases hk0 : k = 0
      · simp [hk0]
      · rw [if_neg (fun e => hk0 e.1.symm), if_neg hk0]

end Sys2Proof.Machine
end

