-- ==== Sys2Proof/Laws/Memory.lean ====
section
/-! SUPPORT. The laws of BUF's memory: what a write leaves at every address, and that every operation keeps the canonical form. -/

namespace Sys2Proof.Machine

theorem Memory.read_write (m : Memory) (a : Nat) (b : Byte) (x : Nat) :
    (m.write a b).read x = if x = a then some b else m.read x := by
  induction m with
  | nil => simp [Memory.write, Memory.read]
  | cons c m ih =>
    obtain ⟨y, v⟩ := c
    simp only [Memory.write]
    split
    · simp only [Memory.read]
    · split
      · subst_vars; simp only [Memory.read]; split <;> rfl
      · rename_i h1 h2
        simp only [Memory.read, ih]
        by_cases hy : x = y
        · simp [hy, show y ≠ a by omega]
        · simp [hy]

/-- Every address of `m.write a b` is `a` or an address of `m`. -/
theorem Memory.mem_write {m : Memory} {a : Nat} {b : Byte} {c : Host.Cell} (h : c ∈ m.write a b) :
    c = (a, b) ∨ c ∈ m := by
  induction m with
  | nil => simpa [Memory.write] using h
  | cons d m ih =>
    obtain ⟨y, v⟩ := d
    simp only [Memory.write] at h
    split at h
    · simpa using h
    · split at h
      · rcases List.mem_cons.mp h with h | h
        · exact .inl h
        · exact .inr (List.mem_cons_of_mem _ h)
      · rcases List.mem_cons.mp h with h | h
        · exact .inr (by simp [h])
        · exact (ih h).imp id (List.mem_cons_of_mem _)

/-- A byte write keeps the canonical form. -/
theorem Memory.write_wf {m : Memory} (h : m.wf) (a : Nat) (b : Byte) : (m.write a b).wf := by
  induction m with
  | nil => simp [Memory.write, Memory.wf]
  | cons c m ih =>
    obtain ⟨y, v⟩ := c
    obtain ⟨hy, hm⟩ := List.pairwise_cons.mp h
    simp only [Memory.write]
    split
    · refine List.pairwise_cons.mpr ⟨fun d hd => ?_, h⟩
      rcases List.mem_cons.mp hd with rfl | hd
      · assumption
      · have := hy d hd; simp at this ⊢; omega
    · split
      · subst_vars; exact List.pairwise_cons.mpr ⟨fun d hd => hy d hd, hm⟩
      · refine List.pairwise_cons.mpr ⟨fun d hd => ?_, ih hm⟩
        rcases Memory.mem_write hd with rfl | hd
        · simp; omega
        · exact hy d hd

theorem Memory.write_below {m : Memory} {n : Nat} (h : m.below n) {a : Nat} (ha : a < n) (b : Byte) :
    (m.write a b).below n := fun c hc => by
  rcases Memory.mem_write hc with rfl | hc
  · exact ha
  · exact h c hc

/-- Writing consecutive bytes keeps the canonical form. -/
theorem Memory.writeList_wf {m : Memory} (h : m.wf) (a : Nat) (bs : List Byte) : (m.writeList a bs).wf := by
  induction bs generalizing m a with
  | nil => exact h
  | cons b bs ih => exact ih (Memory.write_wf h a b) (a + 1)

theorem Memory.writeList_below {m : Memory} {n : Nat} (h : m.below n) {a : Nat} {bs : List Byte}
    (ha : a + bs.length ≤ n) : (m.writeList a bs).below n := by
  induction bs generalizing m a with
  | nil => exact h
  | cons b bs ih =>
    simp only [List.length_cons] at ha
    exact ih (Memory.write_below h (by omega) b) (by omega)

/-- A byte read after a write of consecutive bytes: one of them inside their range, the old value outside. -/
theorem Memory.read_writeList (m : Memory) (a : Nat) (bs : List Byte) (x : Nat) :
    (m.writeList a bs).read x = if a ≤ x ∧ x < a + bs.length then bs[x - a]? else m.read x := by
  induction bs generalizing m a with
  | nil => simp [Memory.writeList]
  | cons b bs ih =>
    simp only [Memory.writeList, ih, Memory.read_write, List.length_cons]
    by_cases h1 : a + 1 ≤ x ∧ x < a + 1 + bs.length
    · rw [if_pos h1, if_pos (by omega), show x - a = (x - (a + 1)) + 1 by omega]
      rfl
    · rw [if_neg h1]
      by_cases h2 : x = a
      · simp [h2]
      · rw [if_neg h2, if_neg (by omega)]

/-- BUF after `writeBuf`, byte by byte. -/
theorem State.bufByte_writeBuf (s : State) (a : Nat) (bs : List Byte) (x : Nat) :
    (s.writeBuf a bs).bufByte x = if h : a ≤ x ∧ x < a + bs.length then bs[x - a]'(by omega) else s.bufByte x := by
  simp only [State.bufByte, State.writeBuf, Memory.read_writeList]
  split
  · rename_i h
    rw [List.getElem?_eq_getElem (by omega)]; rfl
  · rfl

@[simp] theorem State.bufRange_length (s : State) (a n : Nat) : (s.bufRange a n).length = n := by simp [State.bufRange]

@[simp] theorem State.bufRange_getElem (s : State) (a n i : Nat) (h : i < (s.bufRange a n).length) :
    (s.bufRange a n)[i] = s.bufByte (a + i) := by simp [State.bufRange]

/-- The memory State.reset holds is in canonical form. -/
theorem State.reset_buf_wf : State.reset.buf.wf := List.Pairwise.nil

end Sys2Proof.Machine
end

