-- ==== Sys2Proof/Laws/PerInstr.lean ====
section
/-! SUPPORT. Per-instruction statements: the family Encoding, what every command's word looks like (30_encoding.md R90, R91). -/

namespace Sys2Proof.Laws.Encoding

/-- A command is well formed, its word's ZERO field is 0 and its OPC field is the command's operation code (R90). -/
def Statement (i : Instr) : Prop :=
  i.wellFormed = true ∧ (encodeInstr i).extractLsb' 0 24 = 0 ∧ (encodeInstr i).extractLsb' 24 8 = i.opc

theorem nop : Statement .nop := by unfold Statement; decide
theorem freqClear : Statement .freqClear := by unfold Statement; decide
theorem freqCount : Statement .freqCount := by unfold Statement; decide
theorem treeInit : Statement .treeInit := by unfold Statement; decide
theorem treeStep : Statement .treeStep := by unfold Statement; decide
theorem treeBuild : Statement .treeBuild := by unfold Statement; decide
theorem codeGen : Statement .codeGen := by unfold Statement; decide
theorem encode : Statement .encode := by unfold Statement; decide
theorem decode : Statement .decode := by unfold Statement; decide

end Sys2Proof.Laws.Encoding
end

