-- ==== Sys2Proof/Laws/State.lean ====
section
/-! SUPPORT. What each named update leaves in each field of State, by rfl, so that no proof unfolds a record update. -/

namespace Sys2Proof.Machine

variable (s : State)

/-- `raise` is `finish` (R12). -/
@[simp] theorem raise_eq_finish (code : ResultCode) (info : Word) : raise code info s = finish code info s := rfl

/-! ### finish -/

@[simp] theorem finish_params (code : ResultCode) (info : Word) : (finish code info s).params = s.params := rfl
@[simp] theorem finish_doneIe (code : ResultCode) (info : Word) : (finish code info s).doneIe = s.doneIe := rfl
@[simp] theorem finish_errIe (code : ResultCode) (info : Word) : (finish code info s).errIe = s.errIe := rfl
@[simp] theorem finish_done (code : ResultCode) (info : Word) : (finish code info s).done = true := rfl
@[simp] theorem finish_errf (code : ResultCode) (info : Word) : (finish code info s).errf = (s.errf || decide (code ≠ .ok)) := rfl
@[simp] theorem finish_ovr (code : ResultCode) (info : Word) : (finish code info s).ovr = s.ovr := rfl
@[simp] theorem finish_codesValid (code : ResultCode) (info : Word) : (finish code info s).codesValid = s.codesValid := rfl
@[simp] theorem finish_arg0 (code : ResultCode) (info : Word) : (finish code info s).arg0 = s.arg0 := rfl
@[simp] theorem finish_arg1 (code : ResultCode) (info : Word) : (finish code info s).arg1 = s.arg1 := rfl
@[simp] theorem finish_arg2 (code : ResultCode) (info : Word) : (finish code info s).arg2 = s.arg2 := rfl
@[simp] theorem finish_result (code : ResultCode) (info : Word) : (finish code info s).result = code := rfl
@[simp] theorem finish_errInfo (code : ResultCode) (info : Word) : (finish code info s).errInfo = info := rfl
@[simp] theorem finish_outLen (code : ResultCode) (info : Word) : (finish code info s).outLen = s.outLen := rfl
@[simp] theorem finish_pad (code : ResultCode) (info : Word) : (finish code info s).pad = s.pad := rfl
@[simp] theorem finish_totalBits (code : ResultCode) (info : Word) : (finish code info s).totalBits = s.totalBits := rfl
@[simp] theorem finish_maxLen (code : ResultCode) (info : Word) : (finish code info s).maxLen = s.maxLen := rfl
@[simp] theorem finish_freq (code : ResultCode) (info : Word) : (finish code info s).freq = s.freq := rfl
@[simp] theorem finish_tree (code : ResultCode) (info : Word) : (finish code info s).tree = s.tree := rfl
@[simp] theorem finish_ct (code : ResultCode) (info : Word) : (finish code info s).ct = s.ct := rfl
@[simp] theorem finish_buf (code : ResultCode) (info : Word) : (finish code info s).buf = s.buf := rfl
@[simp] theorem finish_seq (code : ResultCode) (info : Word) : (finish code info s).seq = .idle := rfl
@[simp] theorem finish_inReset (code : ResultCode) (info : Word) : (finish code info s).inReset = s.inReset := rfl
@[simp] theorem finish_rdata (code : ResultCode) (info : Word) : (finish code info s).rdata = s.rdata := rfl
@[simp] theorem finish_host (code : ResultCode) (info : Word) : (finish code info s).host = s.host := rfl
@[simp] theorem finish_delay (code : ResultCode) (info : Word) : (finish code info s).delay = s.delay := rfl
@[simp] theorem finish_draws (code : ResultCode) (info : Word) : (finish code info s).draws = s.draws := rfl
@[simp] theorem finish_bufDraw (code : ResultCode) (info : Word) : (finish code info s).bufDraw = s.bufDraw := rfl

/-! ### acknowledge -/

@[simp] theorem acknowledge_params (w : Word) : (acknowledge w s).params = s.params := rfl
@[simp] theorem acknowledge_doneIe (w : Word) : (acknowledge w s).doneIe = s.doneIe := rfl
@[simp] theorem acknowledge_errIe (w : Word) : (acknowledge w s).errIe = s.errIe := rfl
@[simp] theorem acknowledge_done (w : Word) : (acknowledge w s).done = (s.done && !w.getLsbD 1) := rfl
@[simp] theorem acknowledge_errf (w : Word) : (acknowledge w s).errf = (s.errf && !w.getLsbD 2) := rfl
@[simp] theorem acknowledge_ovr (w : Word) : (acknowledge w s).ovr = (s.ovr && !w.getLsbD 3) := rfl
@[simp] theorem acknowledge_codesValid (w : Word) : (acknowledge w s).codesValid = s.codesValid := rfl
@[simp] theorem acknowledge_arg0 (w : Word) : (acknowledge w s).arg0 = s.arg0 := rfl
@[simp] theorem acknowledge_arg1 (w : Word) : (acknowledge w s).arg1 = s.arg1 := rfl
@[simp] theorem acknowledge_arg2 (w : Word) : (acknowledge w s).arg2 = s.arg2 := rfl
@[simp] theorem acknowledge_result (w : Word) : (acknowledge w s).result = s.result := rfl
@[simp] theorem acknowledge_errInfo (w : Word) : (acknowledge w s).errInfo = s.errInfo := rfl
@[simp] theorem acknowledge_outLen (w : Word) : (acknowledge w s).outLen = s.outLen := rfl
@[simp] theorem acknowledge_pad (w : Word) : (acknowledge w s).pad = s.pad := rfl
@[simp] theorem acknowledge_totalBits (w : Word) : (acknowledge w s).totalBits = s.totalBits := rfl
@[simp] theorem acknowledge_maxLen (w : Word) : (acknowledge w s).maxLen = s.maxLen := rfl
@[simp] theorem acknowledge_freq (w : Word) : (acknowledge w s).freq = s.freq := rfl
@[simp] theorem acknowledge_tree (w : Word) : (acknowledge w s).tree = s.tree := rfl
@[simp] theorem acknowledge_ct (w : Word) : (acknowledge w s).ct = s.ct := rfl
@[simp] theorem acknowledge_buf (w : Word) : (acknowledge w s).buf = s.buf := rfl
@[simp] theorem acknowledge_seq (w : Word) : (acknowledge w s).seq = s.seq := rfl
@[simp] theorem acknowledge_inReset (w : Word) : (acknowledge w s).inReset = s.inReset := rfl
@[simp] theorem acknowledge_rdata (w : Word) : (acknowledge w s).rdata = s.rdata := rfl
@[simp] theorem acknowledge_host (w : Word) : (acknowledge w s).host = s.host := rfl
@[simp] theorem acknowledge_delay (w : Word) : (acknowledge w s).delay = s.delay := rfl
@[simp] theorem acknowledge_draws (w : Word) : (acknowledge w s).draws = s.draws := rfl
@[simp] theorem acknowledge_bufDraw (w : Word) : (acknowledge w s).bufDraw = s.bufDraw := rfl

/-! ### dropWrite -/

@[simp] theorem dropWrite_params : (dropWrite s).params = s.params := rfl
@[simp] theorem dropWrite_doneIe : (dropWrite s).doneIe = s.doneIe := rfl
@[simp] theorem dropWrite_errIe : (dropWrite s).errIe = s.errIe := rfl
@[simp] theorem dropWrite_done : (dropWrite s).done = s.done := rfl
@[simp] theorem dropWrite_errf : (dropWrite s).errf = s.errf := rfl
@[simp] theorem dropWrite_ovr : (dropWrite s).ovr = true := rfl
@[simp] theorem dropWrite_codesValid : (dropWrite s).codesValid = s.codesValid := rfl
@[simp] theorem dropWrite_arg0 : (dropWrite s).arg0 = s.arg0 := rfl
@[simp] theorem dropWrite_arg1 : (dropWrite s).arg1 = s.arg1 := rfl
@[simp] theorem dropWrite_arg2 : (dropWrite s).arg2 = s.arg2 := rfl
@[simp] theorem dropWrite_result : (dropWrite s).result = s.result := rfl
@[simp] theorem dropWrite_errInfo : (dropWrite s).errInfo = s.errInfo := rfl
@[simp] theorem dropWrite_outLen : (dropWrite s).outLen = s.outLen := rfl
@[simp] theorem dropWrite_pad : (dropWrite s).pad = s.pad := rfl
@[simp] theorem dropWrite_totalBits : (dropWrite s).totalBits = s.totalBits := rfl
@[simp] theorem dropWrite_maxLen : (dropWrite s).maxLen = s.maxLen := rfl
@[simp] theorem dropWrite_freq : (dropWrite s).freq = s.freq := rfl
@[simp] theorem dropWrite_tree : (dropWrite s).tree = s.tree := rfl
@[simp] theorem dropWrite_ct : (dropWrite s).ct = s.ct := rfl
@[simp] theorem dropWrite_buf : (dropWrite s).buf = s.buf := rfl
@[simp] theorem dropWrite_seq : (dropWrite s).seq = s.seq := rfl
@[simp] theorem dropWrite_inReset : (dropWrite s).inReset = s.inReset := rfl
@[simp] theorem dropWrite_rdata : (dropWrite s).rdata = s.rdata := rfl
@[simp] theorem dropWrite_host : (dropWrite s).host = s.host := rfl
@[simp] theorem dropWrite_delay : (dropWrite s).delay = s.delay := rfl
@[simp] theorem dropWrite_draws : (dropWrite s).draws = s.draws := rfl
@[simp] theorem dropWrite_bufDraw : (dropWrite s).bufDraw = s.bufDraw := rfl

/-! ### writeBuf -/

@[simp] theorem writeBuf_params (a : Nat) (bytes : List Byte) : (s.writeBuf a bytes).params = s.params := rfl
@[simp] theorem writeBuf_doneIe (a : Nat) (bytes : List Byte) : (s.writeBuf a bytes).doneIe = s.doneIe := rfl
@[simp] theorem writeBuf_errIe (a : Nat) (bytes : List Byte) : (s.writeBuf a bytes).errIe = s.errIe := rfl
@[simp] theorem writeBuf_done (a : Nat) (bytes : List Byte) : (s.writeBuf a bytes).done = s.done := rfl
@[simp] theorem writeBuf_errf (a : Nat) (bytes : List Byte) : (s.writeBuf a bytes).errf = s.errf := rfl
@[simp] theorem writeBuf_ovr (a : Nat) (bytes : List Byte) : (s.writeBuf a bytes).ovr = s.ovr := rfl
@[simp] theorem writeBuf_codesValid (a : Nat) (bytes : List Byte) : (s.writeBuf a bytes).codesValid = s.codesValid := rfl
@[simp] theorem writeBuf_arg0 (a : Nat) (bytes : List Byte) : (s.writeBuf a bytes).arg0 = s.arg0 := rfl
@[simp] theorem writeBuf_arg1 (a : Nat) (bytes : List Byte) : (s.writeBuf a bytes).arg1 = s.arg1 := rfl
@[simp] theorem writeBuf_arg2 (a : Nat) (bytes : List Byte) : (s.writeBuf a bytes).arg2 = s.arg2 := rfl
@[simp] theorem writeBuf_result (a : Nat) (bytes : List Byte) : (s.writeBuf a bytes).result = s.result := rfl
@[simp] theorem writeBuf_errInfo (a : Nat) (bytes : List Byte) : (s.writeBuf a bytes).errInfo = s.errInfo := rfl
@[simp] theorem writeBuf_outLen (a : Nat) (bytes : List Byte) : (s.writeBuf a bytes).outLen = s.outLen := rfl
@[simp] theorem writeBuf_pad (a : Nat) (bytes : List Byte) : (s.writeBuf a bytes).pad = s.pad := rfl
@[simp] theorem writeBuf_totalBits (a : Nat) (bytes : List Byte) : (s.writeBuf a bytes).totalBits = s.totalBits := rfl
@[simp] theorem writeBuf_maxLen (a : Nat) (bytes : List Byte) : (s.writeBuf a bytes).maxLen = s.maxLen := rfl
@[simp] theorem writeBuf_freq (a : Nat) (bytes : List Byte) : (s.writeBuf a bytes).freq = s.freq := rfl
@[simp] theorem writeBuf_tree (a : Nat) (bytes : List Byte) : (s.writeBuf a bytes).tree = s.tree := rfl
@[simp] theorem writeBuf_ct (a : Nat) (bytes : List Byte) : (s.writeBuf a bytes).ct = s.ct := rfl
@[simp] theorem writeBuf_buf (a : Nat) (bytes : List Byte) : (s.writeBuf a bytes).buf = s.buf.writeList a bytes := rfl
@[simp] theorem writeBuf_seq (a : Nat) (bytes : List Byte) : (s.writeBuf a bytes).seq = s.seq := rfl
@[simp] theorem writeBuf_inReset (a : Nat) (bytes : List Byte) : (s.writeBuf a bytes).inReset = s.inReset := rfl
@[simp] theorem writeBuf_rdata (a : Nat) (bytes : List Byte) : (s.writeBuf a bytes).rdata = s.rdata := rfl
@[simp] theorem writeBuf_host (a : Nat) (bytes : List Byte) : (s.writeBuf a bytes).host = s.host := rfl
@[simp] theorem writeBuf_delay (a : Nat) (bytes : List Byte) : (s.writeBuf a bytes).delay = s.delay := rfl
@[simp] theorem writeBuf_draws (a : Nat) (bytes : List Byte) : (s.writeBuf a bytes).draws = s.draws := rfl
@[simp] theorem writeBuf_bufDraw (a : Nat) (bytes : List Byte) : (s.writeBuf a bytes).bufDraw = s.bufDraw := rfl

/-! ### writeFreq -/

@[simp] theorem writeFreq_params (v : Symbol) (w : Word) : (writeFreq v w s).params = s.params := rfl
@[simp] theorem writeFreq_doneIe (v : Symbol) (w : Word) : (writeFreq v w s).doneIe = s.doneIe := rfl
@[simp] theorem writeFreq_errIe (v : Symbol) (w : Word) : (writeFreq v w s).errIe = s.errIe := rfl
@[simp] theorem writeFreq_done (v : Symbol) (w : Word) : (writeFreq v w s).done = s.done := rfl
@[simp] theorem writeFreq_errf (v : Symbol) (w : Word) : (writeFreq v w s).errf = s.errf := rfl
@[simp] theorem writeFreq_ovr (v : Symbol) (w : Word) : (writeFreq v w s).ovr = s.ovr := rfl
@[simp] theorem writeFreq_codesValid (v : Symbol) (w : Word) : (writeFreq v w s).codesValid = s.codesValid := rfl
@[simp] theorem writeFreq_arg0 (v : Symbol) (w : Word) : (writeFreq v w s).arg0 = s.arg0 := rfl
@[simp] theorem writeFreq_arg1 (v : Symbol) (w : Word) : (writeFreq v w s).arg1 = s.arg1 := rfl
@[simp] theorem writeFreq_arg2 (v : Symbol) (w : Word) : (writeFreq v w s).arg2 = s.arg2 := rfl
@[simp] theorem writeFreq_result (v : Symbol) (w : Word) : (writeFreq v w s).result = s.result := rfl
@[simp] theorem writeFreq_errInfo (v : Symbol) (w : Word) : (writeFreq v w s).errInfo = s.errInfo := rfl
@[simp] theorem writeFreq_outLen (v : Symbol) (w : Word) : (writeFreq v w s).outLen = s.outLen := rfl
@[simp] theorem writeFreq_pad (v : Symbol) (w : Word) : (writeFreq v w s).pad = s.pad := rfl
@[simp] theorem writeFreq_totalBits (v : Symbol) (w : Word) : (writeFreq v w s).totalBits = s.totalBits := rfl
@[simp] theorem writeFreq_maxLen (v : Symbol) (w : Word) : (writeFreq v w s).maxLen = s.maxLen := rfl
@[simp] theorem writeFreq_freq (v : Symbol) (w : Word) : (writeFreq v w s).freq = s.freq.set v.toNat w (by have := v.isLt; omega) := rfl
@[simp] theorem writeFreq_tree (v : Symbol) (w : Word) : (writeFreq v w s).tree = s.tree := rfl
@[simp] theorem writeFreq_ct (v : Symbol) (w : Word) : (writeFreq v w s).ct = s.ct := rfl
@[simp] theorem writeFreq_buf (v : Symbol) (w : Word) : (writeFreq v w s).buf = s.buf := rfl
@[simp] theorem writeFreq_seq (v : Symbol) (w : Word) : (writeFreq v w s).seq = s.seq := rfl
@[simp] theorem writeFreq_inReset (v : Symbol) (w : Word) : (writeFreq v w s).inReset = s.inReset := rfl
@[simp] theorem writeFreq_rdata (v : Symbol) (w : Word) : (writeFreq v w s).rdata = s.rdata := rfl
@[simp] theorem writeFreq_host (v : Symbol) (w : Word) : (writeFreq v w s).host = s.host := rfl
@[simp] theorem writeFreq_delay (v : Symbol) (w : Word) : (writeFreq v w s).delay = s.delay := rfl
@[simp] theorem writeFreq_draws (v : Symbol) (w : Word) : (writeFreq v w s).draws = s.draws := rfl
@[simp] theorem writeFreq_bufDraw (v : Symbol) (w : Word) : (writeFreq v w s).bufDraw = s.bufDraw := rfl

/-! ### resetRegisters -/

@[simp] theorem resetRegisters_params : (resetRegisters s).params = s.params := rfl
@[simp] theorem resetRegisters_doneIe : (resetRegisters s).doneIe = false := rfl
@[simp] theorem resetRegisters_errIe : (resetRegisters s).errIe = false := rfl
@[simp] theorem resetRegisters_done : (resetRegisters s).done = false := rfl
@[simp] theorem resetRegisters_errf : (resetRegisters s).errf = false := rfl
@[simp] theorem resetRegisters_ovr : (resetRegisters s).ovr = false := rfl
@[simp] theorem resetRegisters_codesValid : (resetRegisters s).codesValid = false := rfl
@[simp] theorem resetRegisters_arg0 : (resetRegisters s).arg0 = 0 := rfl
@[simp] theorem resetRegisters_arg1 : (resetRegisters s).arg1 = 0 := rfl
@[simp] theorem resetRegisters_arg2 : (resetRegisters s).arg2 = 0 := rfl
@[simp] theorem resetRegisters_result : (resetRegisters s).result = .ok := rfl
@[simp] theorem resetRegisters_errInfo : (resetRegisters s).errInfo = 0 := rfl
@[simp] theorem resetRegisters_outLen : (resetRegisters s).outLen = 0 := rfl
@[simp] theorem resetRegisters_pad : (resetRegisters s).pad = 0 := rfl
@[simp] theorem resetRegisters_totalBits : (resetRegisters s).totalBits = 0 := rfl
@[simp] theorem resetRegisters_maxLen : (resetRegisters s).maxLen = 0 := rfl
@[simp] theorem resetRegisters_freq : (resetRegisters s).freq = s.freq := rfl
@[simp] theorem resetRegisters_tree : (resetRegisters s).tree = { s.tree with heapSize := 0, nleaf := 0, nint := 0, state := .empty, root := 0 } := rfl
@[simp] theorem resetRegisters_ct : (resetRegisters s).ct = s.ct := rfl
@[simp] theorem resetRegisters_buf : (resetRegisters s).buf = s.buf := rfl
@[simp] theorem resetRegisters_seq : (resetRegisters s).seq = .idle := rfl
@[simp] theorem resetRegisters_inReset : (resetRegisters s).inReset = s.inReset := rfl
@[simp] theorem resetRegisters_rdata : (resetRegisters s).rdata = s.rdata := rfl
@[simp] theorem resetRegisters_host : (resetRegisters s).host = s.host := rfl
@[simp] theorem resetRegisters_delay : (resetRegisters s).delay = 0 := rfl
@[simp] theorem resetRegisters_draws : (resetRegisters s).draws = s.draws := rfl
@[simp] theorem resetRegisters_bufDraw : (resetRegisters s).bufDraw = s.bufDraw := rfl

/-! ### clobberFreq -/

@[simp] theorem clobberFreq_params : (clobberFreq s).params = s.params := rfl
@[simp] theorem clobberFreq_doneIe : (clobberFreq s).doneIe = s.doneIe := rfl
@[simp] theorem clobberFreq_errIe : (clobberFreq s).errIe = s.errIe := rfl
@[simp] theorem clobberFreq_done : (clobberFreq s).done = s.done := rfl
@[simp] theorem clobberFreq_errf : (clobberFreq s).errf = s.errf := rfl
@[simp] theorem clobberFreq_ovr : (clobberFreq s).ovr = s.ovr := rfl
@[simp] theorem clobberFreq_codesValid : (clobberFreq s).codesValid = s.codesValid := rfl
@[simp] theorem clobberFreq_arg0 : (clobberFreq s).arg0 = s.arg0 := rfl
@[simp] theorem clobberFreq_arg1 : (clobberFreq s).arg1 = s.arg1 := rfl
@[simp] theorem clobberFreq_arg2 : (clobberFreq s).arg2 = s.arg2 := rfl
@[simp] theorem clobberFreq_result : (clobberFreq s).result = s.result := rfl
@[simp] theorem clobberFreq_errInfo : (clobberFreq s).errInfo = s.errInfo := rfl
@[simp] theorem clobberFreq_outLen : (clobberFreq s).outLen = s.outLen := rfl
@[simp] theorem clobberFreq_pad : (clobberFreq s).pad = s.pad := rfl
@[simp] theorem clobberFreq_totalBits : (clobberFreq s).totalBits = s.totalBits := rfl
@[simp] theorem clobberFreq_maxLen : (clobberFreq s).maxLen = s.maxLen := rfl
@[simp] theorem clobberFreq_freq : (clobberFreq s).freq = freeFreqTable s.draws := rfl
@[simp] theorem clobberFreq_tree : (clobberFreq s).tree = s.tree := rfl
@[simp] theorem clobberFreq_ct : (clobberFreq s).ct = s.ct := rfl
@[simp] theorem clobberFreq_buf : (clobberFreq s).buf = s.buf := rfl
@[simp] theorem clobberFreq_seq : (clobberFreq s).seq = s.seq := rfl
@[simp] theorem clobberFreq_inReset : (clobberFreq s).inReset = s.inReset := rfl
@[simp] theorem clobberFreq_rdata : (clobberFreq s).rdata = s.rdata := rfl
@[simp] theorem clobberFreq_host : (clobberFreq s).host = s.host := rfl
@[simp] theorem clobberFreq_delay : (clobberFreq s).delay = s.delay := rfl
@[simp] theorem clobberFreq_draws : (clobberFreq s).draws = s.draws + 1 := rfl
@[simp] theorem clobberFreq_bufDraw : (clobberFreq s).bufDraw = s.bufDraw := rfl

/-! ### clobberTree -/

@[simp] theorem clobberTree_params : (clobberTree s).params = s.params := rfl
@[simp] theorem clobberTree_doneIe : (clobberTree s).doneIe = s.doneIe := rfl
@[simp] theorem clobberTree_errIe : (clobberTree s).errIe = s.errIe := rfl
@[simp] theorem clobberTree_done : (clobberTree s).done = s.done := rfl
@[simp] theorem clobberTree_errf : (clobberTree s).errf = s.errf := rfl
@[simp] theorem clobberTree_ovr : (clobberTree s).ovr = s.ovr := rfl
@[simp] theorem clobberTree_codesValid : (clobberTree s).codesValid = s.codesValid := rfl
@[simp] theorem clobberTree_arg0 : (clobberTree s).arg0 = s.arg0 := rfl
@[simp] theorem clobberTree_arg1 : (clobberTree s).arg1 = s.arg1 := rfl
@[simp] theorem clobberTree_arg2 : (clobberTree s).arg2 = s.arg2 := rfl
@[simp] theorem clobberTree_result : (clobberTree s).result = s.result := rfl
@[simp] theorem clobberTree_errInfo : (clobberTree s).errInfo = s.errInfo := rfl
@[simp] theorem clobberTree_outLen : (clobberTree s).outLen = s.outLen := rfl
@[simp] theorem clobberTree_pad : (clobberTree s).pad = s.pad := rfl
@[simp] theorem clobberTree_totalBits : (clobberTree s).totalBits = s.totalBits := rfl
@[simp] theorem clobberTree_maxLen : (clobberTree s).maxLen = s.maxLen := rfl
@[simp] theorem clobberTree_freq : (clobberTree s).freq = s.freq := rfl
@[simp] theorem clobberTree_tree : (clobberTree s).tree = { s.tree with node := freeNodeTable s.draws, heap := freeHeapTable s.draws } := rfl
@[simp] theorem clobberTree_ct : (clobberTree s).ct = s.ct := rfl
@[simp] theorem clobberTree_buf : (clobberTree s).buf = s.buf := rfl
@[simp] theorem clobberTree_seq : (clobberTree s).seq = s.seq := rfl
@[simp] theorem clobberTree_inReset : (clobberTree s).inReset = s.inReset := rfl
@[simp] theorem clobberTree_rdata : (clobberTree s).rdata = s.rdata := rfl
@[simp] theorem clobberTree_host : (clobberTree s).host = s.host := rfl
@[simp] theorem clobberTree_delay : (clobberTree s).delay = s.delay := rfl
@[simp] theorem clobberTree_draws : (clobberTree s).draws = s.draws + 1 := rfl
@[simp] theorem clobberTree_bufDraw : (clobberTree s).bufDraw = s.bufDraw := rfl

/-! ### clobberCodes -/

@[simp] theorem clobberCodes_params : (clobberCodes s).params = s.params := rfl
@[simp] theorem clobberCodes_doneIe : (clobberCodes s).doneIe = s.doneIe := rfl
@[simp] theorem clobberCodes_errIe : (clobberCodes s).errIe = s.errIe := rfl
@[simp] theorem clobberCodes_done : (clobberCodes s).done = s.done := rfl
@[simp] theorem clobberCodes_errf : (clobberCodes s).errf = s.errf := rfl
@[simp] theorem clobberCodes_ovr : (clobberCodes s).ovr = s.ovr := rfl
@[simp] theorem clobberCodes_codesValid : (clobberCodes s).codesValid = s.codesValid := rfl
@[simp] theorem clobberCodes_arg0 : (clobberCodes s).arg0 = s.arg0 := rfl
@[simp] theorem clobberCodes_arg1 : (clobberCodes s).arg1 = s.arg1 := rfl
@[simp] theorem clobberCodes_arg2 : (clobberCodes s).arg2 = s.arg2 := rfl
@[simp] theorem clobberCodes_result : (clobberCodes s).result = s.result := rfl
@[simp] theorem clobberCodes_errInfo : (clobberCodes s).errInfo = s.errInfo := rfl
@[simp] theorem clobberCodes_outLen : (clobberCodes s).outLen = s.outLen := rfl
@[simp] theorem clobberCodes_pad : (clobberCodes s).pad = s.pad := rfl
@[simp] theorem clobberCodes_totalBits : (clobberCodes s).totalBits = s.totalBits := rfl
@[simp] theorem clobberCodes_maxLen : (clobberCodes s).maxLen = s.maxLen := rfl
@[simp] theorem clobberCodes_freq : (clobberCodes s).freq = s.freq := rfl
@[simp] theorem clobberCodes_tree : (clobberCodes s).tree = s.tree := rfl
@[simp] theorem clobberCodes_ct : (clobberCodes s).ct = freeCodeTable s.draws := rfl
@[simp] theorem clobberCodes_buf : (clobberCodes s).buf = s.buf := rfl
@[simp] theorem clobberCodes_seq : (clobberCodes s).seq = s.seq := rfl
@[simp] theorem clobberCodes_inReset : (clobberCodes s).inReset = s.inReset := rfl
@[simp] theorem clobberCodes_rdata : (clobberCodes s).rdata = s.rdata := rfl
@[simp] theorem clobberCodes_host : (clobberCodes s).host = s.host := rfl
@[simp] theorem clobberCodes_delay : (clobberCodes s).delay = s.delay := rfl
@[simp] theorem clobberCodes_draws : (clobberCodes s).draws = s.draws + 1 := rfl
@[simp] theorem clobberCodes_bufDraw : (clobberCodes s).bufDraw = s.bufDraw := rfl

/-! ### forgetMemories -/

@[simp] theorem forgetMemories_params : (forgetMemories s).params = s.params := rfl
@[simp] theorem forgetMemories_doneIe : (forgetMemories s).doneIe = s.doneIe := rfl
@[simp] theorem forgetMemories_errIe : (forgetMemories s).errIe = s.errIe := rfl
@[simp] theorem forgetMemories_done : (forgetMemories s).done = s.done := rfl
@[simp] theorem forgetMemories_errf : (forgetMemories s).errf = s.errf := rfl
@[simp] theorem forgetMemories_ovr : (forgetMemories s).ovr = s.ovr := rfl
@[simp] theorem forgetMemories_codesValid : (forgetMemories s).codesValid = s.codesValid := rfl
@[simp] theorem forgetMemories_arg0 : (forgetMemories s).arg0 = s.arg0 := rfl
@[simp] theorem forgetMemories_arg1 : (forgetMemories s).arg1 = s.arg1 := rfl
@[simp] theorem forgetMemories_arg2 : (forgetMemories s).arg2 = s.arg2 := rfl
@[simp] theorem forgetMemories_result : (forgetMemories s).result = s.result := rfl
@[simp] theorem forgetMemories_errInfo : (forgetMemories s).errInfo = s.errInfo := rfl
@[simp] theorem forgetMemories_outLen : (forgetMemories s).outLen = s.outLen := rfl
@[simp] theorem forgetMemories_pad : (forgetMemories s).pad = s.pad := rfl
@[simp] theorem forgetMemories_totalBits : (forgetMemories s).totalBits = s.totalBits := rfl
@[simp] theorem forgetMemories_maxLen : (forgetMemories s).maxLen = s.maxLen := rfl
@[simp] theorem forgetMemories_freq : (forgetMemories s).freq = freeFreqTable s.draws := rfl
@[simp] theorem forgetMemories_tree : (forgetMemories s).tree = { s.tree with node := freeNodeTable s.draws, heap := freeHeapTable s.draws } := rfl
@[simp] theorem forgetMemories_ct : (forgetMemories s).ct = freeCodeTable s.draws := rfl
@[simp] theorem forgetMemories_buf : (forgetMemories s).buf = [] := rfl
@[simp] theorem forgetMemories_seq : (forgetMemories s).seq = s.seq := rfl
@[simp] theorem forgetMemories_inReset : (forgetMemories s).inReset = s.inReset := rfl
@[simp] theorem forgetMemories_rdata : (forgetMemories s).rdata = s.rdata := rfl
@[simp] theorem forgetMemories_host : (forgetMemories s).host = s.host := rfl
@[simp] theorem forgetMemories_delay : (forgetMemories s).delay = s.delay := rfl
@[simp] theorem forgetMemories_draws : (forgetMemories s).draws = s.draws + 1 := rfl
@[simp] theorem forgetMemories_bufDraw : (forgetMemories s).bufDraw = s.draws := rfl

end Sys2Proof.Machine
end

