-- ==== Sys2Proof/Laws/Step.lean ====
section
/-! SUPPORT. What a step can do, said once: a command's completion, an illegal word's, one host action, or waiting. -/

namespace Sys2Proof.Machine

variable {s t : State}

/-- The arms of exec. -/
@[simp] theorem exec_nop : exec .nop s = execNop s := rfl
@[simp] theorem exec_freqClear : exec .freqClear s = execFreqClear s := rfl
@[simp] theorem exec_freqCount : exec .freqCount s = execFreqCount s := rfl
@[simp] theorem exec_treeInit : exec .treeInit s = execTreeInit s := rfl
@[simp] theorem exec_treeStep : exec .treeStep s = execTreeStep s := rfl
@[simp] theorem exec_treeBuild : exec .treeBuild s = execTreeBuild s := rfl
@[simp] theorem exec_codeGen : exec .codeGen s = execCodeGen s := rfl
@[simp] theorem exec_encode : exec .encode s = execEncode s := rfl
@[simp] theorem exec_decode : exec .decode s = execDecode s := rfl

/-- The host's turn is its first action, and the rest of its actions. -/
theorem State.hostTurn_eq_host {a : HostAct} {rest : List HostAct} (h : s.hostTurn = .host a rest) :
    s.host = a :: rest := by
  unfold State.hostTurn at h
  split at h <;> simp_all

theorem State.hostTurn_ne_core {cmd : Word} : s.hostTurn ≠ .core cmd := by
  unfold State.hostTurn
  split <;> simp

/-- On the host's turn it performs its first action. -/
theorem State.turn_of_host {a : HostAct} {rest : List HostAct} (h : s.turn = .host a rest) : s.host = a :: rest := by
  unfold State.turn at h
  split at h
  · exact State.hostTurn_eq_host h
  · split at h
    · exact State.hostTurn_eq_host h
    · split at h
      · cases h
      · exact State.hostTurn_eq_host h

/-- On the core's turn the block is out of reset, that command is in flight, and it is due. -/
theorem State.turn_of_core {cmd : Word} (h : s.turn = .core cmd) :
    s.inReset = false ∧ (∃ a b c, s.seq = .busy cmd a b c) ∧ (s.hostYields || s.delay == 0) = true := by
  unfold State.turn at h
  split at h
  · exact absurd h State.hostTurn_ne_core
  · rename_i hr
    split at h
    · exact absurd h State.hostTurn_ne_core
    · rename_i hs
      split at h
      · rename_i hd
        cases h
        exact ⟨by simpa using hr, ⟨_, _, _, hs⟩, hd⟩
      · exact absurd h State.hostTurn_ne_core

/-- A step that answers a next state is one of these. -/
theorem step_next_cases (h : step s = .next t) :
    (∃ cmd i, s.turn = .core cmd ∧ decodeWord cmd = .ok i ∧ exec i s = .next t) ∨
    (∃ cmd e, s.turn = .core cmd ∧ decodeWord cmd = .error e ∧ t = illegalCommand s) ∨
    (∃ a rest, s.turn = .host a rest ∧ s.host = a :: rest ∧ t = hostAct a rest s) ∨
    (s.turn = .nobody ∧ t = s) := by
  unfold step at h
  cases ht : s.turn with
  | core cmd =>
    simp only [ht, complete] at h
    cases hd : decodeWord cmd with
    | ok i => exact .inl ⟨cmd, i, rfl, hd, by simpa only [hd] using h⟩
    | error e =>
      simp only [hd, Host.Outcome.next.injEq] at h
      exact .inr (.inl ⟨cmd, e, rfl, hd, h.symm⟩)
  | host a rest =>
    simp only [ht, Host.Outcome.next.injEq] at h
    exact .inr (.inr (.inl ⟨a, rest, rfl, State.turn_of_host ht, h.symm⟩))
  | nobody =>
    simp only [ht, Host.Outcome.next.injEq] at h
    exact .inr (.inr (.inr ⟨rfl, h.symm⟩))

/-- ENCODE and DECODE end in a success that writes the output, or in a failure that writes the completion record alone. -/
theorem emit_ok (o : Output) (s : State) :
    emit (.ok o) s = finish .ok 0 { s with
      buf := s.buf.writeList s.dst o.bytes
      outLen := BitVec.ofNat 32 o.bytes.length
      pad := BitVec.ofNat 3 o.pad
      totalBits := BitVec.ofNat 32 o.bits } := rfl

theorem emit_error (e : ResultCode × Word) (s : State) : emit (.error e) s = finish e.1 e.2 s := rfl

/-- The destination checks pass exactly when the output fits BUF and does not overlap the source. -/
theorem checkDst_ok_iff {o o' : Output} :
    checkDst s o = .ok o' ↔
      o = o' ∧ s.dst + o.bytes.length ≤ s.params.bufBytes ∧ overlap s.src s.len s.dst o.bytes.length = false := by
  unfold checkDst State.inBuf
  constructor
  · intro h
    split at h
    · cases h
    · split at h
      · cases h
      · rename_i h1 h2
        refine ⟨by simpa using h, by simpa using h1, by simpa using h2⟩
  · rintro ⟨rfl, h1, h2⟩
    simp [h1, h2]

end Sys2Proof.Machine
end

