-- ==== Sys2Proof/Machine/HostProgram.lean ====
section
/-! DEFINITION. The host program notation (30_encoding.md R98, R99): each form as the list of host actions it stands for. RD, WR
and WAIT are `HostAct.rd`, `HostAct.wr` and `HostAct.wait`. -/

namespace Sys2Proof.Machine

/-- `CMD m`: WR 0x010, OPC << 24 (R98). -/
def cmdActs (i : Instr) : List HostAct := [.wr 0x010 (encodeInstr i)]

/-- `RUN m` (R99). -/
def runActs (i : Instr) : List HostAct := cmdActs i ++ [.wait]

/-- `RUN3 m, s, l, d` (R99). -/
def run3Acts (i : Instr) (s l d : Word) : List HostAct :=
  [.wr 0x014 s, .wr 0x018 l, .wr 0x01C d] ++ cmdActs i ++ [.wait]

/-- `SETFREQ s, v` (R99). -/
def setFreqActs (s : Symbol) (v : Word) : List HostAct := [.wr (BitVec.ofNat 17 (0x400 + 4 * s.toNat)) v]

/-- The host word of four bytes, the first in the lowest lane (R67). -/
def wordOfLanes (b0 b1 b2 b3 : Byte) : Word := b3 ++ b2 ++ b1 ++ b0

/-- `LOADBUF a, b0 b1 …`, `a` a multiple of 4: four bytes a write, missing bytes of the last group 0 (R99). -/
def loadBufActs (a : Nat) : List Byte → List HostAct
  | [] => []
  | [b0] => [.wr (BitVec.ofNat 17 (0x10000 + a)) (wordOfLanes b0 0 0 0)]
  | [b0, b1] => [.wr (BitVec.ofNat 17 (0x10000 + a)) (wordOfLanes b0 b1 0 0)]
  | [b0, b1, b2] => [.wr (BitVec.ofNat 17 (0x10000 + a)) (wordOfLanes b0 b1 b2 0)]
  | b0 :: b1 :: b2 :: b3 :: rest =>
    .wr (BitVec.ofNat 17 (0x10000 + a)) (wordOfLanes b0 b1 b2 b3) :: loadBufActs (a + 4) rest

/-- `ACK`: WR STATUS, 0x0000000E (R99). -/
def ackActs : List HostAct := [.wr statusAddr 0x0000000E]

end Sys2Proof.Machine
end

