-- ==== Sys2Proof/Tests/Slice0.lean ====
section
/-! SUPPORT. The model's own tests, and a witness for the hypotheses of each statement that has some. Expected results are taken
from 95_test_vectors.md (the vector's number is named) or worked by hand from the rule named. -/

-- Proofs are checked one after the other: the kernel's evaluations of several at once would not fit the memory.
set_option Elab.async false

namespace Sys2Proof.Tests

open Sys2Proof Sys2Proof.Machine

/-! ### Well-formedness and decoding -/

/-- R90: a nonzero ZERO field is refused. -/
theorem test_wf_zero_field : CmdFields.wellFormed { opc := 0x01, zero := 1 } = false := by decide

/-- R93: a reserved operation code is refused. -/
theorem test_wf_opcode : CmdFields.wellFormed { opc := 0x03, zero := 0 } = false := by decide

/-- R92: both refusals have a name, and the reserved field is checked first (vectors S5, S6, S7). -/
theorem test_decode_errors :
    decodeWord 0x01000001 = .error .reservedBits ∧ decodeWord 0xFF000000 = .error .undefinedOpcode ∧
      decodeWord 0xFF000001 = .error .reservedBits ∧
      ([0x03000000, 0x13000000, 0x21000000, 0x32000000, 0x40000000].all
        (fun w => decide (decodeWord w = .error .undefinedOpcode))) = true := by
  decide

/-- R90, R91: each command's word, its bits written out. -/
theorem test_decode_words :
    decodeWord 0b00000000000000000000000000000000 = .ok .nop ∧
    decodeWord 0b00000001000000000000000000000000 = .ok .freqClear ∧
    decodeWord 0b00000010000000000000000000000000 = .ok .freqCount ∧
    decodeWord 0b00010000000000000000000000000000 = .ok .treeInit ∧
    decodeWord 0b00010001000000000000000000000000 = .ok .treeStep ∧
    decodeWord 0b00010010000000000000000000000000 = .ok .treeBuild ∧
    decodeWord 0b00100000000000000000000000000000 = .ok .codeGen ∧
    decodeWord 0b00110000000000000000000000000000 = .ok .encode ∧
    decodeWord 0b00110001000000000000000000000000 = .ok .decode := by decide

/-- The table's numbering of the bits is the word's. -/
theorem test_decode_table_word :
    decodeTableWord 32 0x12000000 = some .treeBuild ∧ decodeTableWord 32 0x12000001 = none := by decide

/-! ### Small states -/

/-- A frequency table with the listed counts and 0 elsewhere. -/
def freqOf (l : List (Nat × Word)) : Vector Word 256 := tabulate 256 (fun v => (l.lookup v).getD 0)

/-- A code table with the listed codes and none elsewhere. -/
def codesOf (l : List (Nat × Bits)) : Vector Bits 256 := tabulate 256 (fun v => (l.lookup v).getD [])

/-- An arena with the listed nodes and cleared elsewhere. -/
def nodesOf (l : List (Nat × Node)) : Vector Node 511 := tabulate 511 (fun n => (l.lookup n).getD Node.zero)

/-- A heap that begins with the listed nodes. -/
def heapOf (l : List NodeIdx) : Vector NodeIdx 256 := tabulate 256 (fun i => l.getD i 0)

/-- The table of "abb" (vector F2). -/
def abbFreq : Vector Word 256 := freqOf [(0x61, 1), (0x62, 2)]

/-- The arena of "abb" before its merge. -/
def abbLeaves : Vector Node 511 := nodesOf [(0x61, leafNode 1), (0x62, leafNode 2)]

/-- The build of "abb" after TREE_INIT (R134). -/
def abbBuilding : TreeMem :=
  { node := abbLeaves, heap := heapOf [0x61, 0x62], heapSize := 2, nleaf := 2, nint := 0, state := .building, root := 0 }

/-- The tree of "abb" (vector S2 of section 1). -/
def abbTree : TreeMem :=
  { node := nodesOf [(0x61, leafNode 1), (0x62, leafNode 2),
      (0x100, { valid := true, leaf := false, weight := 3, left := 0x61, right := 0x62 })]
    heap := heapOf [0x100]
    heapSize := 1, nleaf := 2, nint := 1, state := .done, root := 0x100 }

/-- The tree of "aaaa" (vector S1 of section 1). -/
def aaaaTree : TreeMem :=
  { node := nodesOf [(0x61, leafNode 4)], heap := heapOf [0x61], heapSize := 1, nleaf := 1, nint := 0, state := .done,
    root := 0x61 }

/-- No node at all. -/
def noTree : TreeMem :=
  { node := nodesOf [], heap := heapOf [], heapSize := 0, nleaf := 0, nint := 0, state := .empty, root := 0 }

/-- Idle, no tree, FREQ all 0, BUF[0..2] = "abb", BUF[0x100..0x101] = 05 60. -/
def base : State :=
  { State.reset with
    freq := freqOf []
    tree := noTree
    ct := codesOf []
    buf := [(0, 0x61), (1, 0x62), (2, 0x62), (0x100, 0x05), (0x101, 0x60)] }

/-- `s` with the command `i` in flight on the operands, its completion due. -/
def flight (i : Instr) (src len dst : Word) (s : State) : State :=
  { s with seq := .busy (encodeInstr i) src len dst, delay := 0 }

/-- `base` after prepare("abb") of 95_test_vectors.md. -/
def abb : State :=
  { base with freq := abbFreq, tree := abbTree, ct := codesOf [(0x61, [false]), (0x62, [true])], codesValid := true, maxLen := 1 }

/-- `base` with the build of "abb" begun. -/
def building : State := { base with freq := abbFreq, tree := abbBuilding }

/-- `base` with the tree of "aaaa", BUF[0x100..0x101] = 04 10 (vector U19). -/
def lone : State := { base with tree := aaaaTree, buf := [(0x100, 0x04), (0x101, 0x10)] }

/-- A field of the next state, or a default. -/
def after {α : Type} (o : Host.Outcome State Fault Refusal) (f : State → α) (d : α) : α :=
  match o with
  | .next t => f t
  | .fault _ => d
  | .refused _ => d

/-! ### One step of each command -/

/-- Vector S4: NOP. -/
theorem test_nop :
    after (step (flight .nop 0 0 0 State.reset)) (fun t => (t.readReg .result, t.readReg .status)) (1, 0) = (0, 0x02) := by
  decide

/-- Vector S5: an illegal word gives RESULT 1 and STATUS 0x06. -/
theorem test_illegal :
    after (step { State.reset with seq := .busy 0xFF000000 0 0 0 })
      (fun t => (t.readReg .result, t.readReg .errInfo, t.readReg .status)) (0, 1, 0) = (1, 0, 0x06) := by
  decide

/-- Vector F1: FREQ_CLEAR. -/
theorem test_freqClear :
    after (step (flight .freqClear 0 0 0 { base with freq := freqOf [(0x61, 7)] })) (fun t => freqAt t.freq 0x61) 1 = 0 := by
  decide +kernel

/-- Vector F2: FREQ_COUNT over "abb". -/
theorem test_freqCount :
    after (step (flight .freqCount 0 3 0 base))
      (fun t => (t.result, freqAt t.freq 0x61, freqAt t.freq 0x62, freqAt t.freq 0x63)) (.seq, 0, 0, 0)
      = (.ok, 1, 2, 0) := by
  decide +kernel

/-- Vector F7: FREQ_COUNT saturates, reports the lowest symbol and keeps the sums. -/
theorem test_freqCount_saturates :
    after (step (flight .freqCount 0 4 0
        { base with
          freq := freqOf [(0x41, 0xFFFFFFFE), (0x42, 0xFFFFFFFF)]
          buf := [(0, 0x42), (1, 0x41), (2, 0x41), (3, 0x43)] }))
      (fun t => (t.readReg .result, t.errInfo, freqAt t.freq 0x41, freqAt t.freq 0x42, freqAt t.freq 0x43)) (0, 0, 0, 0, 0)
      = (6, 0x41, 0xFFFFFFFF, 0xFFFFFFFF, 1) := by
  decide +kernel

/-- Vector T1: TREE_INIT on the table of "abracadabra". -/
theorem test_treeInit :
    after (step (flight .treeInit 0 0 0
        { base with freq := freqOf [(0x61, 5), (0x62, 2), (0x63, 1), (0x64, 1), (0x72, 2)] }))
      (fun t => (t.tree.queue, t.tree.nleaf, t.tree.state)) ([], 0, .empty)
      = ([0x63, 0x64, 0x62, 0x61, 0x72], 5, .building) := by
  decide +kernel

/-- Vector T10: one present symbol completes the tree at once. -/
theorem test_treeInit_single :
    after (step (flight .treeInit 0 0 0 { base with freq := freqOf [(7, 3)] })) (fun t => t.readReg .root) 0
      = 0x80000007 := by
  decide +kernel

/-- Vector S2 of section 1: the merge of "abb". -/
theorem test_treeStep :
    after (step (flight .treeStep 0 0 0 building))
      (fun t => (t.tree.nodeAt 0x100, t.readReg .root, t.tree.nint)) (Node.zero, 0, 0)
      = ({ valid := true, leaf := false, weight := 3, left := 0x61, right := 0x62 }, 0x80000100, 1) := by
  decide +kernel

/-- Vector T6: TREE_STEP after the tree is complete is E_SEQ. -/
theorem test_treeStep_seq :
    after (step (flight .treeStep 0 0 0 abb)) (fun t => (t.readReg .result, t.tree.state)) (0, .empty) = (2, .done) := by
  decide

/-- Vector T13: in "abcc" the leaf c and the node 256 tie at weight 2 and the leaf is taken first. -/
theorem test_treeBuild_tie :
    after (step (flight .treeBuild 0 0 0 { base with freq := freqOf [(0x61, 1), (0x62, 1), (0x63, 2)] }))
      (fun t => t.tree.nodeAt 0x101) Node.zero
      = { valid := true, leaf := false, weight := 4, left := 0x63, right := 0x100 } := by
  decide +kernel

/-- Vector T8: an empty table is E_EMPTY. -/
theorem test_treeBuild_empty :
    after (step (flight .treeBuild 0 0 0 base)) (fun t => (t.readReg .result, t.tree.state)) (0, .done) = (3, .empty) := by
  decide +kernel

/-- Vector G2: the codes of "abb". -/
theorem test_codeGen :
    after (step (flight .codeGen 0 0 0 { abb with codesValid := false, ct := codesOf [] }))
      (fun t => (codeAt t.ct 0x61, codeAt t.ct 0x62, codeAt t.ct 0x63, t.maxLen)) ([], [], [], 0)
      = ([false], [true], [], 1) := by
  decide +kernel

/-- Vector G1: a lone leaf gets the code 0. -/
theorem test_codeGen_lone :
    after (step (flight .codeGen 0 0 0 lone)) (fun t => (codeAt t.ct 0x61, t.maxLen)) ([], 0) = ([false], 1) := by
  decide +kernel

/-- Vector E2: "abb" packs to 05 60. -/
theorem test_encode :
    after (step (flight .encode 0 3 0x1000 abb))
      (fun t => (t.bufByte 0x1000, t.bufByte 0x1001, t.outLen, t.pad, t.totalBits)) (0, 0, 0, 0, 0)
      = (0x05, 0x60, 2, 5, 3) := by
  decide +kernel

/-- Vector E18: overlapping ranges are E_OVERLAP. -/
theorem test_encode_overlap :
    after (step (flight .encode 0 3 2 abb)) (fun t => t.readReg .result) 0 = 5 := by
  decide +kernel

/-- Vector U2: 05 60 unpacks to "abb". -/
theorem test_decode :
    after (step (flight .decode 0x100 2 0x200 abb))
      (fun t => (t.bufRange 0x200 3, t.outLen, t.pad, t.totalBits)) ([], 0, 0, 0)
      = ([0x61, 0x62, 0x62], 3, 5, 3) := by
  decide +kernel

/-- Vector U19: a 1 bit under a lone leaf is E_BAD_CODE at its index. -/
theorem test_decode_badCode :
    after (step (flight .decode 0x100 2 0x200 lone)) (fun t => (t.readReg .result, t.errInfo)) (0, 0) = (9, 3) := by
  decide +kernel

/-! ### The port -/

/-- Vectors S1, S2, S3: ID, CFG, a reserved register. -/
theorem test_read_id :
    (hostRead 0x000 State.reset).rdata = 0x48554646 ∧ (hostRead 0x004 State.reset).rdata = 0x00010000 ∧
      (hostRead 0x048 State.reset).rdata = 0 := by
  decide

/-- The NODE window of "abb" (section 2.2): entry 256 reads 0x00000003 at 0x1800 and 0x80C46100 at 0x1804. -/
theorem test_read_node :
    (hostRead 0x1800 abb).rdata = 0x00000003 ∧ (hostRead 0x1804 abb).rdata = 0x80C46100 := by
  decide +kernel

/-- Vector G2: the CT window of b at 0x3880. -/
theorem test_read_ct :
    (hostRead 0x3880 abb).rdata = 1 ∧ (hostRead 0x3884 abb).rdata = 0x80000000 := by
  decide +kernel

/-- Vector S20: little-endian lanes. -/
theorem test_read_buf_lanes :
    (hostRead 0x10100 { base with buf := [(0x100, 0x05), (0x101, 0x60), (0x102, 0), (0x103, 0)] }).rdata = 0x00006005 := by
  decide +kernel

/-- LOADBUF of program 1: WR 0x10000, 0x00626261. -/
theorem test_loadbuf_acts : loadBufActs 0 [0x61, 0x62, 0x62] = [.wr 0x10000 0x00626261] := by decide

/-- Vectors S9, S10: irq follows DONE and DONE_IE. -/
theorem test_irq :
    (hostWrite 0x008 0x1 { State.reset with done := true }).irq = true ∧
      (hostWrite 0x00C 0x2 { State.reset with done := true, doneIe := true }).irq = false := by
  decide

/-- Vectors S13, S14: while Busy a BUF write is dropped with OVR, and ARG0 is written. -/
theorem test_busy_writes :
    (hostWrite 0x10000 0x12345678 (flight .treeBuild 0 0 0 base)).ovr = true ∧
      (hostWrite 0x10000 0x12345678 (flight .treeBuild 0 0 0 base)).buf = base.buf ∧
      (hostWrite 0x014 0x40 (flight .treeBuild 0 0 0 base)).arg0 = 0x40 := by
  decide

/-- Issue: a write to CMD while Idle makes the block Busy with the latched operands (R220). -/
theorem test_issue :
    (hostWrite 0x010 0x12000000 { base with arg0 := 1, arg1 := 2, arg2 := 3 }).seq = .busy 0x12000000 1 2 3 := by decide

/-- The next step after withFetchWord runs the word, from reset, for every row of the table. -/
theorem test_withFetchWord :
    ∀ w ∈ [0x00000000, 0x01000000, 0x02000000, 0x10000000, 0x11000000, 0x12000000, 0x20000000, 0x30000000, 0x31000000],
      after (step (State.reset.withFetchWord 32 w)) (fun t => t.done) false = true := by
  decide

/-! ### Sound trees -/

theorem nodeAt_nodesOf (t : TreeMem) (l : List (Nat × Node)) (h : t.node = nodesOf l) (n : NodeIdx) :
    t.nodeAt n = if n.toNat < 511 then (l.lookup n.toNat).getD Node.zero else Node.zero := by
  unfold TreeMem.nodeAt
  rw [h, nodesOf, tabulate_getElem?]
  split <;> rfl

theorem abbTree_shape : abbTree.Shape := by
  have h := nodeAt_nodesOf abbTree _ rfl
  constructor
  case leaf_count => decide +kernel
  case owned_once => decide +kernel
  all_goals simp only [TreeMem.weightOf, h]
  all_goals decide +kernel

theorem abbTree_ok : abbTree.Ok where
  counts := ⟨by decide, by decide, by decide, by decide, by decide, by decide⟩
  order := fun _ i h0 h1 => by have h : i < 1 := h1; omega
  shape := fun _ => abbTree_shape

theorem abbBuilding_shape : abbBuilding.Shape := by
  have h := nodeAt_nodesOf abbBuilding _ rfl
  constructor
  case leaf_count => decide +kernel
  case owned_once => decide +kernel
  all_goals simp only [TreeMem.weightOf, h]
  all_goals decide +kernel

theorem abbBuilding_ok : abbBuilding.Ok where
  counts := ⟨by decide, by decide, by decide, by decide, by decide, by decide⟩
  order := fun _ i h0 h1 => by
    have h : i < 2 := h1
    obtain rfl : i = 1 := by omega
    decide +kernel
  shape := fun _ => abbBuilding_shape

theorem aaaaTree_shape : aaaaTree.Shape := by
  have h := nodeAt_nodesOf aaaaTree _ rfl
  constructor
  case leaf_count => decide +kernel
  case owned_once => decide +kernel
  all_goals simp only [TreeMem.weightOf, h]
  all_goals decide +kernel

theorem aaaaTree_ok : aaaaTree.Ok where
  counts := ⟨by decide, by decide, by decide, by decide, by decide, by decide⟩
  order := fun _ i h0 h1 => by have h : i < 1 := h1; omega
  shape := fun _ => aaaaTree_shape

/-- CODE_GEN on the tree of "abb" gives the table that `abb` holds (vector G2). -/
theorem abb_codes : abbTree.codes = some abb.ct := by decide +kernel

theorem abb_current : abb.CodesCurrent := fun _ => ⟨rfl, abb_codes⟩

theorem abb_fit : abb.CodesFit := by
  unfold State.CodesFit
  decide +kernel

theorem abb_inv : abb.Inv where
  memory := ⟨by decide, by decide, by decide⟩
  fit := abb_fit
  current := abb_current
  tree := abbTree_ok

/-! ### Witnesses: for each statement with hypotheses, a state and operands that meet them all -/

theorem witness_IllegalWordCompletes_zero :
    (flight .nop 0 0 0 base).due ∧ (0x01000001#32).toNat % 2 ^ 24 ≠ 0 :=
  ⟨⟨rfl, .inl rfl⟩, by decide⟩

theorem witness_IllegalWordCompletes_opcode :
    ({ base with seq := .busy 0xFF000000 0 0 0 } : State).due ∧
      (0xFF000000#32).toNat / 2 ^ 24 ∉ [0x00, 0x01, 0x02, 0x10, 0x11, 0x12, 0x20, 0x30, 0x31] :=
  ⟨⟨rfl, .inl rfl⟩, by decide⟩

theorem witness_StepRunsTheDecodedCommand :
    (flight .treeBuild 0 0 0 base).seq = .busy 0x12000000 0 0 0 ∧ (flight .treeBuild 0 0 0 base).due ∧
      decodeWord 0x12000000 = .ok .treeBuild :=
  ⟨rfl, ⟨rfl, .inl rfl⟩, by decide⟩

theorem witness_HostActsBetweenCommands_busy :
    let s := { flight .treeBuild 0 0 0 base with host := [.rd 0x00C], delay := 1 }
    s.inReset = false ∧ s.host = [.rd 0x00C] ∧ s.delay ≠ 0 ∧ HostAct.rd 0x00C ≠ .wait := by decide

theorem witness_HostActsBetweenCommands_idle : base.inReset = false ∧ base.host = [] ∧ base.seq = .idle := by decide

theorem witness_PortIsIgnoredInReset :
    let s := { base with inReset := true, host := [.wr 0x010 0, .rstRelease] }
    s.inReset = true ∧ s.host = .wr 0x010 0 :: [.rstRelease] := by decide

theorem witness_ConfigurationNeverChanges : step base = .next base := rfl

theorem witness_HardwareResetValues : State.reset = releaseReset (hardReset base) ∨ State.reset = State.reset := .inr rfl

theorem witness_SoftResetValues : (0x80000000#32).getLsbD 31 = true ∧ base.seq = .idle := by decide

theorem witness_AbortedCommandTouchesOnlyItsTargets :
    (flight .encode 0 3 0x1000 abb).seq = .busy (encodeInstr .encode) 0 3 0x1000 ∧ (0x80000000#32).getLsbD 31 = true ∧
      (flight .encode 0 3 0x1000 abb).params.legal = true ∧
      ∃ t, exec .encode (flight .encode 0 3 0x1000 abb) = .next t :=
  ⟨rfl, by decide, by decide, _, rfl⟩

theorem witness_AbortedCommandTouchesOnlyItsTargets_failed :
    ∃ t, exec .encode (flight .encode 0 3 0x1000 base) = .next t ∧ t.result ≠ .ok :=
  ⟨_, rfl, by decide⟩

theorem witness_AbortedCommandTouchesOnlyItsTargets_illegal :
    ({ abb with seq := .busy 0x01000001 0 0 0 } : State).seq = .busy 0x01000001 0 0 0 ∧
      (0x01000001#32).toNat % 2 ^ 24 ≠ 0 ∧
      (0xFF000000#32).toNat / 2 ^ 24 ∉ [0x00, 0x01, 0x02, 0x10, 0x11, 0x12, 0x20, 0x30, 0x31] := by decide

theorem witness_FreqCountAddsTheOccurrences_range :
    (flight .freqCount 0xFFFE 3 0 base).params.bufBytes <
      (flight .freqCount 0xFFFE 3 0 base).src + (flight .freqCount 0xFFFE 3 0 base).len := by decide

theorem witness_FreqCountAddsTheOccurrences_exact :
    let s := flight .freqCount 0xFFFE 2 0 { base with buf := [(0xFFFE, 1), (0xFFFF, 2)] }
    s.src + s.len ≤ s.params.bufBytes ∧
      ∀ v, (freqAt s.freq v).toNat + s.occurrences s.src s.len v ≤ 0xFFFFFFFF := by
  decide +kernel

theorem witness_FreqCountAddsTheOccurrences_saturated :
    let s := flight .freqCount 0 1 0 { base with freq := freqOf [(0x61, 0xFFFFFFFF)] }
    s.src + s.len ≤ s.params.bufBytes ∧
      0xFFFFFFFF < (freqAt s.freq 0x61).toNat + s.occurrences s.src s.len 0x61 ∧
      ∀ v : Symbol, v < 0x61 → (freqAt s.freq v).toNat + s.occurrences s.src s.len v ≤ 0xFFFFFFFF := by
  decide +kernel

/-- For the statements about TREE_INIT and TREE_BUILD with a present symbol. -/
theorem witness_present_symbols : presentSymbols building.freq ≠ [] := by decide +kernel

theorem witness_EmptyTableIsReported : ∀ v, freqAt base.freq v = 0 := by decide +kernel

theorem witness_WrongSequenceIsReported :
    base.tree.state ≠ .building ∧ base.tree.state ≠ .done := by decide

theorem witness_TreeStepMergesTheTwoLeast : building.tree.Ok ∧ building.tree.state = .building := ⟨abbBuilding_ok, rfl⟩

theorem witness_TreeDependsOnFreqAlone : building.freq = abb.freq ∧ building.tree ≠ abb.tree :=
  ⟨rfl, fun h => by have := congrArg TreeMem.state h; revert this; decide⟩

theorem witness_RootWeightIsTheFrequencySum :
    presentSymbols building.freq ≠ [] ∧ ∃ t, exec .treeBuild building = .next t := ⟨witness_present_symbols, _, rfl⟩

theorem witness_CodeGenRecordsThePaths : abb.tree.Ok ∧ abb.tree.state = .done := ⟨abbTree_ok, rfl⟩

theorem witness_CodeGenRecordsThePaths_lone :
    lone.tree.Ok ∧ lone.tree.state = .done ∧ (lone.tree.nodeAt lone.tree.root).leaf = true :=
  ⟨aaaaTree_ok, rfl, by decide +kernel⟩

theorem witness_CodesArePrefixFree :
    abb.tree.Ok ∧ abb.CodesCurrent ∧ abb.codesValid = true ∧ 2 ≤ abb.tree.nleaf.toNat :=
  ⟨abbTree_ok, abb_current, rfl, by decide⟩

theorem witness_EncodeReportsTheFirstFailure_range0 :
    let s := flight .encode 0xFFFF 2 0x100 abb
    s.codesValid = true ∧ s.params.bufBytes < s.src + s.len := by decide

theorem witness_EncodeReportsTheFirstFailure_empty :
    let s := flight .encode 0x10000 0 0x100 abb
    s.codesValid = true ∧ s.src + s.len ≤ s.params.bufBytes ∧ s.len = 0 := by decide

theorem witness_EncodeReportsTheFirstFailure_noCode :
    let s := flight .encode 0 3 0x100 { abb with buf := [(0, 0x61), (1, 0x62), (2, 0x63)] }
    s.codesValid = true ∧ s.src + s.len ≤ s.params.bufBytes ∧ 2 < s.len ∧ codeAt s.ct (s.bufByte (s.src + 2)) = [] ∧
      ∀ j, j < 2 → codeAt s.ct (s.bufByte (s.src + j)) ≠ [] := by
  decide +kernel

theorem witness_EncodeReportsTheFirstFailure_range1 :
    let s := flight .encode 0 3 0xFFFF abb
    s.codesValid = true ∧ s.src + s.len ≤ s.params.bufBytes ∧ s.len ≠ 0 ∧
      (∀ i, i < s.len → codeAt s.ct (s.bufByte (s.src + i)) ≠ []) ∧
      s.params.bufBytes < s.dst + streamLength s.sourceBits.length := by
  decide +kernel

theorem witness_EncodeReportsTheFirstFailure_overlap :
    let s := flight .encode 0 3 2 abb
    s.codesValid = true ∧ s.src + s.len ≤ s.params.bufBytes ∧ s.len ≠ 0 ∧
      (∀ i, i < s.len → codeAt s.ct (s.bufByte (s.src + i)) ≠ []) ∧
      s.dst + streamLength s.sourceBits.length ≤ s.params.bufBytes ∧
      s.src < s.dst + streamLength s.sourceBits.length ∧ s.dst < s.src + s.len := by
  decide +kernel

theorem witness_EncodePacksTheCodes :
    let s := flight .encode 0 3 3 abb
    s.params.legal = true ∧ s.codesValid = true ∧ s.src + s.len ≤ s.params.bufBytes ∧ s.len ≠ 0 ∧
      (∀ i, i < s.len → codeAt s.ct (s.bufByte (s.src + i)) ≠ []) ∧
      s.dst + streamLength s.sourceBits.length ≤ s.params.bufBytes ∧ s.src + s.len ≤ s.dst := by
  decide +kernel

theorem witness_PaddingIsCorrect :
    let s := flight .encode 0 3 0x1000 abb
    s.params.legal = true ∧ ∃ t, exec .encode s = .next t ∧ t.result = .ok :=
  ⟨by decide, _, rfl, by decide +kernel⟩

theorem witness_DecodeChecksTheStream_range0 :
    let s := flight .decode 0xFFFF 2 0x200 abb
    s.tree.state = .done ∧ s.params.bufBytes < s.src + s.len := by decide

theorem witness_DecodeChecksTheStream_badPad0 :
    let s := flight .decode 0x100 0 0x200 abb
    s.tree.state = .done ∧ s.src + s.len ≤ s.params.bufBytes ∧ s.len = 0 := by decide

theorem witness_DecodeChecksTheStream_badPad1 :
    let s := flight .decode 0x100 2 0x200 { abb with buf := [(0x100, 0x08), (0x101, 0x60)] }
    s.tree.state = .done ∧ s.src + s.len ≤ s.params.bufBytes ∧ s.len ≠ 0 ∧ 7 < (s.bufByte s.src).toNat := by
  decide +kernel

theorem witness_DecodeChecksTheStream_badPad2 :
    let s := flight .decode 0x100 1 0x200 abb
    s.tree.state = .done ∧ s.src + s.len ≤ s.params.bufBytes ∧ s.len ≠ 0 ∧ (s.bufByte s.src).toNat ≤ 7 ∧
      8 * (s.len - 1) < (s.bufByte s.src).toNat := by
  decide +kernel

/-- A legal stream under a complete tree: the hypotheses that the statements about DECODE share. -/
def LegalStream (s : State) : Prop :=
  s.params.legal = true ∧ s.tree.Ok ∧ s.tree.state = .done ∧ s.src + s.len ≤ s.params.bufBytes ∧ s.len ≠ 0 ∧
    (s.bufByte s.src).toNat ≤ 7 ∧ (s.bufByte s.src).toNat ≤ 8 * (s.len - 1)

theorem witness_DecodeReportsCorruptStreams_badCode :
    let s := flight .decode 0x100 2 0x200 lone
    LegalStream s ∧ (s.tree.nodeAt s.tree.root).leaf = true ∧ 3 < s.streamBits.length ∧
      s.streamBits.getD 3 false = true ∧ ∀ j, j < 3 → s.streamBits.getD j false = false :=
  ⟨⟨by decide, aaaaTree_ok, rfl, by decide, by decide, by decide +kernel, by decide +kernel⟩,
    by decide +kernel, by decide +kernel, by decide +kernel, by decide +kernel⟩

theorem abb_path_a : abbTree.Path 0x61 [false] :=
  ⟨by decide, by decide +kernel, by decide +kernel, fun k h0 h1 => by simp at h1; omega⟩

theorem abb_path_b : abbTree.Path 0x62 [true] :=
  ⟨by decide, by decide +kernel, by decide +kernel, fun k h0 h1 => by simp at h1; omega⟩

/-- "abb" spelled by the tree of "abb" (vector U2). -/
theorem abb_spells : abbTree.Spells [0x61, 0x62, 0x62] [false, true, true] :=
  ⟨[false], [true, true], rfl, abb_path_a, [true], [true], rfl, abb_path_b, [true], [], rfl, abb_path_b, rfl⟩

/-- A stream that ends inside a path: the tree of "abcc" with the bits 0 1, whose 1 is half a code (as in vector U31). -/
def abccTree : TreeMem :=
  { node := nodesOf [(0x61, leafNode 1), (0x62, leafNode 1), (0x63, leafNode 2),
      (0x100, { valid := true, leaf := false, weight := 2, left := 0x61, right := 0x62 }),
      (0x101, { valid := true, leaf := false, weight := 4, left := 0x63, right := 0x100 })]
    heap := heapOf [0x101]
    heapSize := 1, nleaf := 3, nint := 2, state := .done, root := 0x101 }

theorem abccTree_shape : abccTree.Shape := by
  have h := nodeAt_nodesOf abccTree _ rfl
  constructor
  case leaf_count => decide +kernel
  case owned_once => decide +kernel
  all_goals simp only [TreeMem.weightOf, h]
  all_goals decide +kernel

theorem abccTree_ok : abccTree.Ok where
  counts := ⟨by decide, by decide, by decide, by decide, by decide, by decide⟩
  order := fun _ i h0 h1 => by have h : i < 1 := h1; omega
  shape := fun _ => abccTree_shape

theorem witness_DecodeReportsCorruptStreams_trunc :
    let s := flight .decode 0x100 2 0x200 { abb with tree := abccTree, buf := [(0x100, 0x06), (0x101, 0x40)] }
    LegalStream s ∧ (s.tree.nodeAt s.tree.root).leaf = false ∧ s.streamBits = [false] ++ [true] ∧
      s.tree.Spells [0x63] [false] ∧
      ∀ k, 0 < k → k ≤ [true].length → (s.tree.nodeAt (s.tree.follow ([true].take k))).leaf = false := by
  refine ⟨⟨by decide, abccTree_ok, rfl, by decide, by decide, by decide +kernel, by decide +kernel⟩, by decide +kernel,
    by decide +kernel, ⟨[false], [], rfl, ⟨by decide, by decide +kernel, by decide +kernel, fun k h0 h1 => ?_⟩, rfl⟩,
    fun k h0 h1 => ?_⟩
  · simp at h1; omega
  · have hk : k ≤ 1 := h1
    obtain rfl : k = 1 := by omega
    decide +kernel

theorem witness_DecodeReportsCorruptStreams_count :
    let s := flight .decode 0x100 2 0x200 { abb with buf := [(0x100, 0x06), (0x101, 0x60)] }
    LegalStream s ∧ (s.tree.nodeAt s.tree.root).leaf = false ∧ s.tree.Spells [0x61, 0x62] s.streamBits ∧
      [0x61, 0x62].length ≠ s.tree.weightOf s.tree.root := by
  refine ⟨⟨by decide, abbTree_ok, rfl, by decide, by decide, by decide +kernel, by decide +kernel⟩, by decide +kernel, ?_,
    by decide +kernel⟩
  have h : (flight .decode 0x100 2 0x200 { abb with buf := [(0x100, 0x06), (0x101, 0x60)] }).streamBits = [false, true] := by
    decide +kernel
  rw [h]
  exact ⟨[false], [true], rfl, abb_path_a, [true], [], rfl, abb_path_b, rfl⟩

theorem witness_DecodeReportsCorruptStreams_destination :
    let s := flight .decode 0x100 2 0xFFFE abb
    LegalStream s ∧ (s.tree.nodeAt s.tree.root).leaf = false ∧ s.tree.Spells [0x61, 0x62, 0x62] s.streamBits ∧
      [0x61, 0x62, 0x62].length = s.tree.weightOf s.tree.root ∧ s.params.bufBytes < s.dst + 3 := by
  refine ⟨⟨by decide, abbTree_ok, rfl, by decide, by decide, by decide +kernel, by decide +kernel⟩, by decide +kernel, ?_,
    by decide +kernel, by decide⟩
  have h : (flight .decode 0x100 2 0xFFFE abb).streamBits = [false, true, true] := by decide +kernel
  rw [h]
  exact abb_spells

theorem witness_DecodeReportsCorruptStreams_overlap :
    let s := flight .decode 0x100 2 0xFF abb
    LegalStream s ∧ (s.tree.nodeAt s.tree.root).leaf = false ∧ s.tree.Spells [0x61, 0x62, 0x62] s.streamBits ∧
      [0x61, 0x62, 0x62].length = s.tree.weightOf s.tree.root ∧ s.dst + 3 ≤ s.params.bufBytes ∧ s.src < s.dst + 3 ∧
      s.dst < s.src + s.len := by
  refine ⟨⟨by decide, abbTree_ok, rfl, by decide, by decide, by decide +kernel, by decide +kernel⟩, by decide +kernel, ?_,
    by decide +kernel, by decide, by decide, by decide⟩
  have h : (flight .decode 0x100 2 0xFF abb).streamBits = [false, true, true] := by decide +kernel
  rw [h]
  exact abb_spells

theorem witness_EncodeReportsTheFirstFailure_seq : base.codesValid = false := rfl

theorem witness_DecodeChecksTheStream_seq : base.tree.state ≠ .done := by decide

theorem witness_DecodeRecoversTheSymbols :
    let s := flight .decode 0x100 2 0xFD abb
    s.params.legal = true ∧ s.tree.state = .done ∧ s.src + s.len ≤ s.params.bufBytes ∧ s.len ≠ 0 ∧
      (s.bufByte s.src).toNat ≤ 7 ∧ (s.bufByte s.src).toNat ≤ 8 * (s.len - 1) ∧
      (s.tree.nodeAt s.tree.root).leaf = false ∧ s.tree.Spells [0x61, 0x62, 0x62] s.streamBits ∧
      [0x61, 0x62, 0x62].length = s.tree.weightOf s.tree.root ∧ s.dst + 3 ≤ s.params.bufBytes ∧ s.dst + 3 ≤ s.src := by
  refine ⟨by decide, rfl, by decide, by decide, by decide +kernel, by decide +kernel, by decide +kernel, ?_,
    by decide +kernel, by decide, by decide⟩
  have h : (flight .decode 0x100 2 0xFD abb).streamBits = [false, true, true] := by decide +kernel
  rw [h]
  exact abb_spells

theorem witness_DecodeInvertsEncode :
    let s := flight .encode 0 3 0x1000 abb
    s.Inv ∧ s.codesValid = true ∧
      (∃ t, exec .encode s = .next t ∧ t.result = .ok ∧ s.dst + t.outLen.toNat ≤ (0x2000#32).toNat) ∧
      s.len = s.tree.weightOf s.tree.root ∧ (0x2000#32).toNat + s.len ≤ s.params.bufBytes :=
  ⟨⟨⟨abb_inv.memory.params, abb_inv.memory.canonical, abb_inv.memory.inside⟩, abb_inv.fit, abb_inv.current, abb_inv.tree⟩,
    rfl, ⟨_, rfl, by decide +kernel, by decide +kernel⟩, by decide +kernel, by decide⟩

/-- For the statements about every command: each command answers a next state somewhere. -/
theorem witness_every_command_completes :
    ∀ i : Instr, ∃ t, exec i base = .next t := by
  intro i
  cases i <;> exact ⟨_, rfl⟩

theorem witness_FailedCommandsArePrecise :
    (∃ t, exec .encode base = .next t ∧ t.result ≠ .ok) ∧
    (∃ t, exec .freqCount (flight .freqCount 0xFFFF 2 0 base) = .next t ∧ t.result = .range) ∧
    (∃ t, exec .treeInit base = .next t ∧ t.result ≠ .ok) :=
  ⟨⟨_, rfl, by decide⟩, ⟨_, rfl, by decide⟩, ⟨_, rfl, by decide +kernel⟩⟩

theorem witness_FailedCommandsArePrecise_freqOvf :
    ∃ t, exec .freqCount (flight .freqCount 0 1 0 { base with freq := freqOf [(0x61, 0xFFFFFFFF)] }) = .next t ∧
      t.result = .freqOvf :=
  ⟨_, rfl, by decide +kernel⟩

theorem witness_ArgWritesDoNotDisturbTheCommand :
    (flight .encode 0 3 0x1000 abb).seq = .busy (encodeInstr .encode) 0 3 0x1000 ∧
      ∃ t, exec .encode (flight .encode 0 3 0x1000 abb) = .next t :=
  ⟨rfl, _, rfl⟩

theorem witness_OvrMeansADroppedWrite :
    let s := { flight .treeBuild 0 0 0 base with host := [.wr 0x010 0], delay := 1 }
    s.ovr = false ∧ ∃ t, step s = .next t ∧ t.ovr = true :=
  ⟨rfl, _, rfl, by decide⟩

theorem witness_CommandInFlightStaysUntilCompletion :
    let s := { flight .treeBuild 0 0 0 base with host := [.wr 0x008 0x80000000], delay := 1 }
    s.seq = .busy (encodeInstr .treeBuild) 0 0 0 ∧ ¬ s.due ∧ s.inReset = false ∧ ∃ t, step s = .next t :=
  ⟨rfl, fun h => by rcases h.2 with h | h | h <;> revert h <;> decide, rfl, _, rfl⟩

theorem witness_IssueLatchesTheOperands : base.seq = .idle ∧ (flight .nop 0 0 0 base).isBusy = true := by decide

theorem witness_CtrlHoldsTheEnables : (0x3#32).getLsbD 31 = false := by decide

theorem witness_RootReadsZeroUnlessDone : abb.tree.state = .done ∧ base.tree.state ≠ .done := by decide

theorem witness_ReservedAddressesReadZero :
    0x48 ≤ (0x48#17).toNat ∧ (0x3FC#17).toNat < 0x400 ∧ 0xC00 ≤ (0xC00#17).toNat ∧ (0xFFC#17).toNat < 0x1000 ∧
      0x6000 ≤ (0x6000#17).toNat ∧ (0xFFFC#17).toNat < 0x10000 ∧
      0x10000 + (({ base with params := ⟨16⟩ } : State).params.bufBytes + 3) / 4 * 4 ≤ (0x10010#17).toNat := by decide

theorem witness_ReadOnlyAddressesIgnoreWrites :
    (4#17).toNat < 8 ∧ 0x20 ≤ (0x20#17).toNat ∧ (0x44#17).toNat < 0x48 ∧ 0x800 ≤ (0x800#17).toNat ∧
      (0xBFC#17).toNat < 0xC00 ∧ 0x1000 ≤ (0x1000#17).toNat ∧ (0x5FFC#17).toNat < 0x6000 := by decide

theorem witness_BusyDropsWritesAndFreesReads :
    (flight .nop 0 0 0 base).isBusy = true ∧ (0x013#17).toNat / 4 = 4 ∧ 0x400 ≤ (0x7FC#17).toNat ∧ (0x7FC#17).toNat < 0x800 ∧
      0x10000 ≤ (0x1FFFC#17).toNat ∧ (0x1FFFC#17).toNat < 0x10000 + (flight .nop 0 0 0 base).params.bufBytes := by decide

theorem witness_ReadsHaveNoSideEffect : (hostRead 0x000 base).draws = base.draws := by decide

theorem witness_ReadsHaveNoSideEffect_addressBits :
    (0x400#17).extractLsb' 2 15 = (0x403#17).extractLsb' 2 15 ∧ (0x1FFFC#17).extractLsb' 2 15 = (0x1FFFF#17).extractLsb' 2 15 := by
  decide

/-- Every TREE_STATE and every result code is some state's. -/
theorem witness_StatusFields (c : ResultCode) :
    base.tree.state = .empty ∧ building.tree.state = .building ∧ abb.tree.state = .done ∧
      ({ base with result := c } : State).result = c := ⟨rfl, rfl, rfl, rfl⟩

theorem witness_FreqWindowReadsAndWrites : (0x7FC#17).toNat = 0x400 + 4 * (0xFF : Symbol).toNat ∧ base.isBusy = false := by decide

theorem witness_HeapWindowReads :
    255 < 256 ∧ (0xBFC#17).toNat = 0x800 + 4 * 255 ∧ abb.isBusy = false ∧ 0 < abb.tree.heapSize.toNat ∧
      abb.tree.heapSize.toNat ≤ 1 := by decide

theorem witness_NodeWindowReads :
    (0x1FF8#17).toNat = 0x1000 + 8 * (511 : NodeIdx).toNat ∧ (0x1FFC#17).toNat = 0x1000 + 8 * (511 : NodeIdx).toNat + 4 ∧
      abb.isBusy = false := by decide

theorem witness_CtWindowReads :
    15 < 16 ∧ (0x5FFC#17).toNat = 0x2000 + 64 * (0xFF : Symbol).toNat + 4 * 15 ∧ abb.isBusy = false ∧ abb.CodesFit :=
  ⟨by decide, by decide, by decide, abb_fit⟩

theorem witness_BufWindowLanes :
    (0x1FFFC#17).toNat = 0x10000 + 4 * 0x3FFF ∧ 4 * 0x3FFF < base.params.bufBytes ∧ base.isBusy = false := by decide

/-- For the invariants that every step keeps: a state that meets them all, and its step. -/
theorem witness_invariants : abb.Inv ∧ step abb = .next abb := ⟨abb_inv, rfl⟩

end Sys2Proof.Tests
end

section
/-! SUPPORT. What a step can do to the code table CT, and that every code stays within 255 bits (10_state.md R44, 42_codegen.md
R160). -/

namespace Sys2Proof.Machine

variable {s t : State}

/-! ### The tables CODE_GEN and a reset can leave in CT -/

/-- Every code of the table fits CT_LEN's 8 bits (R7, R44). -/
def CodeTableFits (ct : Vector Bits 256) : Prop := ∀ v, (codeAt ct v).length ≤ 255

theorem State.codesFit_iff : s.CodesFit ↔ CodeTableFits s.ct := Iff.rfl

theorem codeTableFits_freeCodeTable (draw : Nat) : CodeTableFits (freeCodeTable draw) := by
  intro v
  rw [freeCodeTable, codeAt_tabulate]
  exact List.length_take_le 255 _

theorem codeTableFits_empty : CodeTableFits (tabulate 256 (fun _ => [])) := by
  intro v
  simp

theorem codeTableFits_setCode {ct : Vector Bits 256} (hct : CodeTableFits ct) (v : Symbol) {p : Bits}
    (hp : p.length ≤ 255) : CodeTableFits (setCode ct v p) := by
  intro w
  rw [codeAt_setCode]
  split
  · exact hp
  · exact hct w

theorem codeTableFits_recordCode {ct ct' : Vector Bits 256} (hct : CodeTableFits ct) {n : NodeIdx} {p : Bits}
    (hp : p.length ≤ 255) (h : recordCode ct n p = some ct') : CodeTableFits ct' := by
  obtain ⟨-, rfl⟩ : n.toNat < 256 ∧ setCode ct (n.setWidth 8) p = ct' := by
    simpa [recordCode] using h
  exact codeTableFits_setCode hct _ hp

/-- A traversal that ends within `fuel` edges below the path `p` records only paths of fewer than `p.length + fuel` bits
(R162). -/
theorem codeTableFits_visit (tree : TreeMem) (fuel : Nat) {n : NodeIdx} {p : Bits} {ct ct' : Vector Bits 256}
    (hct : CodeTableFits ct) (hp : p.length + fuel ≤ 256) (h : tree.visit fuel n p ct = some ct') :
    CodeTableFits ct' := by
  induction fuel generalizing n p ct ct' with
  | zero => cases h
  | succ fuel ih =>
    have hchild (b : Bool) : (p ++ [b]).length + fuel ≤ 256 := by
      rw [List.length_append, List.length_singleton]; omega
    rw [TreeMem.visit] at h
    split at h
    case isTrue => exact codeTableFits_recordCode hct (by omega) h
    case isFalse =>
      split at h
      case h_1 => cases h
      case h_2 ctLeft hleft => exact ih (ih hct (hchild false) hleft) (hchild true) h

theorem codeTableFits_codes {tree : TreeMem} {ct : Vector Bits 256} (h : tree.codes = some ct) : CodeTableFits ct := by
  unfold TreeMem.codes at h
  split at h
  case isTrue => exact codeTableFits_recordCode codeTableFits_empty (by simp) h
  case isFalse => exact codeTableFits_visit tree 256 codeTableFits_empty (by simp) h

/-! ### What a command does to CT -/

@[simp] theorem finishTree_ct (tree : TreeMem) : (finishTree tree s).ct = s.ct := rfl

@[simp] theorem countBytes_ct (bytes : List Byte) : (countBytes bytes s).ct = s.ct := rfl

@[simp] theorem emit_ct (r : Except (ResultCode × Word) Output) : (emit r s).ct = s.ct := by
  cases r <;> rfl

theorem execFreqCount_ct (h : execFreqCount s = .next t) : t.ct = s.ct := by
  unfold execFreqCount at h
  split at h <;> cases h
  · rfl
  · exact countBytes_ct _

theorem execTreeStep_ct (h : execTreeStep s = .next t) : t.ct = s.ct := by
  unfold execTreeStep at h
  split at h
  · cases h; rfl
  · split at h <;> cases h
    rfl

theorem execCodeGen_ct (h : execCodeGen s = .next t) : t.ct = s.ct ∨ s.tree.codes = some t.ct := by
  unfold execCodeGen at h
  split at h
  · cases h; exact .inl rfl
  · split at h <;> cases h
    exact .inr ‹_›

/-- A command keeps CT, or it is a CODE_GEN that fills CT with the codes of the tree (R160). -/
theorem exec_ct_cases {i : Instr} (h : exec i s = .next t) :
    t.ct = s.ct ∨ i = .codeGen ∧ s.tree.codes = some t.ct := by
  cases i with
  | nop => cases h; exact .inl rfl
  | freqClear => cases h; exact .inl rfl
  | freqCount => exact .inl (execFreqCount_ct h)
  | treeInit => cases h; exact .inl (finishTree_ct _)
  | treeStep => exact .inl (execTreeStep_ct h)
  | treeBuild => cases h; exact .inl (finishTree_ct _)
  | codeGen => exact (execCodeGen_ct h).imp_right (fun hc => ⟨rfl, hc⟩)
  | encode => cases h; exact .inl (emit_ct _)
  | decode => cases h; exact .inl (emit_ct _)

/-! ### What a host action does to CT -/

/-- From `s` to `t` CT is kept, or it becomes unspecified (R51, R224). -/
def KeepsOrFreesCodes (s t : State) : Prop := t.ct = s.ct ∨ ∃ draw, t.ct = freeCodeTable draw

@[simp] theorem clobberOutput_ct (r : Except (ResultCode × Word) Output) : (clobberOutput r s).ct = s.ct := by
  cases r <;> rfl

theorem clobber_keepsOrFreesCodes (i : Instr) (s : State) : KeepsOrFreesCodes s (clobber i s) := by
  cases i with
  | codeGen => exact .inr ⟨_, clobberCodes_ct s⟩
  | nop => exact .inl rfl
  | freqClear => exact .inl (clobberFreq_ct s)
  | freqCount => exact .inl (clobberFreq_ct s)
  | treeInit => exact .inl (clobberTree_ct s)
  | treeStep => exact .inl (clobberTree_ct s)
  | treeBuild => exact .inl (clobberTree_ct s)
  | encode => exact .inl (clobberOutput_ct _)
  | decode => exact .inl (clobberOutput_ct _)

theorem abort_keepsOrFreesCodes (s : State) : KeepsOrFreesCodes s (abort s) := by
  unfold abort
  split
  · exact .inl rfl
  · split
    · exact clobber_keepsOrFreesCodes _ s
    · exact .inl rfl

@[simp] theorem softReset_ct : (softReset s).ct = (abort s).ct := rfl

@[simp] theorem hardReset_ct : (hardReset s).ct = freeCodeTable s.draws := rfl

@[simp] theorem releaseReset_ct : (releaseReset s).ct = s.ct := rfl

@[simp] theorem issue_ct (w : Word) : (issue w s).ct = s.ct := by
  unfold issue
  split <;> rfl

@[simp] theorem hostRead_ct (addr : PortAddr) : (hostRead addr s).ct = s.ct := by
  unfold hostRead
  split <;> rfl

theorem writeCtrl_keepsOrFreesCodes (w : Word) (s : State) : KeepsOrFreesCodes s (writeCtrl w s) := by
  unfold writeCtrl
  split
  · exact abort_keepsOrFreesCodes s
  · exact .inl rfl

theorem writeReg_ct {r : Reg} (hr : r ≠ .ctrl) (w : Word) : (writeReg r w s).ct = s.ct := by
  cases r
  case ctrl => exact absurd rfl hr
  case cmd => exact issue_ct w
  all_goals rfl

theorem writeReg_keepsOrFreesCodes (r : Reg) (w : Word) (s : State) : KeepsOrFreesCodes s (writeReg r w s) := by
  by_cases hr : r = .ctrl
  · subst hr; exact writeCtrl_keepsOrFreesCodes w s
  · exact .inl (writeReg_ct hr w)

/-- A window write that is dropped while Busy keeps CT when the write itself does (R284). -/
theorem dropWriteWhenBusy_ct (h : t.ct = s.ct) : (if s.isBusy then dropWrite s else t).ct = s.ct := by
  split
  · exact dropWrite_ct s
  · exact h

theorem writeLoc_keepsOrFreesCodes (l : Loc) (w : Word) (s : State) : KeepsOrFreesCodes s (writeLoc l w s) := by
  cases l with
  | reg r => exact writeReg_keepsOrFreesCodes r w s
  | freq v => exact .inl (dropWriteWhenBusy_ct (writeFreq_ct s v w))
  | buf m => exact .inl (dropWriteWhenBusy_ct (writeBuf_ct s (4 * m) (lanes w)))
  | heap i => exact .inl rfl
  | node n high => exact .inl rfl
  | ct v j => exact .inl rfl
  | reserved => exact .inl rfl

theorem portAction_keepsOrFreesCodes (a : HostAct) (s : State) : KeepsOrFreesCodes s (portAction a s) := by
  cases a with
  | rd addr => exact .inl (hostRead_ct addr)
  | wr addr w => exact writeLoc_keepsOrFreesCodes _ w s
  | wait => exact .inl (hostRead_ct statusAddr)
  | rstAssert => exact .inr ⟨_, hardReset_ct⟩
  | rstRelease => exact .inl releaseReset_ct

@[simp] theorem resetAction_ct (a : HostAct) : (resetAction a s).ct = s.ct := by
  cases a <;> rfl

/-- One host action keeps CT, or, when it is a reset, leaves unspecified codes in it. -/
theorem hostAct_keepsOrFreesCodes (a : HostAct) (rest : List HostAct) (s : State) :
    KeepsOrFreesCodes s (hostAct a rest s) := by
  unfold hostAct
  split
  · exact .inl (resetAction_ct a)
  · exact portAction_keepsOrFreesCodes a { s with host := rest, delay := s.delay - 1 }

/-! ### The step -/

/-- What a step can do to CT: fill it with the codes of the tree (R160), keep it, or leave unspecified codes in it
(R51, R224). -/
theorem step_ct_cases (h : step s = .next t) : s.tree.codes = some t.ct ∨ KeepsOrFreesCodes s t := by
  obtain ⟨_, i, -, -, hexec⟩ | ⟨_, _, -, -, rfl⟩ | ⟨a, rest, -, -, rfl⟩ | ⟨-, rfl⟩ := step_next_cases h
  · obtain hkept | ⟨-, hcodes⟩ := exec_ct_cases hexec
    · exact .inr (.inl hkept)
    · exact .inl hcodes
  · exact .inr (.inl rfl)
  · exact .inr (hostAct_keepsOrFreesCodes a rest s)
  · exact .inr (.inl rfl)

/-- Settles O57: a step keeps CT, or fills it with paths of at most 255 edges, or with unspecified codes of at most 255 bits. -/
theorem stepKeepsCodesWithinTheirWidth : Obligations.StepKeepsCodesWithinTheirWidth := by
  intro s t hfit hstep
  rw [State.codesFit_iff] at hfit ⊢
  obtain hcodes | hkept | ⟨draw, hfree⟩ := step_ct_cases hstep
  · exact codeTableFits_codes hcodes
  · rwa [hkept]
  · rw [hfree]
    exact codeTableFits_freeCodeTable draw

end Sys2Proof.Machine
end

section
/-! SUPPORT. What each agent can do to the state, said once: the completion of a command (30_encoding.md R91), the abort of one
(45_system.md R223, R224) and one action of the host (20_memory.md R60 to R70, 70_reset_and_hazards.md R280). -/

namespace Sys2Proof.Machine

/-! ### The completion of a command -/

/-- What a completion of the command `i` can leave of `s`: every group of fields that a command may write has its constructor. -/
inductive ExecEffect (s : State) : Instr → State → Prop where
  /-- the completion record alone -/
  | record (i : Instr) (code : ResultCode) (info : Word) : ExecEffect s i (finish code info s)
  /-- FREQ (R111, R112) -/
  | freq {i : Instr} (hi : i ∈ [Instr.freqClear, .freqCount]) (code : ResultCode) (info : Word) (f : Vector Word 256) :
      ExecEffect s i (finish code info { s with freq := f })
  /-- a tree begun or built from FREQ (R134, R137) -/
  | newTree {i : Instr} (hi : i ∈ [Instr.treeInit, .treeBuild]) {tree : TreeMem}
      (htree : tree = s.tree.init s.freq ∨ tree = s.tree.build s.freq) : ExecEffect s i (finishTree tree s)
  /-- one merge (R136) -/
  | merge (hbuilding : s.tree.state = .building) : ExecEffect s .treeStep (finish .ok 0 { s with tree := s.tree.merge })
  /-- the codes of the tree (R160) -/
  | codes (hdone : s.tree.state = .done) {ct : Vector Bits 256} (hcodes : s.tree.codes = some ct) (len : BitVec 8) :
      ExecEffect s .codeGen (finish .ok 0 { s with ct := ct, maxLen := len, codesValid := true })
  /-- an output that fits BUF (R180, R200) -/
  | output {i : Instr} (hi : i ∈ [Instr.encode, .decode]) (o : Output)
      (hfit : s.dst + o.bytes.length ≤ s.params.bufBytes) : ExecEffect s i (emit (.ok o) s)

variable {s t : State}

theorem checkDst_fits {o o' : Output} (h : checkDst s o = .ok o') : s.dst + o'.bytes.length ≤ s.params.bufBytes := by
  obtain ⟨rfl, hfit, -⟩ := checkDst_ok_iff.mp h
  exact hfit

/-- ENCODE's output fits BUF: its last checks are those on the destination (R180, R243). -/
theorem encodePlan_fits {o : Output} (h : encodePlan s = .ok o) : s.dst + o.bytes.length ≤ s.params.bufBytes := by
  unfold encodePlan at h
  split at h
  · cases h
  split at h
  · cases h
  split at h
  · cases h
  split at h
  · cases h
  · exact checkDst_fits h

/-- DECODE's output fits BUF (R200, R243). -/
theorem decodePlan_fits {o : Output} (h : decodePlan s = .ok o) : s.dst + o.bytes.length ≤ s.params.bufBytes := by
  unfold decodePlan at h
  split at h
  · cases h
  split at h
  · cases h
  split at h
  · cases h
  · exact checkDst_fits h

theorem execFreqCount_effect (h : execFreqCount s = .next t) : ExecEffect s .freqCount t := by
  unfold execFreqCount at h
  split at h <;> cases h
  · exact .record _ _ _
  · exact .freq (by decide) _ _ _

theorem execTreeStep_effect (h : execTreeStep s = .next t) : ExecEffect s .treeStep t := by
  unfold execTreeStep at h
  split at h
  · cases h; exact .record _ _ _
  · rename_i hbuilding
    split at h <;> cases h
    exact .merge (not_not.mp hbuilding)

theorem execCodeGen_effect (h : execCodeGen s = .next t) : ExecEffect s .codeGen t := by
  unfold execCodeGen at h
  split at h
  · cases h; exact .record _ _ _
  · rename_i hdone
    split at h <;> cases h
    exact .codes (not_not.mp hdone) ‹_› _

/-- The end that ENCODE and DECODE share: a plan whose output fits BUF is carried out, or fails. -/
theorem emit_effect {i : Instr} (hi : i ∈ [Instr.encode, .decode]) {plan : Except (ResultCode × Word) Output}
    (hfit : ∀ o, plan = .ok o → s.dst + o.bytes.length ≤ s.params.bufBytes) : ExecEffect s i (emit plan s) := by
  cases plan with
  | error e => exact .record _ _ _
  | ok o => exact .output hi o (hfit o rfl)

/-- Every completion is one of these. -/
theorem exec_effect {i : Instr} (h : exec i s = .next t) : ExecEffect s i t := by
  cases i with
  | nop => cases h; exact .record _ _ _
  | freqClear => cases h; exact .freq (by decide) _ _ _
  | freqCount => exact execFreqCount_effect h
  | treeInit => cases h; exact .newTree (by decide) (.inl rfl)
  | treeStep => exact execTreeStep_effect h
  | treeBuild => cases h; exact .newTree (by decide) (.inr rfl)
  | codeGen => exact execCodeGen_effect h
  | encode => cases h; exact emit_effect (by decide) fun _ => encodePlan_fits
  | decode => cases h; exact emit_effect (by decide) fun _ => decodePlan_fits

/-! ### The abort of a command -/

@[simp] theorem clobberOutput_params (plan : Except (ResultCode × Word) Output) :
    (clobberOutput plan s).params = s.params := by
  cases plan <;> rfl

@[simp] theorem clobber_params (i : Instr) : (clobber i s).params = s.params := by
  cases i with
  | encode => exact clobberOutput_params _
  | decode => exact clobberOutput_params _
  | _ => rfl

@[simp] theorem abort_params : (abort s).params = s.params := by
  unfold abort
  split
  · rfl
  · split
    · exact clobber_params _
    · rfl

@[simp] theorem softReset_params : (softReset s).params = s.params := abort_params

/-! ### The address map -/

/-- The addresses from which the map reaches a location (R61). -/
def Loc.ReachedFrom (p : Params) (addr : PortAddr) : Loc → Prop
  | .reg r => Reg.all[addr.toNat / 4]? = some r
  | .freq _ => 0x400 ≤ addr.toNat ∧ addr.toNat < 0x800
  | .heap _ => 0x800 ≤ addr.toNat ∧ addr.toNat < 0xC00
  | .node _ _ => 0x1000 ≤ addr.toNat ∧ addr.toNat < 0x2000
  | .ct _ _ => 0x2000 ≤ addr.toNat ∧ addr.toNat < 0x6000
  | .buf m => 0x10000 ≤ addr.toNat ∧ m = addr.toNat / 4 - 0x4000 ∧ 4 * m < p.bufBytes
  | .reserved => True

theorem locate_reachedFrom (p : Params) (addr : PortAddr) : (locate p addr).ReachedFrom p addr := by
  unfold locate
  dsimp only
  split
  · split
    · assumption
    · trivial
  split
  · exact ⟨by omega, by omega⟩
  split
  · exact ⟨by omega, by omega⟩
  split
  · trivial
  split
  · exact ⟨by omega, by omega⟩
  split
  · exact ⟨by omega, by omega⟩
  split
  · trivial
  split
  · exact ⟨by omega, rfl, ‹_›⟩
  · trivial

/-- The word number of a register is its place in the address order (R21 to R38). -/
theorem wordNumber_of_locate_reg {p : Params} {addr : PortAddr} {r : Reg} (h : locate p addr = .reg r) {k : Nat}
    (hk : Reg.all[k]? = some r) : addr.toNat / 4 = k := by
  have hreach := locate_reachedFrom p addr
  rw [h] at hreach
  obtain ⟨hlt, -⟩ := List.getElem?_eq_some_iff.mp hk
  exact ((List.getElem?_inj hlt (by decide)).mp (hk.trans hreach.symm)).symm

/-! ### One action of the host -/

/-- The state with the host's side blotted out: the enables, the acknowledged bits, the operands, the sequencer and the port. -/
def State.withoutHost (s : State) : State :=
  { s with
    doneIe := false
    errIe := false
    done := false
    errf := false
    ovr := false
    arg0 := 0
    arg1 := 0
    arg2 := 0
    seq := .idle
    inReset := false
    rdata := 0
    host := []
    delay := 0
    draws := 0 }

/-- What every host action keeps that is no reset and writes no window: all but the host's side. A command in flight stays, and
OVR isn't raised. -/
structure HostQuiet (s t : State) : Prop where
  kept : t.withoutHost = s.withoutHost
  seq : s.isBusy = true → t.seq = s.seq
  ovr : t.ovr = true → s.ovr = true

namespace HostQuiet

variable {s t : State}

theorem params (h : HostQuiet s t) : t.params = s.params := (congrArg State.params h.kept :)
theorem codesValid (h : HostQuiet s t) : t.codesValid = s.codesValid := (congrArg State.codesValid h.kept :)
theorem result (h : HostQuiet s t) : t.result = s.result := (congrArg State.result h.kept :)
theorem errInfo (h : HostQuiet s t) : t.errInfo = s.errInfo := (congrArg State.errInfo h.kept :)
theorem outLen (h : HostQuiet s t) : t.outLen = s.outLen := (congrArg State.outLen h.kept :)
theorem pad (h : HostQuiet s t) : t.pad = s.pad := (congrArg State.pad h.kept :)
theorem totalBits (h : HostQuiet s t) : t.totalBits = s.totalBits := (congrArg State.totalBits h.kept :)
theorem maxLen (h : HostQuiet s t) : t.maxLen = s.maxLen := (congrArg State.maxLen h.kept :)
theorem freq (h : HostQuiet s t) : t.freq = s.freq := (congrArg State.freq h.kept :)
theorem tree (h : HostQuiet s t) : t.tree = s.tree := (congrArg State.tree h.kept :)
theorem ct (h : HostQuiet s t) : t.ct = s.ct := (congrArg State.ct h.kept :)
theorem buf (h : HostQuiet s t) : t.buf = s.buf := (congrArg State.buf h.kept :)
theorem bufDraw (h : HostQuiet s t) : t.bufDraw = s.bufDraw := (congrArg State.bufDraw h.kept :)

theorem bufByte (h : HostQuiet s t) (x : Nat) : t.bufByte x = s.bufByte x := by
  rw [State.bufByte, State.bufByte, h.buf, h.bufDraw]

theorem refl (s : State) : HostQuiet s s := ⟨rfl, fun _ => rfl, id⟩

end HostQuiet

/-- What the host action `a` can leave of `s`. -/
inductive HostEffect (s : State) (a : HostAct) : State → Prop where
  | quiet {t : State} (h : HostQuiet s t) : HostEffect s a t
  /-- a write to CTRL with SRST = 1 (R223) -/
  | softReset (addr : PortAddr) (w : Word) (ha : a = .wr addr w) (hctrl : locate s.params addr = .reg .ctrl)
      (hsrst : w.getLsbD 31 = true) : HostEffect s a (softReset s)
  /-- rst_n goes low (R280) -/
  | hardReset (ha : a = .rstAssert) : HostEffect s a (hardReset s)
  /-- a write to CMD, FREQ or BUF while Busy (R248, R284) -/
  | dropped (addr : PortAddr) (w : Word) (ha : a = .wr addr w) (hbusy : s.isBusy = true)
      (hloc : locate s.params addr = .reg .cmd ∨ (∃ v, locate s.params addr = .freq v) ∨
        ∃ m, locate s.params addr = .buf m) : HostEffect s a (dropWrite s)
  /-- a write to FREQ while Idle (R63) -/
  | freq (v : Symbol) (w : Word) (hidle : s.isBusy = false) : HostEffect s a (writeFreq v w s)
  /-- a write to a word of BUF while Idle (R67) -/
  | buf (m : Nat) (w : Word) (hidle : s.isBusy = false) (hm : 4 * m < s.params.bufBytes) :
      HostEffect s a (s.writeBuf (4 * m) (lanes w))

theorem State.isBusy_eq_false_iff : s.isBusy = false ↔ s.seq = .idle := by
  cases hseq : s.seq <;> simp [State.isBusy, hseq]

theorem State.isBusy_of_seq {cmd a b c : Word} (h : s.seq = .busy cmd a b c) : s.isBusy = true := by
  simp [State.isBusy, h]

theorem hostRead_quiet (addr : PortAddr) (s : State) : HostQuiet s (hostRead addr s) := by
  unfold hostRead
  split <;> exact ⟨rfl, fun _ => rfl, id⟩

theorem acknowledge_quiet (w : Word) (s : State) : HostQuiet s (acknowledge w s) :=
  ⟨rfl, fun _ => rfl, fun h => (Bool.and_eq_true_iff.mp h).1⟩

theorem resetAction_quiet (a : HostAct) (s : State) : HostQuiet s (resetAction a s) := by
  cases a <;> exact ⟨rfl, fun _ => rfl, id⟩

section
variable {addr : PortAddr} {w : Word}

theorem writeCtrl_effect (hctrl : locate s.params addr = .reg .ctrl) :
    HostEffect s (.wr addr w) (writeCtrl w s) := by
  unfold writeCtrl
  split
  · exact .softReset addr w rfl hctrl ‹_›
  · exact .quiet ⟨rfl, fun _ => rfl, id⟩

theorem issue_effect (hcmd : locate s.params addr = .reg .cmd) : HostEffect s (.wr addr w) (issue w s) := by
  unfold issue
  split
  · rename_i hidle
    exact .quiet ⟨rfl, fun hbusy => by simp [State.isBusy_eq_false_iff.mpr hidle] at hbusy, id⟩
  · rename_i hbusy
    exact .dropped addr w rfl (State.isBusy_of_seq hbusy) (.inl hcmd)

theorem writeReg_effect {r : Reg} (hr : locate s.params addr = .reg r) :
    HostEffect s (.wr addr w) (writeReg r w s) := by
  cases r with
  | ctrl => exact writeCtrl_effect hr
  | status => exact .quiet (acknowledge_quiet w s)
  | cmd => exact issue_effect hr
  | _ => exact .quiet ⟨rfl, fun _ => rfl, id⟩

/-- A window write is dropped while Busy and performed while Idle (R69, R284). -/
theorem windowWrite_effect {a : HostAct} {t : State} (hbusy : s.isBusy = true → HostEffect s a (dropWrite s))
    (hidle : s.isBusy = false → HostEffect s a t) : HostEffect s a (if s.isBusy then dropWrite s else t) := by
  split
  · exact hbusy ‹_›
  · exact hidle (Bool.eq_false_of_not_eq_true ‹_›)

theorem hostWrite_effect (addr : PortAddr) (w : Word) (s : State) : HostEffect s (.wr addr w) (hostWrite addr w s) := by
  unfold hostWrite
  have hreach := locate_reachedFrom s.params addr
  cases hl : locate s.params addr with
  | reg r => exact writeReg_effect hl
  | freq v =>
    exact windowWrite_effect (fun hb => .dropped addr w rfl hb (.inr (.inl ⟨v, hl⟩))) fun hi => .freq v w hi
  | buf m =>
    simp only [hl, Loc.ReachedFrom] at hreach
    obtain ⟨-, -, hm⟩ := hreach
    exact windowWrite_effect (fun hb => .dropped addr w rfl hb (.inr (.inr ⟨m, hl⟩))) fun hi => .buf m w hi hm
  | _ => exact .quiet (.refl s)

end

theorem portAction_effect (a : HostAct) (s : State) : HostEffect s a (portAction a s) := by
  cases a with
  | rd addr => exact .quiet (hostRead_quiet addr s)
  | wr addr w => exact hostWrite_effect addr w s
  | wait => exact .quiet (hostRead_quiet statusAddr s)
  | rstAssert => exact .hardReset rfl
  | rstRelease => exact .quiet ⟨rfl, fun _ => rfl, id⟩

/-- The state once the host has begun an action: the actions `rest` and the delay `d` are left. -/
def State.withHost (s : State) (rest : List HostAct) (d : Nat) : State := { s with host := rest, delay := d }

/-- An action of the host is one of these, on the state whose host has one action less. -/
theorem hostAct_effect (a : HostAct) (rest : List HostAct) (s : State) :
    ∃ d, HostEffect (s.withHost rest d) a (hostAct a rest s) := by
  unfold hostAct
  split
  · exact ⟨s.delay, .quiet (resetAction_quiet a _)⟩
  · exact ⟨s.delay - 1, portAction_effect a _⟩

end Sys2Proof.Machine
end

section
/-! SUPPORT. The whole-machine rules of the state (10_state.md): what no command and no host action writes, and the invariants of
the configuration, of BUF and of CODES_VALID. -/

namespace Sys2Proof.Machine

/-! ### What commands write -/

/-- Settles O34: no completion writes a field of the host's side but DONE, ERRF and the sequencer. -/
theorem commandsKeepTheHostsState : Obligations.CommandsKeepTheHostsState := by
  intro i s t h
  cases exec_effect h <;> exact ⟨rfl, rfl, rfl, rfl, rfl, rfl, rfl, rfl, rfl, rfl, rfl, rfl, rfl⟩

/-- Settles O35: each group of fields is written by the completions of its own commands alone. -/
theorem commandsWriteOnlyTheirState : Obligations.CommandsWriteOnlyTheirState := by
  intro i s t h
  cases exec_effect h with
  | record => exact ⟨fun _ => rfl, fun _ => rfl, fun _ => ⟨rfl, rfl⟩, fun _ => rfl, fun _ => ⟨fun _ => rfl, rfl, rfl, rfl⟩⟩
  | freq hi =>
    exact ⟨fun hn => absurd hi hn, fun _ => rfl, fun _ => ⟨rfl, rfl⟩, fun _ => rfl, fun _ => ⟨fun _ => rfl, rfl, rfl, rfl⟩⟩
  | newTree hi =>
    refine ⟨fun _ => rfl, fun hn => ?_, fun _ => ⟨rfl, rfl⟩, fun hn => ?_, fun _ => ⟨fun _ => rfl, rfl, rfl, rfl⟩⟩
    all_goals simp at hi hn; tauto
  | merge =>
    exact ⟨fun _ => rfl, fun hn => absurd (by decide) hn, fun _ => ⟨rfl, rfl⟩, fun _ => rfl,
      fun _ => ⟨fun _ => rfl, rfl, rfl, rfl⟩⟩
  | codes =>
    exact ⟨fun _ => rfl, fun _ => rfl, fun hn => absurd rfl hn, fun hn => absurd (by decide) hn,
      fun _ => ⟨fun _ => rfl, rfl, rfl, rfl⟩⟩
  | output hi =>
    exact ⟨fun _ => rfl, fun _ => rfl, fun _ => ⟨rfl, rfl⟩, fun _ => rfl, fun hn => absurd hi hn⟩

theorem exec_params {i : Instr} {s t : State} (h : exec i s = .next t) : t.params = s.params := by
  cases exec_effect h <;> rfl

theorem exec_ovr {i : Instr} {s t : State} (h : exec i s = .next t) : t.ovr = s.ovr := by
  cases exec_effect h <;> rfl

/-! ### CFG -/

theorem hostEffect_params {s t : State} {a : HostAct} (h : HostEffect s a t) : t.params = s.params := by
  cases h with
  | quiet h => exact h.params
  | softReset => exact softReset_params
  | _ => rfl

theorem step_params {s t : State} (h : step s = .next t) : t.params = s.params := by
  obtain ⟨_, i, -, -, hexec⟩ | ⟨_, _, -, -, rfl⟩ | ⟨a, rest, -, -, rfl⟩ | ⟨-, rfl⟩ := step_next_cases h
  · exact exec_params hexec
  · rfl
  · obtain ⟨d, heffect⟩ := hostAct_effect a rest s
    exact (hostEffect_params heffect).trans rfl
  · rfl

/-- Settles O7: no completion and no host action writes BUF_BYTES, and CFG reads it. -/
theorem configurationNeverChanges : Obligations.ConfigurationNeverChanges := by
  intro s t h
  refine ⟨step_params h, ?_⟩
  rw [State.readReg, step_params h]

/-! ### OVR -/

/-- A host action that raises OVR is a dropped write. -/
theorem hostEffect_raises_ovr {s t : State} {a : HostAct} (h : HostEffect s a t) (hs : s.ovr = false) (ht : t.ovr = true) :
    s.isBusy = true ∧ ∃ addr w, a = .wr addr w ∧
      (locate s.params addr = .reg .cmd ∨ (∃ v, locate s.params addr = .freq v) ∨ ∃ m, locate s.params addr = .buf m) := by
  cases h with
  | quiet h => exact absurd (h.ovr ht) (by simp [hs])
  | softReset => cases ht
  | hardReset => cases ht
  | dropped addr w ha hbusy hloc => exact ⟨hbusy, addr, w, ha, hloc⟩
  | freq => exact absurd (hs.symm.trans ht) (by decide)
  | buf => exact absurd (hs.symm.trans ht) (by decide)

/-- The addresses at which a write can be dropped with OVR (R61). -/
theorem address_of_droppable {p : Params} {addr : PortAddr}
    (h : locate p addr = .reg .cmd ∨ (∃ v, locate p addr = .freq v) ∨ ∃ m, locate p addr = .buf m) :
    addr.toNat / 4 = 4 ∨ (0x400 ≤ addr.toNat ∧ addr.toNat < 0x800) ∨
      (0x10000 ≤ addr.toNat ∧ addr.toNat < 0x10000 + (p.bufBytes + 3) / 4 * 4) := by
  have hreach := locate_reachedFrom p addr
  obtain hcmd | ⟨v, hfreq⟩ | ⟨m, hbuf⟩ := h
  · exact .inl (wordNumber_of_locate_reg hcmd rfl)
  · simp only [hfreq, Loc.ReachedFrom] at hreach
    omega
  · simp only [hbuf, Loc.ReachedFrom] at hreach
    omega

/-- Settles O37: completions keep OVR, and the one host action that raises it is a dropped write. -/
theorem ovrMeansADroppedWrite : Obligations.OvrMeansADroppedWrite := by
  intro s t h hs ht
  obtain ⟨_, i, -, -, hexec⟩ | ⟨_, _, -, -, rfl⟩ | ⟨a, rest, -, hhost, rfl⟩ | ⟨-, rfl⟩ := step_next_cases h
  · exact absurd ((exec_ovr hexec).symm.trans ht) (by simp [hs])
  · exact absurd (hs.symm.trans ht) (by decide)
  · obtain ⟨d, heffect⟩ := hostAct_effect a rest s
    obtain ⟨hbusy, addr, w, rfl, hloc⟩ := hostEffect_raises_ovr heffect hs ht
    exact ⟨hbusy, addr, w, rest, hhost, address_of_droppable hloc⟩
  · exact absurd (hs.symm.trans ht) (by decide)

/-! ### The command in flight -/

theorem State.due_of_turn_core {s : State} {cmd : Word} (h : s.turn = .core cmd) : s.due := by
  obtain ⟨hreset, -, hdue⟩ := State.turn_of_core h
  refine ⟨hreset, ?_⟩
  cases hhost : s.host with
  | nil => exact .inr (.inl rfl)
  | cons a rest => simpa [State.hostYields, hhost, or_comm] using hdue

/-- Settles O38: until it is due, every step is the host's, and of its actions only the two resets reach the command in
flight. -/
theorem commandInFlightStaysUntilCompletion : Obligations.CommandInFlightStaysUntilCompletion := by
  intro s t cmd a b c hseq hdue h _
  have hbusy := State.isBusy_of_seq hseq
  obtain ⟨_, _, hturn, -, -⟩ | ⟨_, _, hturn, -, -⟩ | ⟨a, rest, -, hhost, rfl⟩ | ⟨-, rfl⟩ := step_next_cases h
  · exact absurd (State.due_of_turn_core hturn) hdue
  · exact absurd (State.due_of_turn_core hturn) hdue
  · obtain ⟨d, heffect⟩ := hostAct_effect a rest s
    generalize hostAct a rest s = t at heffect
    cases heffect with
    | quiet hq =>
      exact .inr (.inr ⟨hq.seq hbusy, hq.result, hq.errInfo, hq.outLen, hq.pad, hq.totalBits, hq.maxLen, hq.tree,
        hq.codesValid, hq.freq, hq.ct, hq.bufByte⟩)
    | softReset addr w ha hctrl hsrst =>
      exact .inl ⟨w, addr, rest, ha ▸ hhost, wordNumber_of_locate_reg hctrl rfl, hsrst, rfl⟩
    | hardReset ha => exact .inr (.inl ⟨rest, ha ▸ hhost, rfl⟩)
    | dropped => exact .inr (.inr ⟨rfl, rfl, rfl, rfl, rfl, rfl, rfl, rfl, rfl, rfl, rfl, fun _ => rfl⟩)
    | freq v w hidle => exact absurd (hbusy.symm.trans hidle) (by decide)
    | buf m w hidle => exact absurd (hbusy.symm.trans hidle) (by decide)
  · exact .inr (.inr ⟨rfl, rfl, rfl, rfl, rfl, rfl, rfl, rfl, rfl, rfl, rfl, fun _ => rfl⟩)

/-! ### BUF's memory form (R45) -/

section
variable {s t : State}

theorem State.MemoryOk.of_eq (h : s.MemoryOk) (hparams : t.params = s.params) (hbuf : t.buf = s.buf) : t.MemoryOk :=
  ⟨hparams ▸ h.params, hbuf ▸ h.canonical, by rw [hparams, hbuf]; exact h.inside⟩

/-- A write of consecutive bytes inside BUF keeps the memory form. -/
theorem State.MemoryOk.of_writeList (h : s.MemoryOk) {a : Nat} {bytes : List Byte}
    (hfit : a + bytes.length ≤ s.params.bufBytes) (hparams : t.params = s.params)
    (hbuf : t.buf = s.buf.writeList a bytes) : t.MemoryOk :=
  ⟨hparams ▸ h.params, hbuf ▸ Memory.writeList_wf h.canonical _ _,
    by rw [hparams, hbuf]; exact Memory.writeList_below h.inside hfit⟩

theorem State.MemoryOk.of_nil (h : s.MemoryOk) (hparams : t.params = s.params) (hbuf : t.buf = []) : t.MemoryOk :=
  ⟨hparams ▸ h.params, hbuf ▸ List.Pairwise.nil, by simp [hbuf]⟩

/-- "It is a multiple of 4" (R9), so a word of BUF that begins inside it ends inside it. -/
theorem State.MemoryOk.word_fits (h : s.MemoryOk) {m : Nat} (hm : 4 * m < s.params.bufBytes) :
    4 * m + 4 ≤ s.params.bufBytes := by
  have hlegal := h.params
  simp only [Params.legal, Bool.and_eq_true, beq_iff_eq] at hlegal
  omega

theorem exec_memoryOk {i : Instr} (h : s.MemoryOk) (hexec : exec i s = .next t) : t.MemoryOk := by
  cases exec_effect hexec with
  | output _ o hfit => exact h.of_writeList hfit rfl rfl
  | _ => exact h.of_eq rfl rfl

theorem clobberOutput_memoryOk (h : s.MemoryOk) {plan : Except (ResultCode × Word) Output}
    (hfit : ∀ o, plan = .ok o → s.dst + o.bytes.length ≤ s.params.bufBytes) : (clobberOutput plan s).MemoryOk := by
  cases plan with
  | error e => exact h
  | ok o => exact h.of_writeList (by simpa using hfit o rfl) rfl rfl

theorem clobber_memoryOk (h : s.MemoryOk) (i : Instr) : (clobber i s).MemoryOk := by
  cases i with
  | encode => exact clobberOutput_memoryOk h fun _ => encodePlan_fits
  | decode => exact clobberOutput_memoryOk h fun _ => decodePlan_fits
  | _ => exact h.of_eq rfl rfl

theorem abort_memoryOk (h : s.MemoryOk) : (abort s).MemoryOk := by
  unfold abort
  split
  · exact h
  · split
    · exact clobber_memoryOk h _
    · exact h

theorem hostEffect_memoryOk {a : HostAct} (h : s.MemoryOk) (heffect : HostEffect s a t) : t.MemoryOk := by
  cases heffect with
  | quiet hq => exact h.of_eq hq.params hq.buf
  | softReset => exact (abort_memoryOk h).of_eq rfl rfl
  | hardReset => exact h.of_nil rfl rfl
  | dropped => exact h.of_eq rfl rfl
  | freq => exact h.of_eq rfl rfl
  | buf m w _ hm => exact h.of_writeList (h.word_fits hm) rfl rfl

/-! ### What CODES_VALID means (R24) -/

theorem State.CodesCurrent.of_eq (h : s.CodesCurrent) (hvalid : t.codesValid = s.codesValid) (htree : t.tree = s.tree)
    (hct : t.ct = s.ct) : t.CodesCurrent := by
  rw [State.CodesCurrent, hvalid, htree, hct]
  exact h

theorem State.codesCurrent_of_invalid (h : t.codesValid = false) : t.CodesCurrent :=
  fun hvalid => absurd (h.symm.trans hvalid) (by decide)

theorem exec_codesCurrent {i : Instr} (h : s.CodesCurrent) (hexec : exec i s = .next t) : t.CodesCurrent := by
  cases exec_effect hexec with
  | newTree => exact State.codesCurrent_of_invalid rfl
  | merge hbuilding =>
    intro hvalid
    obtain ⟨hdone, -⟩ := h hvalid
    exact absurd (hbuilding.symm.trans hdone) (by decide)
  | codes hdone hcodes => exact fun _ => ⟨hdone, hcodes⟩
  | _ => exact h.of_eq rfl rfl rfl

theorem hostEffect_codesCurrent {a : HostAct} (h : s.CodesCurrent) (heffect : HostEffect s a t) : t.CodesCurrent := by
  cases heffect with
  | quiet hq => exact h.of_eq hq.codesValid hq.tree hq.ct
  | softReset => exact State.codesCurrent_of_invalid rfl
  | hardReset => exact State.codesCurrent_of_invalid rfl
  | _ => exact h.of_eq rfl rfl rfl

end

/-- Settles O56: only ENCODE, DECODE, an aborted one of them and a BUF write write BUF, and each writes inside it. -/
theorem stepKeepsTheMemoryForm : Obligations.StepKeepsTheMemoryForm := by
  intro s t hs h
  obtain ⟨_, i, -, -, hexec⟩ | ⟨_, _, -, -, rfl⟩ | ⟨a, rest, -, -, rfl⟩ | ⟨-, rfl⟩ := step_next_cases h
  · exact exec_memoryOk hs hexec
  · exact hs.of_eq rfl rfl
  · obtain ⟨d, heffect⟩ := hostAct_effect a rest s
    exact hostEffect_memoryOk (s := s.withHost rest d) (hs.of_eq rfl rfl) heffect
  · exact hs

/-- Settles O58: CODE_GEN sets CODES_VALID with the codes of the complete tree; what changes the tree or CT afterwards clears
it. -/
theorem stepKeepsCodesCurrent : Obligations.StepKeepsCodesCurrent := by
  intro s t hs h
  obtain ⟨_, i, -, -, hexec⟩ | ⟨_, _, -, -, rfl⟩ | ⟨a, rest, -, -, rfl⟩ | ⟨-, rfl⟩ := step_next_cases h
  · exact exec_codesCurrent hs hexec
  · exact hs.of_eq rfl rfl rfl
  · obtain ⟨d, heffect⟩ := hostAct_effect a rest s
    exact hostEffect_codesCurrent (s := s.withHost rest d) (hs.of_eq rfl rfl rfl) heffect
  · exact hs

end Sys2Proof.Machine
end

section
/-! SUPPORT. The tree builder keeps its invariant (10_state.md R41 to R43, 41_tree.md R133 to R137): TREE_INIT loads a forest of
leaves, a merge joins the two least roots of a forest, and both leave the heap in order and the counters in agreement. -/

namespace Sys2Proof.Machine

namespace TreeMem

/-! ### Facts about the arena that read NODE alone -/

section
variable {t u : TreeMem}

theorem nodeAt_congr (h : u.node = t.node) (n : NodeIdx) : u.nodeAt n = t.nodeAt n := by
  rw [nodeAt, nodeAt, h]

theorem weightOf_congr {n : NodeIdx} (h : u.nodeAt n = t.nodeAt n) : u.weightOf n = t.weightOf n := by
  rw [weightOf, weightOf, h]

@[simp] theorem nodeAt_heapInsert (t : TreeMem) (n m : NodeIdx) : (t.heapInsert n).nodeAt m = t.nodeAt m :=
  nodeAt_congr (heapInsert_node t n) m

@[simp] theorem nodeAt_heapRest (t : TreeMem) (m : NodeIdx) : t.heapRest.nodeAt m = t.nodeAt m :=
  nodeAt_congr (heapRest_node t) m

theorem mem_queue {n : NodeIdx} : n ∈ t.queue ↔ ∃ i < t.heapSize.toNat, t.heapAt i = n := by
  simp [queue]

/-- Heap order reads HEAP and the weights of the queue's nodes alone. -/
theorem HeapOrder.congr (h : t.HeapOrder) (hheap : u.heap = t.heap) (hsize : u.heapSize = t.heapSize)
    (hnode : ∀ n ∈ t.queue, u.nodeAt n = t.nodeAt n) : u.HeapOrder := by
  intro i hi hlt
  rw [hsize] at hlt
  have hmem (j : Nat) (hj : j < t.heapSize.toNat) : u.nodeAt (t.heapAt j) = t.nodeAt (t.heapAt j) :=
    hnode _ (mem_queue.mpr ⟨j, hj, rfl⟩)
  have hat (j : Nat) : u.heapAt j = t.heapAt j := by rw [heapAt, heapAt, hheap]
  rw [hat, hat, less, hmem _ (by omega), hmem _ hlt]
  exact h i hi hlt

end

/-! ### The empty tree -/

/-- With nothing in the queue and no leaf the tree builder's state is sound, whatever NODE and HEAP hold (R50, R134). -/
theorem ok_of_empty {t : TreeMem} (hstate : t.state = .empty) (hsize : t.heapSize = 0) (hleaf : t.nleaf = 0)
    (hint : t.nint = 0) (hroot : t.root = 0) : t.Ok where
  counts :=
    { sum := by simp [hsize, hint, hleaf]
      bound := by simp [hleaf]
      empty_iff := by simp [hstate, hsize]
      done_iff := by simp [hstate, hsize]
      no_leaf := fun _ => hleaf
      root := by simp [hstate, hroot] }
  order := fun h => absurd hstate h
  shape := fun h => absurd hstate h

/-! ### The loop of TREE_INIT -/

/-- The index of a symbol's leaf (R42). -/
def leafIndex (v : Symbol) : NodeIdx := v.setWidth 9

theorem toNat_leafIndex (v : Symbol) : (leafIndex v).toNat = v.toNat := by
  rw [leafIndex, BitVec.toNat_setWidth]
  exact Nat.mod_eq_of_lt (by omega)

theorem leafIndex_injective : Function.Injective leafIndex := by
  intro v w h
  have := congrArg BitVec.toNat h
  rw [toNat_leafIndex, toNat_leafIndex] at this
  exact BitVec.eq_of_toNat_eq this

theorem leafIndex_setWidth {n : NodeIdx} (h : n.toNat < 256) : leafIndex (n.setWidth 8) = n := by
  refine BitVec.eq_of_toNat_eq ?_
  rw [toNat_leafIndex, BitVec.toNat_setWidth]
  exact Nat.mod_eq_of_lt h

/-- The symbols of the list that FREQ counts. -/
def presentIn (freq : Vector Word 256) (vs : List Symbol) : List Symbol := vs.filter (fun v => decide (freqAt freq v ≠ 0))

/-- What the loop of TREE_INIT has made of the cleared tree once it has passed the symbols `vs` (R134): their leaves, the queue of
them in heap order, and the counters. -/
structure Loaded (freq : Vector Word 256) (vs : List Symbol) (t : TreeMem) : Prop where
  queue : t.queue.Perm ((presentIn freq vs).map leafIndex)
  order : t.HeapOrder
  nleaf : t.nleaf = t.heapSize
  nint : t.nint = 0
  leaf : ∀ v ∈ presentIn freq vs, t.nodeAt (leafIndex v) = leafNode (freqAt freq v)
  other : ∀ n ∉ (presentIn freq vs).map leafIndex, t.nodeAt n = Node.zero

section
variable {freq : Vector Word 256} {vs : List Symbol} {t : TreeMem}

theorem Loaded.heapSize (h : Loaded freq vs t) : t.heapSize.toNat = (presentIn freq vs).length := by
  rw [← length_queue, h.queue.length_eq, List.length_map]

theorem loaded_clear (freq : Vector Word 256) (t : TreeMem) : Loaded freq [] t.clear where
  queue := by simp [TreeMem.queue, clear, presentIn]
  order := fun i _ hlt => absurd hlt (by simp [clear])
  nleaf := rfl
  nint := rfl
  leaf := by simp [presentIn]
  other := fun n _ => by
    rw [nodeAt, clear, tabulate_getElem?]
    split <;> rfl

theorem addLeaf_of_absent {v : Symbol} (h : freqAt freq v = 0) : t.addLeaf freq v = t := if_pos h

/-- The tree with the leaf of `v` in the arena, not yet in the queue. -/
def withLeaf (freq : Vector Word 256) (t : TreeMem) (v : Symbol) : TreeMem :=
  t.setNode (leafIndex v) (leafNode (freqAt freq v))

theorem addLeaf_of_present {v : Symbol} (h : freqAt freq v ≠ 0) :
    t.addLeaf freq v =
      { (t.withLeaf freq v).heapInsert (leafIndex v) with nleaf := t.nleaf + 1 } := by
  rw [addLeaf, if_neg h]
  simp only [heapInsert_nleaf]
  rfl

theorem nodeAt_withLeaf (v : Symbol) (n : NodeIdx) :
    (t.withLeaf freq v).nodeAt n = if leafIndex v = n then leafNode (freqAt freq v) else t.nodeAt n := by
  rw [withLeaf, nodeAt_setNode]
  by_cases h : leafIndex v = n
  · have hlt : n.toNat < 511 := by rw [← h, toNat_leafIndex]; omega
    rw [if_pos ⟨h, hlt⟩, if_pos h]
  · rw [if_neg (fun e => h e.1), if_neg h]

theorem presentIn_append_of_absent {v : Symbol} (h : freqAt freq v = 0) :
    presentIn freq (vs ++ [v]) = presentIn freq vs := by
  simpa [presentIn] using h

theorem presentIn_append_of_present {v : Symbol} (h : freqAt freq v ≠ 0) :
    presentIn freq (vs ++ [v]) = presentIn freq vs ++ [v] := by
  simpa [presentIn] using h

theorem Loaded.queue_nodup (h : Loaded freq vs t) (hvs : vs.Nodup) : t.queue.Nodup :=
  h.queue.nodup_iff.mpr ((hvs.filter _).map leafIndex_injective)

/-- The leaf of a symbol that the loop has not passed is not among those loaded. -/
theorem leafIndex_notMem {v : Symbol} (hv : v ∉ vs) : leafIndex v ∉ (presentIn freq vs).map leafIndex := by
  rw [List.mem_map_of_injective leafIndex_injective]
  exact fun hmem => hv (List.mem_of_mem_filter hmem)

/-- One pass of the loop: a new symbol with a nonzero frequency enters (R134). -/
theorem Loaded.addLeaf_present {v : Symbol} (h : Loaded freq vs t) (hnodup : (vs ++ [v]).Nodup) (hlen : vs.length < 256)
    (hpresent : freqAt freq v ≠ 0) : Loaded freq (vs ++ [v]) (t.addLeaf freq v) := by
  obtain ⟨hvs, -, hdisjoint⟩ := List.nodup_append.mp hnodup
  have hnew := leafIndex_notMem (freq := freq) (fun hmem => hdisjoint v hmem v (List.mem_singleton_self v) rfl)
  have hroom : (t.withLeaf freq v).heapSize.toNat < 256 :=
    calc t.heapSize.toNat = (presentIn freq vs).length := h.heapSize
      _ ≤ vs.length := List.length_filter_le _ _
      _ < 256 := hlen
  have hnotin : leafIndex v ∉ t.queue := fun hmem => hnew (h.queue.mem_iff.mp hmem)
  rw [addLeaf_of_present hpresent]
  refine ⟨?queue, ?order, ?nleaf, ?nint, fun x hx => ?leaf, fun n hn => ?other⟩
  case queue =>
    rw [presentIn_append_of_present hpresent, List.map_append]
    exact (queue_heapInsert (t.withLeaf freq v) (leafIndex v) hroom).trans
      ((h.queue.cons _).trans (List.perm_append_singleton _ _).symm)
  case order =>
    refine order_heapInsert (t.withLeaf freq v) (leafIndex v) hroom (h.order.congr rfl rfl fun n hn => ?_)
      (h.queue_nodup hvs) hnotin
    rw [nodeAt_withLeaf, if_neg fun e : leafIndex v = n => hnotin (e ▸ hn)]
  case nleaf =>
    show t.nleaf + 1 = ((t.withLeaf freq v).heapInsert (leafIndex v)).heapSize
    rw [heapInsert_heapSize, h.nleaf]
    rfl
  case nint => exact (heapInsert_nint (t.withLeaf freq v) (leafIndex v)).trans h.nint
  case leaf =>
    show ((t.withLeaf freq v).heapInsert (leafIndex v)).nodeAt (leafIndex x) = _
    rw [nodeAt_heapInsert, nodeAt_withLeaf]
    rw [presentIn_append_of_present hpresent, List.mem_append, List.mem_singleton] at hx
    obtain hold | rfl := hx
    · rw [if_neg fun e : leafIndex v = leafIndex x => hnew (e ▸ List.mem_map_of_mem hold), h.leaf x hold]
    · rw [if_pos rfl]
  case other =>
    show ((t.withLeaf freq v).heapInsert (leafIndex v)).nodeAt n = _
    rw [presentIn_append_of_present hpresent, List.map_append, List.mem_append, not_or] at hn
    obtain ⟨hold, hne⟩ := hn
    rw [nodeAt_heapInsert, nodeAt_withLeaf, if_neg (fun e => hne (by simp [e])), h.other n hold]

theorem Loaded.addLeaf {v : Symbol} (h : Loaded freq vs t) (hnodup : (vs ++ [v]).Nodup) (hlen : vs.length < 256) :
    Loaded freq (vs ++ [v]) (t.addLeaf freq v) := by
  by_cases hzero : freqAt freq v = 0
  · have hsame := presentIn_append_of_absent (vs := vs) hzero
    rw [addLeaf_of_absent hzero]
    exact ⟨hsame ▸ h.queue, h.order, h.nleaf, h.nint, hsame ▸ h.leaf, hsame ▸ h.other⟩
  · exact h.addLeaf_present hnodup hlen hzero

theorem Loaded.foldl {ws : List Symbol} (h : Loaded freq vs t) (hnodup : (vs ++ ws).Nodup)
    (hlen : (vs ++ ws).length ≤ 256) : Loaded freq (vs ++ ws) (ws.foldl (TreeMem.addLeaf freq) t) := by
  induction ws generalizing vs t with
  | nil => simpa using h
  | cons v ws ih =>
    have hsplit : vs ++ v :: ws = vs ++ [v] ++ ws := by simp
    rw [hsplit] at hnodup hlen ⊢
    refine ih (h.addLeaf hnodup.of_append_left ?_) hnodup hlen
    simp only [List.length_append, List.length_singleton] at hlen
    omega

theorem length_symbols : symbols.length = 256 := tabulateList_length _ _ _

theorem loaded_load (freq : Vector Word 256) (t : TreeMem) : Loaded freq symbols (t.load freq) :=
  (loaded_clear freq t).foldl symbols_nodup length_symbols.le

/-! ### The forest of leaves that TREE_INIT leaves -/

theorem Loaded.nodeAt_cases (h : Loaded freq vs t) (n : NodeIdx) :
    (∃ v ∈ presentIn freq vs, n = leafIndex v ∧ t.nodeAt n = leafNode (freqAt freq v)) ∨
      (n ∉ (presentIn freq vs).map leafIndex ∧ t.nodeAt n = Node.zero) := by
  by_cases hn : n ∈ (presentIn freq vs).map leafIndex
  · obtain ⟨v, hv, rfl⟩ := List.mem_map.mp hn
    exact .inl ⟨v, hv, rfl, h.leaf v hv⟩
  · exact .inr ⟨hn, h.other n hn⟩

theorem Loaded.valid_iff (h : Loaded freq vs t) (n : NodeIdx) :
    (t.nodeAt n).valid = true ↔ n ∈ (presentIn freq vs).map leafIndex := by
  obtain ⟨v, hv, rfl, hnode⟩ | ⟨hn, hnode⟩ := h.nodeAt_cases n
  · exact ⟨fun _ => List.mem_map_of_mem hv, fun _ => by rw [hnode]; rfl⟩
  · exact ⟨fun hvalid => by simp [hnode, Node.zero] at hvalid, fun hmem => absurd hmem hn⟩

theorem Loaded.leaf_of_valid (h : Loaded freq vs t) {n : NodeIdx} (hvalid : (t.nodeAt n).valid = true) :
    ∃ v ∈ presentIn freq vs, n = leafIndex v ∧ t.nodeAt n = leafNode (freqAt freq v) :=
  (h.nodeAt_cases n).resolve_right fun hother => hother.1 ((h.valid_iff n).mp hvalid)

theorem Loaded.nodeAt_high (h : Loaded freq vs t) {n : NodeIdx} (hn : 256 ≤ n.toNat) : t.nodeAt n = Node.zero := by
  obtain ⟨v, -, rfl, -⟩ | ⟨-, hnode⟩ := h.nodeAt_cases n
  · rw [toNat_leafIndex] at hn
    omega
  · exact hnode

theorem Loaded.owned_eq (h : Loaded freq vs t) : t.owned = t.queue := by
  simp [owned, internals, h.nint]

theorem Loaded.leaves_eq (h : Loaded freq symbols t) : t.leaves = presentIn freq symbols := by
  refine List.filter_congr fun v _ => ?_
  have hvalid := h.valid_iff (leafIndex v)
  rw [List.mem_map_of_injective leafIndex_injective, presentIn, List.mem_filter] at hvalid
  simp only [mem_symbols, true_and] at hvalid
  exact Bool.eq_iff_iff.mpr hvalid

theorem weight_leafNode (f : Word) : (leafNode f).weight.toNat = f.toNat := by
  rw [leafNode, BitVec.toNat_setWidth]
  exact Nat.mod_eq_of_lt (by omega)

theorem Loaded.shape (h : Loaded freq symbols t) : t.Shape where
  low_leaf n _ hvalid := by
    obtain ⟨v, -, -, hnode⟩ := h.leaf_of_valid hvalid
    rw [hnode]; rfl
  high_valid n hn := by
    rw [h.nodeAt_high hn, h.nint]
    simpa [Node.zero] using hn
  high_internal n hn := by rw [h.nodeAt_high hn]; rfl
  leaf_weight n hvalid _ := by
    obtain ⟨v, hv, -, hnode⟩ := h.leaf_of_valid hvalid
    have hpresent : freqAt freq v ≠ 0 := by simpa [presentIn] using (List.mem_filter.mp hv).2
    rw [weightOf, hnode, weight_leafNode]
    have : (freqAt freq v).toNat ≠ 0 := fun e => hpresent (BitVec.eq_of_toNat_eq e)
    omega
  leaf_count := by rw [h.leaves_eq, h.nleaf, h.heapSize]
  children n hvalid hinternal := by
    obtain ⟨v, -, -, hnode⟩ := h.leaf_of_valid hvalid
    rw [hnode] at hinternal; cases hinternal
  weight n hvalid hinternal := by
    obtain ⟨v, -, -, hnode⟩ := h.leaf_of_valid hvalid
    rw [hnode] at hinternal; cases hinternal
  owned_once := h.owned_eq ▸ h.queue_nodup symbols_nodup
  owned_valid n := by rw [h.owned_eq, h.valid_iff, h.queue.mem_iff]

/-- The shape does not read TREE_STATE and ROOT. -/
theorem Shape.withState (h : t.Shape) (state : TreeState) (root : NodeIdx) :
    { t with state := state, root := root }.Shape :=
  ⟨h.low_leaf, h.high_valid, h.high_internal, h.leaf_weight, h.leaf_count, h.children, h.weight, h.owned_once,
    h.owned_valid⟩

/-- The last lines of TREE_INIT leave a sound tree (R134). -/
theorem Loaded.settle_ok (h : Loaded freq symbols t) : t.settle.Ok := by
  have hbound : t.heapSize.toNat ≤ 256 :=
    calc t.heapSize.toNat = (presentIn freq symbols).length := h.heapSize
      _ ≤ symbols.length := List.length_filter_le _ _
      _ = 256 := length_symbols
  have hsum : t.heapSize.toNat + t.nint.toNat = t.nleaf.toNat := by rw [h.nint, h.nleaf]; rfl
  have hleaf := h.nleaf
  unfold settle
  split
  · rename_i hzero
    exact ok_of_empty rfl (hleaf ▸ hzero) hzero h.nint rfl
  rename_i hsome
  have hsize : t.heapSize ≠ 0 := hleaf ▸ hsome
  split
  · rename_i hone
    exact
      { counts := ⟨hsum, hleaf ▸ hbound, by simp [hone], by simp [hone], by simp, rfl⟩
        order := fun _ => h.order
        shape := fun _ => h.shape.withState _ _ }
  · rename_i hmany
    exact
      { counts := ⟨hsum, hleaf ▸ hbound, by simpa using hsize, by simpa using hmany, by simp, rfl⟩
        order := fun _ => h.order
        shape := fun _ => h.shape.withState _ _ }

end

/-- TREE_INIT leaves a sound tree, whatever it began from (R134). -/
theorem init_ok (freq : Vector Word 256) (t : TreeMem) : (t.init freq).Ok := (loaded_load freq t).settle_ok

/-! ### The weight of a forest -/

section
variable {t u : TreeMem}

theorem Shape.valid_of_queue (h : t.Shape) {n : NodeIdx} (hn : n ∈ t.queue) : (t.nodeAt n).valid = true :=
  (h.owned_valid n).mp (List.mem_append_left _ hn)

theorem Shape.queue_nodup (h : t.Shape) : t.queue.Nodup := h.owned_once.of_append_left

theorem Shape.lt_of_valid (h : t.Shape) {n : NodeIdx} (hn : (t.nodeAt n).valid = true) : n.toNat < 256 + t.nint.toNat := by
  by_cases hhigh : 256 ≤ n.toNat
  · exact (h.high_valid n hhigh).mp hn
  · omega

theorem mem_internals (hint : t.nint.toNat ≤ 255) {n : NodeIdx} :
    n ∈ t.internals ↔ 256 ≤ n.toNat ∧ n.toNat < 256 + t.nint.toNat := by
  simp only [internals, List.mem_map, List.mem_range]
  constructor
  · rintro ⟨k, hk, rfl⟩
    rw [BitVec.toNat_ofNat]
    omega
  · rintro ⟨hlow, hhigh⟩
    exact ⟨n.toNat - 256, by omega, by rw [Nat.add_sub_cancel' hlow, BitVec.ofNat_toNat, BitVec.setWidth_eq]⟩

theorem internals_nodup (hint : t.nint.toNat ≤ 255) : t.internals.Nodup := by
  refine List.Nodup.map_on (fun a ha b hb e => ?_) List.nodup_range
  have he := congrArg BitVec.toNat e
  rw [BitVec.toNat_ofNat, BitVec.toNat_ofNat] at he
  simp only [List.mem_range] at ha hb
  omega

theorem mem_leaves {v : Symbol} : v ∈ t.leaves ↔ (t.nodeAt (leafIndex v)).valid = true := by
  simp [leaves, mem_symbols, leafIndex]

/-- The valid nodes are the leaves and the internal nodes, so the forest refers to each of these exactly once (R43). -/
theorem Shape.owned_perm (h : t.Shape) (hint : t.nint.toNat ≤ 255) :
    t.owned.Perm (t.leaves.map leafIndex ++ t.internals) := by
  have hleaf {n : NodeIdx} (hn : n ∈ t.leaves.map leafIndex) : n.toNat < 256 := by
    obtain ⟨v, -, rfl⟩ := List.mem_map.mp hn
    rw [toNat_leafIndex]
    omega
  have hnodup : (t.leaves.map leafIndex ++ t.internals).Nodup := by
    refine List.nodup_append.mpr ⟨(symbols_nodup.filter _).map leafIndex_injective, internals_nodup hint, ?_⟩
    rintro n hn m hm rfl
    have := hleaf hn
    obtain ⟨hhigh, -⟩ := (mem_internals hint).mp hm
    omega
  refine (List.perm_ext_iff_of_nodup h.owned_once hnodup).mpr fun n => ?_
  rw [h.owned_valid, List.mem_append, mem_internals hint]
  by_cases hhigh : 256 ≤ n.toNat
  · rw [h.high_valid n hhigh]
    exact ⟨fun hlt => .inr ⟨hhigh, hlt⟩, fun hor => hor.elim (fun hn => by have := hleaf hn; omega) And.right⟩
  · rw [← leafIndex_setWidth (n := n) (by omega), List.mem_map_of_injective leafIndex_injective, mem_leaves,
      toNat_leafIndex]
    exact ⟨.inl, fun hor => hor.resolve_right (by omega)⟩

/-- The weights of the nodes listed, added up. -/
def weightSum (t : TreeMem) (ns : List NodeIdx) : Nat := (ns.map t.weightOf).sum

theorem weightSum_append (ns ms : List NodeIdx) : t.weightSum (ns ++ ms) = t.weightSum ns + t.weightSum ms := by
  simp [weightSum]

theorem weightSum_perm {ns ms : List NodeIdx} (h : ns.Perm ms) : t.weightSum ns = t.weightSum ms :=
  (h.map t.weightOf).sum_eq

/-- The children of internal nodes weigh together what those nodes weigh (R43). -/
theorem Shape.weightSum_children (h : t.Shape) {ns : List NodeIdx}
    (hns : ∀ n ∈ ns, (t.nodeAt n).valid = true ∧ (t.nodeAt n).leaf = false) :
    t.weightSum (ns.flatMap fun n => [(t.nodeAt n).left, (t.nodeAt n).right]) = t.weightSum ns := by
  induction ns with
  | nil => rfl
  | cons n ns ih =>
    obtain ⟨hvalid, hinternal⟩ := hns n (List.mem_cons_self ..)
    have htail := ih fun m hm => hns m (List.mem_cons_of_mem n hm)
    rw [List.flatMap_cons, weightSum_append, htail]
    simp only [weightSum, List.map_cons, List.map_nil, List.sum_cons, List.sum_nil, h.weight n hvalid hinternal]
    omega

/-- The roots of the forest weigh together what its leaves weigh, since every other node is a child once. -/
theorem Shape.weightSum_queue (h : t.Shape) (hint : t.nint.toNat ≤ 255) :
    t.weightSum t.queue = t.weightSum (t.leaves.map leafIndex) := by
  have hinternals : ∀ n ∈ t.internals, (t.nodeAt n).valid = true ∧ (t.nodeAt n).leaf = false := by
    intro n hn
    obtain ⟨hhigh, hlt⟩ := (mem_internals hint).mp hn
    exact ⟨(h.high_valid n hhigh).mpr hlt, h.high_internal n hhigh⟩
  have hperm := t.weightSum_perm (h.owned_perm hint)
  rw [owned, weightSum_append, weightSum_append, h.weightSum_children hinternals] at hperm
  omega

/-- "The weight sum is at most 256 × (2^32 − 1)" (R136). -/
theorem Shape.weightSum_queue_lt (h : t.Shape) (hint : t.nint.toNat ≤ 255) (hleaf : t.nleaf.toNat ≤ 256) :
    t.weightSum t.queue < 2 ^ 40 := by
  have hle : ∀ w ∈ (t.leaves.map leafIndex).map t.weightOf, w ≤ 0xFFFFFFFF := by
    intro w hw
    obtain ⟨n, hn, rfl⟩ := List.mem_map.mp hw
    obtain ⟨v, hv, rfl⟩ := List.mem_map.mp hn
    have hvalid := mem_leaves.mp hv
    exact (h.leaf_weight _ hvalid (h.low_leaf _ (by rw [toNat_leafIndex]; omega) hvalid)).2
  have hsum := List.sum_le_card_nsmul _ _ hle
  rw [List.length_map, List.length_map, h.leaf_count, smul_eq_mul] at hsum
  rw [h.weightSum_queue hint, weightSum]
  omega

/-! ### A merge (R136) -/

/-- NODE and NINT with the node that joins `a` and `b`, which is not yet in the queue. -/
def arenaJoin (t : TreeMem) (a b : NodeIdx) : TreeMem :=
  { t.setNode t.nextInternal (t.joinNode a b) with nint := t.nint + 1 }

/-- The last line of a merge: one node in the queue completes the tree. -/
def complete (t : TreeMem) : TreeMem := if t.heapSize = 1 then { t with state := .done, root := t.heapAt 0 } else t

/-- `u` is `t` with the nodes `a` and `b` taken from the queue, of which `rest` is left, and the node that joins them put in. -/
structure Joins (t u : TreeMem) (a b : NodeIdx) (rest : List NodeIdx) : Prop where
  before : t.queue.Perm (a :: b :: rest)
  after : u.queue.Perm (t.nextInternal :: rest)
  node : ∀ m, u.nodeAt m = if m = t.nextInternal then t.joinNode a b else t.nodeAt m
  nleaf : u.nleaf = t.nleaf
  nint : u.nint = t.nint + 1

theorem toNat_nextInternal (hint : t.nint.toNat ≤ 254) : t.nextInternal.toNat = 256 + t.nint.toNat := by
  rw [nextInternal, BitVec.toNat_add]
  exact Nat.mod_eq_of_lt (by simp; omega)

theorem nodeAt_arenaJoin (hint : t.nint.toNat ≤ 254) (a b m : NodeIdx) :
    (t.arenaJoin a b).nodeAt m = if m = t.nextInternal then t.joinNode a b else t.nodeAt m := by
  show (t.setNode t.nextInternal (t.joinNode a b)).nodeAt m = _
  rw [nodeAt_setNode]
  by_cases h : m = t.nextInternal
  · have hlt : m.toNat < 511 := by rw [h, toNat_nextInternal hint]; omega
    rw [if_pos ⟨h.symm, hlt⟩, if_pos h]
  · rw [if_neg fun e : t.nextInternal = m ∧ m.toNat < 511 => h e.1.symm, if_neg h]

@[simp] theorem arenaJoin_heap (t : TreeMem) (a b : NodeIdx) : (t.arenaJoin a b).heap = t.heap := rfl

@[simp] theorem arenaJoin_heapSize (t : TreeMem) (a b : NodeIdx) : (t.arenaJoin a b).heapSize = t.heapSize := rfl

@[simp] theorem arenaJoin_queue (t : TreeMem) (a b : NodeIdx) : (t.arenaJoin a b).queue = t.queue := rfl

/-- What is left of the heap once the two least nodes are out (R136). -/
def twoLess (t : TreeMem) : TreeMem := t.heapRest.heapRest

/-- The second node that a merge extracts. -/
def secondLeast (t : TreeMem) : NodeIdx := t.heapRest.heapAt 0

theorem twoLess_nextInternal (t : TreeMem) : t.twoLess.nextInternal = t.nextInternal := by
  simp [twoLess, nextInternal]

theorem twoLess_joinNode (t : TreeMem) (a b : NodeIdx) : t.twoLess.joinNode a b = t.joinNode a b := by
  simp [twoLess, joinNode]

theorem merge_eq (t : TreeMem) :
    t.merge = ((t.twoLess.arenaJoin (t.heapAt 0) t.secondLeast).heapInsert t.twoLess.nextInternal).complete := rfl

theorem toNat_heapRest_heapSize (h : 1 ≤ t.heapSize.toNat) : t.heapRest.heapSize.toNat = t.heapSize.toNat - 1 := by
  rw [heapRest_heapSize, BitVec.toNat_sub]
  simp
  omega

/-- The two nodes that a merge extracts, and the rest of the queue. -/
theorem queue_twoLess (h : 2 ≤ t.heapSize.toNat) (h' : t.heapSize.toNat ≤ 256) :
    t.queue.Perm (t.heapAt 0 :: t.secondLeast :: t.twoLess.queue) := by
  have hsize := toNat_heapRest_heapSize (t := t) (by omega)
  exact (t.queue_heapRest (by omega) h').trans ((t.heapRest.queue_heapRest (by omega) (by omega)).cons _)

theorem order_twoLess (h : 2 ≤ t.heapSize.toNat) (h' : t.heapSize.toNat ≤ 256) (ho : t.HeapOrder)
    (hnodup : t.queue.Nodup) : t.twoLess.HeapOrder := by
  have hsize := toNat_heapRest_heapSize (t := t) (by omega)
  have hrest : t.heapRest.queue.Nodup := ((t.queue_heapRest (by omega) h').nodup_iff.mp hnodup).of_cons
  exact t.heapRest.order_heapRest (by omega) (by omega) (t.order_heapRest (by omega) h' ho hnodup) hrest

@[simp] theorem queue_complete (t : TreeMem) : t.complete.queue = t.queue := by
  unfold complete
  split <;> rfl

@[simp] theorem nodeAt_complete (t : TreeMem) (n : NodeIdx) : t.complete.nodeAt n = t.nodeAt n := by
  unfold complete
  split <;> rfl

@[simp] theorem nleaf_complete (t : TreeMem) : t.complete.nleaf = t.nleaf := by
  unfold complete
  split <;> rfl

@[simp] theorem nint_complete (t : TreeMem) : t.complete.nint = t.nint := by
  unfold complete
  split <;> rfl

@[simp] theorem heapSize_complete (t : TreeMem) : t.complete.heapSize = t.heapSize := by
  unfold complete
  split <;> rfl

theorem HeapOrder.complete (h : t.HeapOrder) : t.complete.HeapOrder := by
  unfold TreeMem.complete
  split <;> exact h

theorem toNat_twoLess_heapSize (h : 2 ≤ t.heapSize.toNat) : t.twoLess.heapSize.toNat = t.heapSize.toNat - 2 := by
  have hsize := toNat_heapRest_heapSize (t := t) (by omega)
  rw [twoLess, toNat_heapRest_heapSize (by omega), hsize]
  omega

/-- A merge joins the two nodes that it extracts. -/
theorem merge_joins (h : 2 ≤ t.heapSize.toNat) (h' : t.heapSize.toNat ≤ 256) (hint : t.nint.toNat ≤ 254) :
    Joins t t.merge (t.heapAt 0) t.secondLeast t.twoLess.queue where
  before := queue_twoLess h h'
  after := by
    have hroom : (t.twoLess.arenaJoin (t.heapAt 0) t.secondLeast).heapSize.toNat < 256 := by
      rw [arenaJoin_heapSize, toNat_twoLess_heapSize h]
      omega
    rw [merge_eq, queue_complete, twoLess_nextInternal, ← arenaJoin_queue t.twoLess (t.heapAt 0) t.secondLeast]
    exact queue_heapInsert _ _ hroom
  node m := by
    have hint' : t.twoLess.nint.toNat ≤ 254 := by simpa [twoLess] using hint
    rw [merge_eq, nodeAt_complete, nodeAt_heapInsert, nodeAt_arenaJoin hint', twoLess_nextInternal, twoLess_joinNode]
    simp [twoLess]
  nleaf := by
    rw [merge_eq, nleaf_complete, heapInsert_nleaf]
    simp [twoLess, arenaJoin, setNode]
  nint := by
    rw [merge_eq, nint_complete, heapInsert_nint]
    simp [twoLess, arenaJoin]

/-! ### A merge keeps the forest -/

/-- The index of the next internal node is not in use. -/
theorem Shape.nextInternal_invalid (h : t.Shape) (hint : t.nint.toNat ≤ 254) :
    (t.nodeAt t.nextInternal).valid = false := by
  refine Bool.eq_false_of_not_eq_true fun hvalid => ?_
  have hlt := h.lt_of_valid hvalid
  rw [toNat_nextInternal hint] at hlt
  omega

theorem Shape.ne_nextInternal (h : t.Shape) (hint : t.nint.toNat ≤ 254) {n : NodeIdx}
    (hn : (t.nodeAt n).valid = true) : n ≠ t.nextInternal := by
  rintro rfl
  exact absurd (hn.symm.trans (h.nextInternal_invalid hint)) (by decide)

/-- The heap stays in order: the new node reaches a queue that is, and that it is not in. -/
theorem merge_order (h : 2 ≤ t.heapSize.toNat) (h' : t.heapSize.toNat ≤ 256) (hint : t.nint.toNat ≤ 254)
    (ho : t.HeapOrder) (hs : t.Shape) : t.merge.HeapOrder := by
  have hint' : t.twoLess.nint.toNat ≤ 254 := by simpa [twoLess] using hint
  have hroom : (t.twoLess.arenaJoin (t.heapAt 0) t.secondLeast).heapSize.toNat < 256 := by
    rw [arenaJoin_heapSize, toNat_twoLess_heapSize h]
    omega
  have hperm := queue_twoLess h h'
  have hrest : t.twoLess.queue.Nodup := (hperm.nodup_iff.mp hs.queue_nodup).of_cons.of_cons
  have hnew : t.twoLess.nextInternal ∉ t.twoLess.queue := by
    rw [twoLess_nextInternal]
    intro hmem
    have hold : t.nextInternal ∈ t.queue :=
      hperm.mem_iff.mpr (List.mem_cons_of_mem _ (List.mem_cons_of_mem _ hmem))
    exact hs.ne_nextInternal hint (hs.valid_of_queue hold) rfl
  rw [merge_eq]
  refine (order_heapInsert _ _ hroom ?_ (by rwa [arenaJoin_queue]) (by rwa [arenaJoin_queue])).complete
  refine (order_twoLess h h' ho hs.queue_nodup).congr (arenaJoin_heap ..) (arenaJoin_heapSize ..) fun n hn => ?_
  rw [nodeAt_arenaJoin hint', if_neg fun e : n = t.twoLess.nextInternal => hnew (e ▸ hn)]

section
variable {a b : NodeIdx} {rest : List NodeIdx}

theorem Joins.nodeAt_new (hj : Joins t u a b rest) : u.nodeAt t.nextInternal = t.joinNode a b := by
  rw [hj.node, if_pos rfl]

theorem Joins.nodeAt_old (hj : Joins t u a b rest) {n : NodeIdx} (hn : n ≠ t.nextInternal) :
    u.nodeAt n = t.nodeAt n := by
  rw [hj.node, if_neg hn]

theorem Joins.toNat_nint (hj : Joins t u a b rest) (hint : t.nint.toNat ≤ 254) : u.nint.toNat = t.nint.toNat + 1 := by
  rw [hj.nint, BitVec.toNat_add]
  exact Nat.mod_eq_of_lt (by simp; omega)

theorem Joins.internals (hj : Joins t u a b rest) (hint : t.nint.toNat ≤ 254) :
    u.internals = t.internals ++ [t.nextInternal] := by
  have hnew : BitVec.ofNat 9 (256 + t.nint.toNat) = t.nextInternal := by
    rw [← toNat_nextInternal hint, BitVec.ofNat_toNat, BitVec.setWidth_eq]
  rw [TreeMem.internals, hj.toNat_nint hint, List.range_succ, List.map_append, List.map_singleton, hnew]
  rfl

/-- Beside all that it referred to, the forest now refers to the new root (R43). -/
theorem Joins.owned_perm (hj : Joins t u a b rest) (hint : t.nint.toNat ≤ 254) :
    u.owned.Perm (t.nextInternal :: t.owned) := by
  have hold : ∀ n ∈ t.internals, u.nodeAt n = t.nodeAt n := by
    intro n hn
    obtain ⟨-, hlt⟩ := (mem_internals (by omega)).mp hn
    refine hj.nodeAt_old ?_
    rintro rfl
    rw [toNat_nextInternal hint] at hlt
    omega
  have hchildren : u.internals.flatMap (fun n => [(u.nodeAt n).left, (u.nodeAt n).right]) =
      t.internals.flatMap (fun n => [(t.nodeAt n).left, (t.nodeAt n).right]) ++ [a, b] := by
    rw [hj.internals hint, List.flatMap_append, List.flatMap_congr fun n hn => by rw [hold n hn]]
    simp [hj.nodeAt_new, joinNode]
  generalize hold' : t.internals.flatMap (fun n => [(t.nodeAt n).left, (t.nodeAt n).right]) = old at hchildren
  rw [owned, owned, hchildren, hold']
  calc List.Perm (u.queue ++ (old ++ [a, b])) ((t.nextInternal :: rest) ++ (old ++ [a, b])) := hj.after.append_right _
    List.Perm _ ((t.nextInternal :: rest) ++ ([a, b] ++ old)) := List.perm_append_comm.append_left _
    List.Perm _ (t.nextInternal :: (a :: b :: rest ++ old)) := (List.perm_append_comm_assoc rest [a, b] old).cons _
    List.Perm _ (t.nextInternal :: (t.queue ++ old)) := (hj.before.symm.append_right old).cons _

theorem Joins.valid_iff (hj : Joins t u a b rest) (n : NodeIdx) :
    (u.nodeAt n).valid = true ↔ n = t.nextInternal ∨ (t.nodeAt n).valid = true := by
  by_cases h : n = t.nextInternal
  · subst h
    simp [hj.nodeAt_new, joinNode]
  · simp [hj.nodeAt_old h, h]

/-- A valid node of the new forest is the new root or a valid node of the old one. -/
theorem Joins.valid_cases (hj : Joins t u a b rest) (hs : t.Shape) (hint : t.nint.toNat ≤ 254) {n : NodeIdx}
    (hn : (u.nodeAt n).valid = true) : n = t.nextInternal ∨ ((t.nodeAt n).valid = true ∧ u.nodeAt n = t.nodeAt n) :=
  ((hj.valid_iff n).mp hn).imp_right fun hold => ⟨hold, hj.nodeAt_old (hs.ne_nextInternal hint hold)⟩

theorem Joins.nodeAt_valid (hj : Joins t u a b rest) (hs : t.Shape) (hint : t.nint.toNat ≤ 254) {n : NodeIdx}
    (hn : (t.nodeAt n).valid = true) : u.nodeAt n = t.nodeAt n :=
  hj.nodeAt_old (hs.ne_nextInternal hint hn)

theorem Joins.nodeAt_low (hj : Joins t u a b rest) (hint : t.nint.toNat ≤ 254) {n : NodeIdx} (hn : n.toNat < 256) :
    u.nodeAt n = t.nodeAt n := by
  refine hj.nodeAt_old ?_
  rintro rfl
  rw [toNat_nextInternal hint] at hn
  omega

theorem Joins.leaves (hj : Joins t u a b rest) (hint : t.nint.toNat ≤ 254) : u.leaves = t.leaves := by
  refine List.filter_congr fun v _ => ?_
  have hlow : (leafIndex v).toNat < 256 := by rw [toNat_leafIndex]; omega
  exact congrArg Node.valid (hj.nodeAt_low hint hlow)

theorem Joins.valid_children (hj : Joins t u a b rest) (hs : t.Shape) :
    (t.nodeAt a).valid = true ∧ (t.nodeAt b).valid = true :=
  ⟨hs.valid_of_queue (hj.before.mem_iff.mpr (by simp)), hs.valid_of_queue (hj.before.mem_iff.mpr (by simp))⟩

/-- The children of the new root are two valid nodes of smaller index (R43). -/
theorem Joins.children_new (hj : Joins t u a b rest) (hs : t.Shape) (hint : t.nint.toNat ≤ 254) :
    (u.nodeAt a).valid = true ∧ (u.nodeAt b).valid = true ∧ a ≠ b ∧ a < t.nextInternal ∧ b < t.nextInternal := by
  obtain ⟨ha, hb⟩ := hj.valid_children hs
  have hne : a ≠ b := by
    rintro rfl
    simpa using hj.before.nodup_iff.mp hs.queue_nodup
  have hlt {n : NodeIdx} (hn : (t.nodeAt n).valid = true) : n < t.nextInternal := by
    rw [BitVec.lt_def, toNat_nextInternal hint]
    exact hs.lt_of_valid hn
  rw [hj.nodeAt_valid hs hint ha, hj.nodeAt_valid hs hint hb]
  exact ⟨ha, hb, hne, hlt ha, hlt hb⟩

/-- The weight of the new root is the sum of its children's, without overflow (R136). -/
theorem Joins.weight_new (hj : Joins t u a b rest) (hs : t.Shape) (hint : t.nint.toNat ≤ 254)
    (hleaf : t.nleaf.toNat ≤ 256) : u.weightOf t.nextInternal = t.weightOf a + t.weightOf b := by
  have hlt := hs.weightSum_queue_lt (by omega) hleaf
  rw [weightSum_perm hj.before] at hlt
  simp only [weightSum, List.map_cons, List.sum_cons] at hlt
  rw [weightOf, hj.nodeAt_new, joinNode, BitVec.toNat_add]
  exact Nat.mod_eq_of_lt (by simp only [weightOf] at hlt; omega)

/-- A merge of a forest leaves a forest (R43). -/
theorem Joins.shape (hj : Joins t u a b rest) (hs : t.Shape) (hint : t.nint.toNat ≤ 254) (hleaf : t.nleaf.toNat ≤ 256) :
    u.Shape where
  low_leaf n hlow hvalid := by
    rw [hj.nodeAt_low hint hlow] at hvalid ⊢
    exact hs.low_leaf n hlow hvalid
  high_valid n hhigh := by
    rw [hj.valid_iff, hs.high_valid n hhigh, BitVec.toNat_eq, toNat_nextInternal hint, hj.toNat_nint hint]
    omega
  high_internal n hhigh := by
    by_cases hne : n = t.nextInternal
    · rw [hne, hj.nodeAt_new]; rfl
    · rw [hj.nodeAt_old hne]; exact hs.high_internal n hhigh
  leaf_weight n hvalid hl := by
    obtain rfl | ⟨hold, hsame⟩ := hj.valid_cases hs hint hvalid
    · rw [hj.nodeAt_new] at hl; cases hl
    · rw [weightOf_congr hsame]
      exact hs.leaf_weight n hold (hsame ▸ hl)
  leaf_count := by rw [hj.leaves hint, hj.nleaf, hs.leaf_count]
  children n hvalid hi := by
    obtain rfl | ⟨hold, hsame⟩ := hj.valid_cases hs hint hvalid
    · rw [hj.nodeAt_new]
      exact hj.children_new hs hint
    · rw [hsame] at hi ⊢
      obtain ⟨hl, hr, hdiff⟩ := hs.children n hold hi
      rw [hj.nodeAt_valid hs hint hl, hj.nodeAt_valid hs hint hr]
      exact ⟨hl, hr, hdiff⟩
  weight n hvalid hi := by
    obtain rfl | ⟨hold, hsame⟩ := hj.valid_cases hs hint hvalid
    · obtain ⟨ha, hb⟩ := hj.valid_children hs
      rw [hj.weight_new hs hint hleaf, hj.nodeAt_new, ← weightOf_congr (hj.nodeAt_valid hs hint ha),
        ← weightOf_congr (hj.nodeAt_valid hs hint hb)]
      rfl
    · rw [hsame] at hi
      obtain ⟨hl, hr, -⟩ := hs.children n hold hi
      rw [weightOf_congr hsame, hsame, weightOf_congr (hj.nodeAt_valid hs hint hl),
        weightOf_congr (hj.nodeAt_valid hs hint hr)]
      exact hs.weight n hold hi
  owned_once := by
    rw [(hj.owned_perm hint).nodup_iff, List.nodup_cons, hs.owned_valid, hs.nextInternal_invalid hint]
    exact ⟨by decide, hs.owned_once⟩
  owned_valid n := by rw [(hj.owned_perm hint).mem_iff, List.mem_cons, hs.owned_valid, hj.valid_iff]

end

/-! ### The counters after a merge -/

theorem Counts.of_building (h : t.Counts) (hbuilding : t.state = .building) :
    2 ≤ t.heapSize.toNat ∧ t.heapSize.toNat ≤ 256 ∧ t.nint.toNat ≤ 254 ∧ t.root = 0 := by
  have hempty := h.empty_iff
  have hdone := h.done_iff
  have hroot := h.root
  have hsum := h.sum
  have hbound := h.bound
  simp [hbuilding] at hempty hdone hroot
  have h0 : t.heapSize.toNat ≠ 0 := fun e => hempty (BitVec.eq_of_toNat_eq e)
  have h1 : t.heapSize.toNat ≠ 1 := fun e => hdone (BitVec.eq_of_toNat_eq e)
  exact ⟨by omega, by omega, by omega, hroot⟩

/-- The last line of a merge keeps the counters, TREE_STATE and ROOT in agreement (R136). -/
theorem complete_counts (hsum : t.heapSize.toNat + t.nint.toNat = t.nleaf.toNat) (hbound : t.nleaf.toNat ≤ 256)
    (hbuilding : t.state = .building) (hsize : 1 ≤ t.heapSize.toNat) (hroot : t.root = 0) : t.complete.Counts := by
  unfold complete
  split
  · rename_i hone
    exact ⟨hsum, hbound, by simp [hone], by simp [hone], by simp, rfl⟩
  · rename_i hmany
    have hne : t.heapSize ≠ 0 := fun e => by simp [e] at hsize
    exact ⟨hsum, hbound, by simpa [hbuilding] using hne, by simpa [hbuilding] using hmany, by simp [hbuilding],
      by simp [hbuilding, hroot]⟩

theorem merge_counts (h : t.Counts) (hbuilding : t.state = .building) : t.merge.Counts := by
  obtain ⟨hlow, hhigh, hint, hroot⟩ := h.of_building hbuilding
  have hj := merge_joins hlow hhigh hint
  have hlength : t.merge.heapSize.toNat + 1 = t.heapSize.toNat := by
    rw [← length_queue, hj.after.length_eq, ← length_queue t, hj.before.length_eq]
    rfl
  have hleaf := congrArg BitVec.toNat hj.nleaf
  have hnint := hj.toNat_nint hint
  have hsum := h.sum
  have hbound := h.bound
  rw [merge_eq] at hlength hleaf hnint ⊢
  rw [heapSize_complete] at hlength
  rw [nleaf_complete] at hleaf
  rw [nint_complete] at hnint
  refine complete_counts (by omega) (by omega) ?_ (by omega) ?_
  · simpa [arenaJoin, setNode, twoLess] using hbuilding
  · simpa [arenaJoin, setNode, twoLess] using hroot

/-- A merge of a sound build leaves it sound (R133, R135, R136). -/
theorem merge_ok (h : t.Ok) (hbuilding : t.state = .building) : t.merge.Ok := by
  have hnonempty : t.state ≠ .empty := by simp [hbuilding]
  obtain ⟨hlow, hhigh, hint, -⟩ := h.counts.of_building hbuilding
  have hs := h.shape hnonempty
  exact
    { counts := merge_counts h.counts hbuilding
      order := fun _ => merge_order hlow hhigh hint (h.order hnonempty) hs
      shape := fun _ => (merge_joins hlow hhigh hint).shape hs hint h.counts.bound }

/-- Every merge of TREE_BUILD keeps the build sound (R137). -/
theorem buildLoop_ok (fuel : Nat) (h : t.Ok) : (t.buildLoop fuel).Ok := by
  induction fuel generalizing t with
  | zero => exact h
  | succ fuel ih =>
    rw [buildLoop]
    split
    · exact ih (merge_ok h ‹_›)
    · exact h

theorem build_ok (freq : Vector Word 256) (t : TreeMem) : (t.build freq).Ok := buildLoop_ok 255 (init_ok freq t)

end

end TreeMem

/-! ### The step -/

section
variable {s t : State}

@[simp] theorem finishTree_tree (tree : TreeMem) : (finishTree tree s).tree = tree := rfl

theorem exec_treeOk {i : Instr} (h : s.tree.Ok) (hexec : exec i s = .next t) : t.tree.Ok := by
  cases exec_effect hexec with
  | newTree _ htree =>
    rw [finishTree_tree]
    obtain rfl | rfl := htree
    · exact s.tree.init_ok s.freq
    · exact s.tree.build_ok s.freq
  | merge hbuilding =>
    simp only [finish_tree]
    exact TreeMem.merge_ok h hbuilding
  | _ => exact h

theorem hostEffect_treeOk {a : HostAct} (h : s.tree.Ok) (heffect : HostEffect s a t) : t.tree.Ok := by
  cases heffect with
  | quiet hq => exact hq.tree ▸ h
  | softReset => exact TreeMem.ok_of_empty rfl rfl rfl rfl rfl
  | hardReset => exact TreeMem.ok_of_empty rfl rfl rfl rfl rfl
  | _ => exact h

end

/-- Settles O59: TREE_INIT and TREE_BUILD leave a sound tree, a merge keeps it, a reset leaves the empty one, and nothing else
writes the tree. -/
theorem stepKeepsTheTree : Obligations.StepKeepsTheTree := by
  intro s t hs h
  obtain ⟨_, i, -, -, hexec⟩ | ⟨_, _, -, -, rfl⟩ | ⟨a, rest, -, -, rfl⟩ | ⟨-, rfl⟩ := step_next_cases h
  · exact exec_treeOk hs hexec
  · exact hs
  · obtain ⟨d, heffect⟩ := hostAct_effect a rest s
    exact hostEffect_treeOk (s := s.withHost rest d) hs heffect
  · exact hs

/-- Settles O55: BUF lists nothing, every free code is cut to 255 bits, CODES_VALID is 0 and the queue is empty. -/
theorem resetMeetsTheInvariants : Obligations.ResetMeetsTheInvariants where
  memory := ⟨by decide, State.reset_buf_wf, by simp [State.reset]⟩
  fit := codeTableFits_freeCodeTable 0
  current := State.codesCurrent_of_invalid rfl
  tree := TreeMem.ok_of_empty rfl rfl rfl rfl rfl

end Sys2Proof.Machine
end

section
/-! SUPPORT. The registers as the port reads and writes them (10_state.md R21 to R38, R50; 20_memory.md R61, R62). -/

namespace Sys2Proof.Machine

variable {s : State}

/-! ### Register accesses -/

theorem locate_of_wordNumber (p : Params) {addr : PortAddr} {r : Reg} (h : Reg.all[addr.toNat / 4]? = some r) :
    locate p addr = .reg r := by
  obtain ⟨hlt, -⟩ := List.getElem?_eq_some_iff.mp h
  have hlow : addr.toNat / 4 < 0x100 := Nat.lt_trans hlt (by decide)
  simp only [locate, hlow, if_true, h]

/-- A read of a register returns its value and has no other effect (R62). -/
theorem hostRead_reg {addr : PortAddr} {r : Reg} (h : Reg.all[addr.toNat / 4]? = some r) :
    hostRead addr s = { s with rdata := s.readReg r } := by
  rw [hostRead, locate_of_wordNumber s.params h]
  rfl

/-- A write to a register's address is the write to the register (R62). -/
theorem hostWrite_reg {addr : PortAddr} {r : Reg} (h : Reg.all[addr.toNat / 4]? = some r) (w : Word) :
    hostWrite addr w s = writeReg r w s := by
  rw [hostWrite, locate_of_wordNumber s.params h]
  rfl

/-! ### CTRL, STATUS and ROOT, bit by bit -/

theorem ctrlWord_getLsbD (i : Nat) :
    s.ctrlWord.getLsbD i = if i = 0 then s.doneIe else if i = 1 then s.errIe else false := by
  show BitVec.getLsbD (w := 30 + 1 + 1) (0#30 ++ BitVec.ofBool s.errIe ++ BitVec.ofBool s.doneIe) i = _
  rw [BitVec.getLsbD_append, BitVec.getLsbD_append]
  match i with
  | 0 => simp
  | 1 => simp
  | i + 2 => simp

theorem ctrlWord_toNat : s.ctrlWord.toNat = s.doneIe.toNat + 2 * s.errIe.toNat := by
  rw [State.ctrlWord]
  cases s.doneIe <;> cases s.errIe <;> rfl

/-- The bits of STATUS by their places (R24). -/
def State.statusBit (s : State) : Nat → Bool
  | 0 => s.isBusy
  | 1 => s.done
  | 2 => s.errf
  | 3 => s.ovr
  | 4 => s.tree.state.bits.getLsbD 0
  | 5 => s.tree.state.bits.getLsbD 1
  | 6 => s.codesValid
  | _ => false

theorem statusWord_getLsbD (i : Nat) : s.statusWord.getLsbD i = s.statusBit i := by
  show BitVec.getLsbD (w := 25 + 1 + 2 + 1 + 1 + 1 + 1) (0#25 ++ BitVec.ofBool s.codesValid ++ s.tree.state.bits ++
    BitVec.ofBool s.ovr ++ BitVec.ofBool s.errf ++ BitVec.ofBool s.done ++ BitVec.ofBool s.isBusy) i = _
  simp only [BitVec.getLsbD_append, BitVec.getLsbD_ofBool, BitVec.getLsbD_zero]
  match i with
  | 0 | 1 | 2 | 3 | 4 | 5 | 6 => simp [State.statusBit]
  | i + 7 => simp [State.statusBit]

theorem statusWord_toNat_lt : s.statusWord.toNat < 128 := by
  refine Nat.lt_pow_two_of_testBit (n := 7) _ fun i hi => ?_
  obtain ⟨k, rfl⟩ := Nat.exists_eq_add_of_le' hi
  exact (BitVec.testBit_toNat _).trans (statusWord_getLsbD (k + 7))

/-- TREE_STATE is the field [5:4] (R24). -/
theorem statusWord_treeState : s.statusWord.extractLsb' 4 2 = s.tree.state.bits := by
  refine BitVec.eq_of_getLsbD_eq fun i hi => ?_
  rw [BitVec.getLsbD_extractLsb', statusWord_getLsbD]
  match i with
  | 0 => rfl
  | 1 => rfl

theorem rootWord_toNat_of_done (h : s.tree.state = .done) : s.tree.rootWord.toNat = 2 ^ 31 + s.tree.root.toNat := by
  rw [TreeMem.rootWord, TreeMem.rootValid, if_pos (by simp [h])]
  show BitVec.toNat (w := 1 + 22 + 9) (1#1 ++ 0#22 ++ s.tree.root) = _
  have hroot := s.tree.root.isLt
  rw [BitVec.toNat_append, BitVec.toNat_append, ← Nat.shiftLeft_add_eq_or_of_lt hroot]
  rfl

/-- Settles O45: ROOT's word by TREE_STATE. -/
theorem rootReadsZeroUnlessDone : Obligations.RootReadsZeroUnlessDone := by
  intro s
  refine ⟨rootWord_toNat_of_done, fun h => ?_⟩
  simp [State.readReg, TreeMem.rootWord, TreeMem.rootValid, h]

/-- Settles O42: the write is decided by SRST = 0, and the two enables are all that CTRL shows. -/
theorem ctrlHoldsTheEnables : Obligations.CtrlHoldsTheEnables := by
  intro s w hsrst
  have hwrite : hostWrite 0x008 w s = { s with doneIe := w.getLsbD 0, errIe := w.getLsbD 1 } := by
    rw [hostWrite_reg (r := .ctrl) rfl, writeReg, writeCtrl, hsrst]
    rfl
  refine ⟨hwrite, ?_⟩
  rw [hwrite]
  refine BitVec.eq_of_getLsbD_eq fun i hi => ?_
  rw [State.readReg, ctrlWord_getLsbD, BitVec.getLsbD_and]
  match i with
  | 0 => simp
  | 1 => simp
  | i + 2 =>
    have hmask : (3#32).getLsbD (i + 2) = false := by
      rw [BitVec.getLsbD_ofNat, Nat.testBit_lt_two_pow (Nat.lt_of_lt_of_le (by decide : 3 < 2 ^ 2)
        (Nat.pow_le_pow_right (by decide) (by omega))), Bool.and_false]
    simpa using fun _ => hmask

/-- Settles O43: each operand register is written and read at its own address, with no other effect. -/
theorem operandRegistersHoldWhatIsWritten : Obligations.OperandRegistersHoldWhatIsWritten := by
  intro s w
  exact ⟨hostWrite_reg (r := .arg0) rfl w, hostWrite_reg (r := .arg1) rfl w, hostWrite_reg (r := .arg2) rfl w,
    hostRead_reg (r := .arg0) rfl, hostRead_reg (r := .arg1) rfl, hostRead_reg (r := .arg2) rfl⟩

/-! ### Reset values (R50) -/

theorem resetRegisters_ctrlWord (s : State) : (resetRegisters s).ctrlWord = 0 := by
  refine BitVec.eq_of_getLsbD_eq fun i _ => ?_
  rw [ctrlWord_getLsbD]
  simp

theorem resetRegisters_statusWord (s : State) : (resetRegisters s).statusWord = 0 := by
  refine BitVec.eq_of_getLsbD_eq fun i _ => ?_
  rw [statusWord_getLsbD, show BitVec.getLsbD (0 : Word) i = false from BitVec.getLsbD_zero]
  unfold State.statusBit
  split <;> simp [State.isBusy, TreeState.bits]

/-- Every register that reset gives the value 0. -/
theorem readReg_resetRegisters {r : Reg} (hr : r ∉ [Reg.id, .cfg]) (s : State) : (resetRegisters s).readReg r = 0 := by
  cases r with
  | id => simp at hr
  | cfg => simp at hr
  | ctrl => exact resetRegisters_ctrlWord s
  | status => exact resetRegisters_statusWord s
  | _ => rfl

/-- The state that a hardware reset leaves, and State.reset, have every register at its reset value already. -/
theorem eq_resetRegisters {s t : State} (h : t = releaseReset (hardReset s) ∨ t = State.reset) : t = resetRegisters t := by
  obtain rfl | rfl := h
  · rfl
  · rfl

/-- Settles O8: both states are fixed by `resetRegisters`, which sets every register. -/
theorem hardwareResetValues : Obligations.HardwareResetValues := by
  intro s t h
  rw [eq_resetRegisters h]
  refine ⟨rfl, rfl, fun r hr => readReg_resetRegisters (fun hid => ?_) t, rfl, rfl⟩
  simp only [List.mem_cons, List.not_mem_nil, or_false] at hid
  obtain rfl | rfl := hid <;> simp at hr

/-! ### STATUS and the read of every register (R24, R61) -/

/-- Settles O44: each field of STATUS is a bit of its word, and each register reads at the word number of its place. -/
theorem statusFields : Obligations.StatusFields := by
  intro s
  refine ⟨statusWord_getLsbD 0, statusWord_getLsbD 1, statusWord_getLsbD 2, statusWord_getLsbD 3, fun p hp hstate => ?state,
    statusWord_getLsbD 6, statusWord_toNat_lt, ctrlWord_toNat, ?reads, fun p hp hresult => ?result⟩
  case state =>
    have hbits : ∀ q ∈ [(TreeState.empty, (0 : BitVec 2)), (.building, 1), (.done, 2)], q.1.bits = q.2 := by decide
    rw [State.readReg, statusWord_treeState, hstate, hbits p hp]
  case reads =>
    simp only [List.forall_mem_cons, List.not_mem_nil, false_imp_iff, implies_true, and_true]
    exact ⟨hostRead_reg (r := .id) rfl, hostRead_reg (r := .cfg) rfl, hostRead_reg (r := .ctrl) rfl,
      hostRead_reg (r := .status) rfl, hostRead_reg (r := .cmd) rfl, hostRead_reg (r := .errInfo) rfl,
      hostRead_reg (r := .outLen) rfl, hostRead_reg (r := .pad) rfl, hostRead_reg (r := .totalBits) rfl,
      hostRead_reg (r := .root) rfl, hostRead_reg (r := .nleaf) rfl, hostRead_reg (r := .nint) rfl,
      hostRead_reg (r := .heapSize) rfl, hostRead_reg (r := .maxLen) rfl⟩
  case result =>
    have hnumber : ∀ q ∈ [(ResultCode.ok, (0 : Word)), (.illegal, 1), (.seq, 2), (.empty, 3), (.range, 4), (.overlap, 5),
        (.freqOvf, 6), (.noCode, 7), (.badPad, 8), (.badCode, 9), (.trunc, 10), (.count, 11)],
        q.1.number.setWidth 32 = q.2 := by decide
    rw [hostRead_reg (r := .result) rfl, State.readReg, hresult, hnumber p hp]

end Sys2Proof.Machine
end

section
/-! SUPPORT. The host port's address map, window by window, and what an access to each window does (20_memory.md R60 to R70). -/

namespace Sys2Proof.Machine

variable {s : State} {p : Params} {addr : PortAddr}

/-! ### The address map (R61) -/

theorem locate_freqWindow (h : 0x400 ≤ addr.toNat ∧ addr.toNat < 0x800) :
    locate p addr = .freq (BitVec.ofNat 8 (addr.toNat / 4 - 0x100)) := by
  simp only [locate]
  rw [if_neg (by omega), if_pos (by omega)]

theorem locate_heapWindow (h : 0x800 ≤ addr.toNat ∧ addr.toNat < 0xC00) :
    locate p addr = .heap (BitVec.ofNat 8 (addr.toNat / 4 - 0x200)) := by
  simp only [locate]
  rw [if_neg (by omega), if_neg (by omega), if_pos (by omega)]

theorem locate_nodeWindow (h : 0x1000 ≤ addr.toNat ∧ addr.toNat < 0x2000) :
    locate p addr = .node (BitVec.ofNat 9 ((addr.toNat / 4 - 0x400) / 2)) (addr.toNat / 4 % 2 == 1) := by
  simp only [locate]
  rw [if_neg (by omega), if_neg (by omega), if_neg (by omega), if_neg (by omega), if_pos (by omega)]

theorem locate_ctWindow (h : 0x2000 ≤ addr.toNat ∧ addr.toNat < 0x6000) :
    locate p addr = .ct (BitVec.ofNat 8 ((addr.toNat / 4 - 0x800) / 16)) (BitVec.ofNat 4 (addr.toNat / 4 % 16)) := by
  simp only [locate]
  rw [if_neg (by omega), if_neg (by omega), if_neg (by omega), if_neg (by omega), if_neg (by omega), if_pos (by omega)]

theorem locate_bufWindow (h : 0x10000 ≤ addr.toNat ∧ 4 * (addr.toNat / 4 - 0x4000) < p.bufBytes) :
    locate p addr = .buf (addr.toNat / 4 - 0x4000) := by
  simp only [locate]
  rw [if_neg (by omega), if_neg (by omega), if_neg (by omega), if_neg (by omega), if_neg (by omega), if_neg (by omega),
    if_neg (by omega), if_pos (by omega)]

/-- Every location but `reserved` is reached from the addresses of R61 alone, so all other addresses are reserved. -/
theorem locate_reserved (h : (0x48 ≤ addr.toNat ∧ addr.toNat < 0x400) ∨ (0xC00 ≤ addr.toNat ∧ addr.toNat < 0x1000) ∨
    (0x6000 ≤ addr.toNat ∧ addr.toNat < 0x10000) ∨ 0x10000 + (p.bufBytes + 3) / 4 * 4 ≤ addr.toNat) :
    locate p addr = .reserved := by
  have hreach := locate_reachedFrom p addr
  cases hl : locate p addr with
  | reg r =>
    simp only [hl, Loc.ReachedFrom] at hreach
    obtain ⟨hlt, -⟩ := List.getElem?_eq_some_iff.mp hreach
    have hlow : addr.toNat / 4 < 18 := hlt
    omega
  | reserved => rfl
  | _ =>
    simp only [hl, Loc.ReachedFrom] at hreach
    omega

/-- The map does not look at address bits [1:0] (R60). -/
theorem locate_congr {a b : PortAddr} (h : a.extractLsb' 2 15 = b.extractLsb' 2 15) : locate p a = locate p b := by
  have hword (c : PortAddr) : (c.extractLsb' 2 15).toNat = c.toNat / 4 := by
    rw [BitVec.extractLsb'_toNat, Nat.shiftRight_eq_div_pow]
    have := c.isLt
    omega
  have hab : a.toNat / 4 = b.toNat / 4 := by rw [← hword a, ← hword b, h]
  simp only [locate, hab]

/-! ### Accesses by location -/

/-- A read whose value the spec gives returns it and has no other effect (R62). -/
theorem hostRead_given {l : Loc} (hl : locate s.params addr = l) (h : s.readIsFree l = false) :
    hostRead addr s = { s with rdata := s.readLoc l } := by
  simp [hostRead, hl, h]

/-- A read whose value the spec leaves open draws it (R64, R69). -/
theorem hostRead_free {l : Loc} (hl : locate s.params addr = l) (h : s.readIsFree l = true) :
    hostRead addr s = { s with rdata := Config.freeWord s.draws, draws := s.draws + 1 } := by
  simp [hostRead, hl, h]

theorem hostWrite_of_locate {l : Loc} (hl : locate s.params addr = l) (w : Word) : hostWrite addr w s = writeLoc l w s := by
  rw [hostWrite, hl]

/-- "While BUSY = 1 a read of a memory window returns any value" (R69). -/
theorem readIsFree_of_busy {l : Loc} (hbusy : s.isBusy = true) (hreg : ∀ r, l ≠ .reg r) (hreserved : l ≠ .reserved) :
    s.readIsFree l = true := by
  cases l with
  | reg r => exact absurd rfl (hreg r)
  | reserved => exact absurd rfl hreserved
  | heap i => exact Bool.or_eq_true_iff.mpr (.inl hbusy)
  | _ => exact hbusy

/-! ### Addresses that ignore writes -/

/-- Settles O46: these addresses reach no location of the map. -/
theorem reservedAddressesReadZero : Obligations.ReservedAddressesReadZero := by
  intro s a w h
  have hl : locate s.params a = .reserved := locate_reserved h
  exact ⟨hostRead_given hl rfl, hostWrite_of_locate hl w⟩

/-- The registers that a write can reach (R23 to R28). -/
def Reg.writable : List Reg := [.ctrl, .status, .cmd, .arg0, .arg1, .arg2]

theorem writeReg_readOnly {r : Reg} (hr : r ∉ Reg.writable) (w : Word) (s : State) : writeReg r w s = s := by
  cases r with
  | ctrl | status | cmd | arg0 | arg1 | arg2 => exact absurd (by decide) hr
  | _ => rfl

/-- The writable registers are the words 2 to 7 of the register block (R61). -/
theorem exists_readOnly_of_wordNumber {k : Nat} (hk : k < 18) (hro : k < 2 ∨ 8 ≤ k) :
    ∃ r, Reg.all[k]? = some r ∧ r ∉ Reg.writable := by
  have hmem : ∀ k : Fin 18, k.val < 2 ∨ 8 ≤ k.val → Reg.all[k] ∉ Reg.writable := by decide
  exact ⟨_, List.getElem?_eq_getElem hk, hmem ⟨k, hk⟩ hro⟩

theorem hostWrite_readOnlyReg (h : addr.toNat < 8 ∨ (0x20 ≤ addr.toNat ∧ addr.toNat < 0x48)) (w : Word) :
    hostWrite addr w s = s := by
  obtain ⟨r, hr, hro⟩ := exists_readOnly_of_wordNumber (k := addr.toNat / 4) (by omega) (by omega)
  rw [hostWrite_reg hr, writeReg_readOnly hro]

/-- Settles O47: registers outside the writable ones, and the HEAP, NODE and CT windows. -/
theorem readOnlyAddressesIgnoreWrites : Obligations.ReadOnlyAddressesIgnoreWrites := by
  intro s a w h
  obtain hid | hresult | hheap | ⟨hlow, hhigh⟩ := h
  · exact hostWrite_readOnlyReg (.inl hid) w
  · exact hostWrite_readOnlyReg (.inr hresult) w
  · exact hostWrite_of_locate (locate_heapWindow hheap) w
  · obtain hnode | hct := Nat.lt_or_ge a.toNat 0x2000
    · exact hostWrite_of_locate (locate_nodeWindow ⟨hlow, hnode⟩) w
    · exact hostWrite_of_locate (locate_ctWindow ⟨hct, hhigh⟩) w

/-! ### Windows while Busy (R69, R284) -/

theorem writeLoc_busy {l : Loc} (hbusy : s.isBusy = true) (hl : l = .reg .cmd ∨ (∃ v, l = .freq v) ∨ ∃ m, l = .buf m)
    (w : Word) : writeLoc l w s = dropWrite s := by
  obtain rfl | ⟨v, rfl⟩ | ⟨m, rfl⟩ := hl
  · show issue w s = dropWrite s
    unfold issue
    split
    · rename_i hidle
      simp [State.isBusy_eq_false_iff.mpr hidle] at hbusy
    · rfl
  · exact if_pos hbusy
  · exact if_pos hbusy

/-- The locations whose write while Busy is dropped with OVR, by address. -/
theorem locate_droppable (h : addr.toNat / 4 = 4 ∨ (0x400 ≤ addr.toNat ∧ addr.toNat < 0x800) ∨
    (0x10000 ≤ addr.toNat ∧ addr.toNat < 0x10000 + p.bufBytes)) :
    locate p addr = .reg .cmd ∨ (∃ v, locate p addr = .freq v) ∨ ∃ m, locate p addr = .buf m := by
  obtain hcmd | hfreq | ⟨hlow, hhigh⟩ := h
  · exact .inl (locate_of_wordNumber p (by rw [hcmd]; rfl))
  · exact .inr (.inl ⟨_, locate_freqWindow hfreq⟩)
  · exact .inr (.inr ⟨_, locate_bufWindow ⟨hlow, by omega⟩⟩)

/-- The locations in the memory windows, by address: no register, and not reserved. -/
theorem locate_window (h : (0x400 ≤ addr.toNat ∧ addr.toNat < 0xC00) ∨ (0x1000 ≤ addr.toNat ∧ addr.toNat < 0x6000) ∨
    (0x10000 ≤ addr.toNat ∧ addr.toNat < 0x10000 + p.bufBytes)) :
    (∀ r, locate p addr ≠ .reg r) ∧ locate p addr ≠ .reserved := by
  obtain ⟨hlow, hhigh⟩ | ⟨hlow, hhigh⟩ | ⟨hlow, hhigh⟩ := h
  · obtain hfreq | hheap := Nat.lt_or_ge addr.toNat 0x800
    · simp [locate_freqWindow (p := p) ⟨hlow, hfreq⟩]
    · simp [locate_heapWindow (p := p) ⟨hheap, hhigh⟩]
  · obtain hnode | hct := Nat.lt_or_ge addr.toNat 0x2000
    · simp [locate_nodeWindow (p := p) ⟨hlow, hnode⟩]
    · simp [locate_ctWindow (p := p) ⟨hct, hhigh⟩]
  · simp [locate_bufWindow (p := p) (addr := addr) ⟨hlow, by omega⟩]

/-- Settles O48: a write that may be dropped is dropped, and a location in a window reads free. -/
theorem busyDropsWritesAndFreesReads : Obligations.BusyDropsWritesAndFreesReads := by
  intro s a w hbusy
  refine ⟨fun h => writeLoc_busy hbusy (locate_droppable h) w, fun h => ?_⟩
  obtain ⟨hreg, hreserved⟩ := locate_window h
  exact hostRead_free rfl (readIsFree_of_busy hbusy hreg hreserved)

/-! ### Reads have no side effect (R62, R70) -/

/-- What the port returns does not depend on what it returned before. -/
theorem readLoc_withRdata (l : Loc) (r : Word) : ({ s with rdata := r } : State).readLoc l = s.readLoc l := by
  cases l with
  | reg r => cases r <;> rfl
  | _ => rfl

theorem readIsFree_withRdata (l : Loc) (r : Word) : ({ s with rdata := r } : State).readIsFree l = s.readIsFree l := by
  cases l <;> rfl

theorem hostRead_withRdata (h : s.readIsFree (locate s.params addr) = false) (r : Word) :
    hostRead addr { s with rdata := r } = hostRead addr s := by
  simp [hostRead, readIsFree_withRdata, readLoc_withRdata, h]

/-- Settles O49: a read draws a free value, and moves the count, or repeats itself; and the map ignores address bits [1:0]. -/
theorem readsHaveNoSideEffect : Obligations.ReadsHaveNoSideEffect := by
  refine ⟨fun s a => ?_, fun s a b w h => ?_⟩
  · cases hfree : s.readIsFree (locate s.params a) with
    | true =>
      rw [hostRead_free rfl hfree]
      exact ⟨⟨_, _, rfl⟩, fun hdraws => absurd hdraws (Nat.succ_ne_self s.draws)⟩
    | false =>
      have hread := hostRead_given rfl hfree
      rw [hread]
      exact ⟨⟨_, _, rfl⟩, fun _ => (hostRead_withRdata hfree _).trans hread⟩
  · simp only [hostRead, hostWrite, locate_congr h, and_self]

end Sys2Proof.Machine
end

section
/-! SUPPORT. The memory windows while Idle, entry by entry and bit by bit (20_memory.md R63 to R67). -/

namespace Sys2Proof.Machine

variable {s : State} {p : Params} {addr : PortAddr}

/-! ### The windows by their entries -/

theorem locate_freq {v : Symbol} (h : addr.toNat = 0x400 + 4 * v.toNat) : locate p addr = .freq v := by
  have hv := v.isLt
  rw [locate_freqWindow (by omega), show addr.toNat / 4 - 0x100 = v.toNat by omega, BitVec.ofNat_toNat,
    BitVec.setWidth_eq]

theorem locate_heap {i : Nat} (hi : i < 256) (h : addr.toNat = 0x800 + 4 * i) :
    locate p addr = .heap (BitVec.ofNat 8 i) := by
  rw [locate_heapWindow (by omega), show addr.toNat / 4 - 0x200 = i by omega]

theorem locate_node {n : NodeIdx} {high : Bool} (h : addr.toNat = 0x1000 + 8 * n.toNat + 4 * high.toNat) :
    locate p addr = .node n high := by
  have hn := n.isLt
  have hhigh := high.toNat_le
  rw [locate_nodeWindow (by omega), show (addr.toNat / 4 - 0x400) / 2 = n.toNat by omega,
    show addr.toNat / 4 % 2 = high.toNat by omega, BitVec.ofNat_toNat, BitVec.setWidth_eq]
  cases high <;> rfl

theorem locate_ct {v : Symbol} {j : Nat} (hj : j < 16) (h : addr.toNat = 0x2000 + 64 * v.toNat + 4 * j) :
    locate p addr = .ct v (BitVec.ofNat 4 j) := by
  have hv := v.isLt
  rw [locate_ctWindow (by omega), show (addr.toNat / 4 - 0x800) / 16 = v.toNat by omega,
    show addr.toNat / 4 % 16 = j by omega, BitVec.ofNat_toNat, BitVec.setWidth_eq]

theorem locate_buf {m : Nat} (hm : 4 * m < p.bufBytes) (h : addr.toNat = 0x10000 + 4 * m) : locate p addr = .buf m := by
  have hword : addr.toNat / 4 - 0x4000 = m := by omega
  rw [locate_bufWindow ⟨by omega, by rwa [hword]⟩, hword]

/-! ### FREQ (R63) -/

theorem freqAt_set (f : Vector Word 256) (v u : Symbol) (w : Word) (hv : v.toNat < 256) :
    freqAt (f.set v.toNat w hv) u = if u = v then w else freqAt f u := by
  simp only [freqAt, Vector.getElem_set, BitVec.toNat_inj, eq_comm (a := v)]

/-- Settles O50: the entry's word reads FREQ[v], and the write replaces that entry. -/
theorem freqWindowReadsAndWrites : Obligations.FreqWindowReadsAndWrites := by
  intro s v w a ha hidle
  have hl : locate s.params a = .freq v := locate_freq ha
  refine ⟨hostRead_given hl hidle, (writeFreq v w s).freq, ?_, fun u => freqAt_set s.freq v u w v.isLt⟩
  rw [hostWrite_of_locate hl, writeLoc, hidle]
  rfl

/-! ### HEAP (R64) -/

/-- Settles O51: while Idle the comparison with HEAP_SIZE decides whether the entry is read or free. -/
theorem heapWindowReads : Obligations.HeapWindowReads := by
  intro s i a hi ha hidle
  have hl : locate s.params a = .heap (BitVec.ofNat 8 i) := locate_heap hi ha
  have hindex : (BitVec.ofNat 8 i).toNat = i := Nat.mod_eq_of_lt hi
  have hfree : s.readIsFree (.heap (BitVec.ofNat 8 i)) = decide (s.tree.heapSize.toNat ≤ i) := by
    rw [State.readIsFree, hidle, hindex, Bool.false_or]
  refine ⟨fun hlt => ?_, fun hge => hostRead_free hl (hfree.trans (decide_eq_true hge))⟩
  rw [hostRead_given hl (hfree.trans (decide_eq_false (Nat.not_le.mpr hlt))), State.readLoc, hindex]

/-! ### NODE (R65) -/

/-- LEFT or RIGHT as it is read: 0 in a leaf. -/
def Node.childField (x : Node) (child : NodeIdx) : NodeIdx := if x.leaf then 0 else child

/-- The second word of an entry, its fields from the most significant on. -/
theorem Node.word_high (x : Node) :
    x.word true = (BitVec.ofBool x.valid ++ BitVec.ofBool x.leaf ++ 0#4 ++ x.childField x.right ++ x.childField x.left ++
      x.weight.extractLsb' 32 8 : BitVec (1 + 1 + 4 + 9 + 9 + 8)) := rfl

/-- The first word of an entry is the low part of its weight. -/
theorem Node.word_low (x : Node) : x.word false = x.weight.extractLsb' 0 32 :=
  (BitVec.setWidth_eq_extractLsb' (by decide) : x.weight.setWidth 32 = _)

/-- The fields of NODE[n]'s second word. -/
structure Node.HighFields (x : Node) (y : Word) : Prop where
  valid : y.getLsbD 31 = x.valid
  leaf : y.getLsbD 30 = x.leaf
  zero : y.extractLsb' 26 4 = 0
  right : y.extractLsb' 17 9 = x.childField x.right
  left : y.extractLsb' 8 9 = x.childField x.left
  weight : y.extractLsb' 0 8 = x.weight.extractLsb' 32 8

theorem Node.highFields_word (x : Node) : x.HighFields (x.word true) := by
  rw [Node.word_high]
  constructor
  case valid =>
    show BitVec.getLsbD (w := 1 + 1 + 4 + 9 + 9 + 8) _ 31 = _
    simp only [BitVec.getLsbD_append]
    simp
  case leaf =>
    show BitVec.getLsbD (w := 1 + 1 + 4 + 9 + 9 + 8) _ 30 = _
    simp only [BitVec.getLsbD_append]
    simp
  case zero =>
    show BitVec.extractLsb' (n := 1 + 1 + 4 + 9 + 9 + 8) 26 4 _ = _
    rw [BitVec.extractLsb'_append_eq_of_le (by decide), BitVec.extractLsb'_append_eq_of_le (by decide),
      BitVec.extractLsb'_append_eq_of_le (by decide), BitVec.extractLsb'_append_eq_right]
    rfl
  case right =>
    show BitVec.extractLsb' (n := 1 + 1 + 4 + 9 + 9 + 8) 17 9 _ = _
    rw [BitVec.extractLsb'_append_eq_of_le (by decide), BitVec.extractLsb'_append_eq_of_le (by decide),
      BitVec.extractLsb'_append_eq_right]
  case left =>
    show BitVec.extractLsb' (n := 1 + 1 + 4 + 9 + 9 + 8) 8 9 _ = _
    rw [BitVec.extractLsb'_append_eq_of_le (by decide), BitVec.extractLsb'_append_eq_right]
  case weight =>
    exact BitVec.extractLsb'_append_eq_right

theorem TreeMem.nodeAt_511 (t : TreeMem) : t.nodeAt 511 = Node.zero := by
  rw [TreeMem.nodeAt, Vector.getElem?_eq_none (by decide)]
  rfl

/-- Settles O52: both words by their fields, and entry 511 is the zero entry. -/
theorem nodeWindowReads : Obligations.NodeWindowReads := by
  intro s n lo hi hlo hhi hidle
  have hlow : hostRead lo s = { s with rdata := (s.tree.nodeAt n).word false } :=
    hostRead_given (locate_node (high := false) hlo) hidle
  have hhigh : hostRead hi s = { s with rdata := (s.tree.nodeAt n).word true } :=
    hostRead_given (locate_node (high := true) hhi) hidle
  obtain ⟨hvalid, hleaf, hzero, hright, hleft, hweight⟩ := (s.tree.nodeAt n).highFields_word
  refine ⟨_, _, hlow, hhigh, Node.word_low _, hvalid, hleaf, hzero, hright, hleft, hweight, ?_⟩
  rintro rfl
  rw [TreeMem.nodeAt_511]
  decide

/-! ### CT (R66) -/

theorem getD_false_eq_ite (bits : Bits) (k : Nat) :
    bits.getD k false = if k < bits.length then bits.getD k false else false := by
  split
  · rfl
  · rename_i hk
    exact List.getD_eq_default _ _ (Nat.not_lt.mp hk)

theorem codeWord_length {ct : Vector Bits 256} {v : Symbol} (h : (codeAt ct v).length ≤ 255) :
    (codeWord ct v 0).toNat = (codeAt ct v).length := by
  rw [codeWord, if_pos rfl, codeLen, BitVec.toNat_setWidth, BitVec.toNat_ofNat]
  omega

theorem codeWord_getLsbD {ct : Vector Bits 256} {v : Symbol} {w : BitVec 4} (hw : w ≠ 0) (hw' : w.toNat ≤ 8) {k : Nat}
    (hk : k < 32) : (codeWord ct v w).getLsbD (31 - k) = (codeAt ct v).getD (32 * (w.toNat - 1) + k) false := by
  rw [codeWord, if_neg hw, if_pos hw']
  exact msbFirst_getLsbD 32 _ k hk

theorem codeWord_unused {ct : Vector Bits 256} {v : Symbol} {w : BitVec 4} (hw : 9 ≤ w.toNat) : codeWord ct v w = 0 := by
  rw [codeWord, if_neg (by rintro rfl; simp at hw), if_neg (by omega)]

/-- Settles O53: the words of the entry are CT_LEN, the code's bits and zeros. -/
theorem ctWindowReads : Obligations.CtWindowReads := by
  intro s v j a hj ha hidle hfit
  have hindex : (BitVec.ofNat 4 j).toNat = j := Nat.mod_eq_of_lt hj
  refine ⟨_, hostRead_given (locate_ct hj ha) hidle, ?length, fun hlow hhigh k hk => ?code, fun hunused => ?unused⟩
  case length =>
    rintro rfl
    exact codeWord_length (hfit v)
  case code =>
    have hne : BitVec.ofNat 4 j ≠ 0 := fun h => by
      have hzero : 0 = j := (congrArg BitVec.toNat h).symm.trans hindex
      omega
    rw [State.readLoc, codeWord_getLsbD hne (by omega) hk, hindex]
    exact getD_false_eq_ite _ _
  case unused => exact codeWord_unused (by omega)

/-! ### BUF (R67) -/

/-- BUF[4m + j] is lane j of the word. -/
theorem bufWord_lane (s : State) (m : Nat) {j : Nat} (hj : j < 4) :
    (s.bufWord m).extractLsb' (8 * j) 8 = s.bufByte (4 * m + j) := by
  show BitVec.extractLsb' (n := 8 + 8 + 8 + 8) (8 * j) 8 (s.bufByte (4 * m + 3) ++ s.bufByte (4 * m + 2) ++
    s.bufByte (4 * m + 1) ++ s.bufByte (4 * m)) = _
  match j with
  | 0 => exact BitVec.extractLsb'_append_eq_right
  | 1 => rw [BitVec.extractLsb'_append_eq_of_le (by decide), BitVec.extractLsb'_append_eq_right]
  | 2 =>
    rw [BitVec.extractLsb'_append_eq_of_le (by decide), BitVec.extractLsb'_append_eq_of_le (by decide),
      BitVec.extractLsb'_append_eq_right]
  | 3 =>
    rw [BitVec.extractLsb'_append_eq_of_le (by decide), BitVec.extractLsb'_append_eq_of_le (by decide),
      BitVec.extractLsb'_append_eq_of_le (by decide), BitVec.extractLsb'_eq_self]

theorem length_lanes (w : Word) : (lanes w).length = 4 := rfl

theorem lanes_getElem (w : Word) {j : Nat} (hj : j < (lanes w).length) : (lanes w)[j] = w.extractLsb' (8 * j) 8 := by
  have hlt : j < 4 := hj
  match j with
  | 0 | 1 | 2 | 3 => rfl

/-- Settles O54: the word is read and written lane by lane, and a write reaches its four bytes alone. -/
theorem bufWindowLanes : Obligations.BufWindowLanes := by
  intro s m w a ha hm hidle
  have hl : locate s.params a = .buf m := locate_buf hm ha
  have hwrite : hostWrite a w s = s.writeBuf (4 * m) (lanes w) := by
    rw [hostWrite_of_locate hl, writeLoc, hidle]
    rfl
  refine ⟨⟨_, hostRead_given hl hidle, fun j hj => bufWord_lane s m hj⟩, _, hwrite, fun j hj => ?_, fun x hx => ?_⟩
  · rw [hwrite, State.bufByte_writeBuf, dif_pos ⟨by omega, Nat.add_lt_add_left hj _⟩, lanes_getElem, Nat.add_sub_cancel_left]
  · rw [hwrite, State.bufByte_writeBuf, dif_neg (by rwa [length_lanes])]

end Sys2Proof.Machine
end

section
/-! SUPPORT. The command format and the opcode map read both ways (30_encoding.md R90 to R92), and the completion of a command
that is due (45_system.md R220). -/

namespace Sys2Proof

/-! ### The fields of a word (R90) -/

/-- A word is the concatenation of two fields exactly when they are the fields read from it. -/
theorem eq_opc_append_zero_iff {w : Word} {f : CmdFields} : w = f.opc ++ f.zero ↔ fieldsOf w = f := by
  constructor
  · rintro rfl
    have hopc : (f.opc ++ f.zero).extractLsb' 24 8 = f.opc := BitVec.extractLsb'_append_eq_left
    have hzero : (f.opc ++ f.zero).extractLsb' 0 24 = f.zero := BitVec.extractLsb'_append_eq_right
    exact congrArg₂ CmdFields.mk hopc hzero
  · rintro rfl
    have hjoin : w.extractLsb' 24 8 ++ w.extractLsb' 0 24 = w.extractLsb' 0 32 :=
      BitVec.extractLsb'_append_extractLsb'_eq_extractLsb' rfl
    exact (hjoin.trans BitVec.extractLsb'_eq_self).symm

theorem eq_encodeInstr_iff {w : Word} {i : Instr} : w = encodeInstr i ↔ fieldsOf w = i.fields := eq_opc_append_zero_iff

/-- The fields of a word are a command's when its ZERO field is 0 and its OPC field is the command's operation code. -/
theorem fieldsOf_eq_fields_iff {w : Word} {i : Instr} :
    fieldsOf w = i.fields ↔ (fieldsOf w).zero = 0 ∧ (fieldsOf w).opc = i.opc := by
  show CmdFields.mk (fieldsOf w).opc (fieldsOf w).zero = ⟨i.opc, 0⟩ ↔ _
  rw [CmdFields.mk.injEq, and_comm]

/-! ### The opcode map (R91) -/

@[simp] theorem instrOfOpc_opc (i : Instr) : instrOfOpc i.opc = some i := by cases i <;> rfl

/-- The map sends no other operation code to a command: each arm that answers fixes the code it was reached by. -/
theorem opc_of_instrOfOpc {opc : BitVec 8} {i : Instr} (h : instrOfOpc opc = some i) : opc = i.opc := by
  unfold instrOfOpc at h
  split_ifs at h <;> cases h <;> assumption

theorem instrOfOpc_eq_some_iff {opc : BitVec 8} {i : Instr} : instrOfOpc opc = some i ↔ opc = i.opc :=
  ⟨opc_of_instrOfOpc, fun h => h ▸ instrOfOpc_opc i⟩

/-! ### Decoding (R92) -/

/-- A word decodes to a command when it passes both checks of R92. -/
theorem decodeWord_eq_ok_iff {w : Word} {i : Instr} :
    decodeWord w = .ok i ↔ (fieldsOf w).zero = 0 ∧ instrOfOpc (fieldsOf w).opc = some i := by
  unfold decodeWord CmdFields.zeroOk
  by_cases hzero : (fieldsOf w).zero = 0#24
  · cases hopc : instrOfOpc (fieldsOf w).opc <;> simp [hzero]
  · simp [hzero]

/-- Settles O1: both say that ZERO is 0 and that OPC is the command's operation code. -/
theorem decodeAndEncodeAgree : Obligations.DecodeAndEncodeAgree := by
  intro w i
  calc decodeWord w = .ok i
    _ ↔ (fieldsOf w).zero = 0 ∧ instrOfOpc (fieldsOf w).opc = some i := decodeWord_eq_ok_iff
    _ ↔ (fieldsOf w).zero = 0 ∧ (fieldsOf w).opc = i.opc := and_congr_right' instrOfOpc_eq_some_iff
    _ ↔ fieldsOf w = i.fields := fieldsOf_eq_fields_iff.symm
    _ ↔ w = encodeInstr i := eq_encodeInstr_iff.symm

/-- The high nibble of a command's word is its operation code's. -/
theorem encodeInstr_highNibble (i : Instr) : (encodeInstr i).extractLsb' 28 4 = i.opc.extractLsb' 4 4 :=
  BitVec.extractLsb'_append_eq_of_le (by decide)

/-- Settles O2: each word of the map is the encoder's, so it decodes to its command, and the operation codes hold the nibbles. -/
theorem opcodeMapWords : Obligations.OpcodeMapWords := by
  refine ⟨fun p hp => ?words, ?_⟩
  case words =>
    have hword : encodeInstr p.2 = p.1 := by
      revert p
      decide
    exact ⟨(decodeAndEncodeAgree p.1 p.2).mpr hword.symm, hword⟩
  · simp only [encodeInstr_highNibble]
    decide

end Sys2Proof

namespace Sys2Proof.Machine

variable {s : State}

/-! ### The completion of the command in flight (R220) -/

/-- The completion is due when the block is out of reset and the delay has run out or the host yields. -/
theorem State.due_iff : s.due ↔ s.inReset = false ∧ (s.hostYields || s.delay == 0) = true := by
  unfold State.due State.hostYields
  cases s.host with
  | nil => simp
  | cons a rest => simp [or_comm]

/-- When the command in flight is due, its completion takes the turn. -/
theorem State.turn_of_due {cmd a b c : Word} (hseq : s.seq = .busy cmd a b c) (hdue : s.due) : s.turn = .core cmd := by
  obtain ⟨hreset, hready⟩ := State.due_iff.mp hdue
  simp only [State.turn, hreset, hseq, hready, Bool.false_eq_true, if_false, if_true]

/-- The completion of a word that decodes to `i` is `i`'s. -/
theorem complete_of_decodeWord {cmd : Word} {i : Instr} (h : decodeWord cmd = .ok i) (s : State) :
    complete cmd s = exec i s := by
  rw [complete, h]

/-- The step of a command that is due is its completion. -/
theorem step_of_due {cmd a b c : Word} (hseq : s.seq = .busy cmd a b c) (hdue : s.due) : step s = complete cmd s := by
  rw [step, State.turn_of_due hseq hdue]

/-- Settles O4: the due command takes the turn, and its completion is the decoded command's. -/
theorem stepRunsTheDecodedCommand : Obligations.StepRunsTheDecodedCommand := by
  intro s cmd a b c i hseq hdue hdecode
  calc step s
    _ = complete cmd s := step_of_due hseq hdue
    _ = exec i s := complete_of_decodeWord hdecode s

end Sys2Proof.Machine
end

section
/-! SUPPORT. The completion record by its outcome (60_exceptions.md R241), the occurrences of a symbol in a range of BUF (R110),
and the frequency table commands (40_frequency.md R111, R112). -/

namespace Sys2Proof.Machine

variable {s : State}

/-! ### The symbols in ascending order (R6) -/

theorem symbols_getElem {i : Nat} (h : i < symbols.length) : symbols[i] = BitVec.ofNat 8 i :=
  (tabulateList_getElem (BitVec.ofNat 8) 256 0 i h).trans (by rw [Nat.zero_add])

/-- A search through the symbols answers with the lowest one that passes. -/
theorem find?_symbols_eq_some {p : Symbol → Bool} {v0 : Symbol} (hpass : p v0 = true) (hlower : ∀ v < v0, p v = false) :
    symbols.find? p = some v0 := by
  have hv0 : v0.toNat < symbols.length := TreeMem.length_symbols ▸ v0.isLt
  refine List.find?_eq_some_iff_getElem.mpr ⟨hpass, v0.toNat, hv0, ?_, fun j hj => ?_⟩
  · rw [symbols_getElem, BitVec.ofNat_toNat, BitVec.setWidth_eq]
  · have hlt : BitVec.ofNat 8 j < v0 := by
      rw [BitVec.lt_def, BitVec.toNat_ofNat]
      omega
    rw [symbols_getElem, hlower _ hlt, Bool.not_false]

/-! ### The completion record (R241) -/

theorem finish_ok (s : State) : finish .ok 0 s = s.succeeded := by
  simp [finish, State.succeeded]

/-- Every code but OK sets ERRF. -/
theorem finish_of_ne_ok {code : ResultCode} (h : code ≠ .ok) (info : Word) (s : State) :
    finish code info s = s.failed code info := by
  simp [finish, State.failed, h]

theorem raise_of_ne_ok {code : ResultCode} (h : code ≠ .ok) (info : Word) (s : State) :
    raise code info s = s.failed code info := finish_of_ne_ok h info s

/-! ### Ranges of BUF (R75, R110) -/

theorem State.inBuf_eq_true_iff {a n : Nat} : s.inBuf a n = true ↔ a + n ≤ s.params.bufBytes := decide_eq_true_iff

theorem State.inBuf_eq_false_iff {a n : Nat} : s.inBuf a n = false ↔ s.params.bufBytes < a + n :=
  decide_eq_false_iff_not.trans Nat.not_le

/-- The bytes of a range hold a symbol as often as the range's indices do. -/
theorem State.count_bufRange (s : State) (a n : Nat) (v : Symbol) :
    (s.bufRange a n).count v = s.occurrences a n v := by
  rw [State.bufRange, List.count, List.countP_map, List.countP_eq_length_filter]
  rfl

/-- The unbounded sum over a range of BUF is the count and the occurrences. -/
theorem countSum_bufRange (s : State) (a n : Nat) (v : Symbol) :
    countSum s.freq (s.bufRange a n) v = (freqAt s.freq v).toNat + s.occurrences a n v := by
  rw [countSum, State.count_bufRange]

/-! ### The saturated sums (R112) -/

theorem saturate_toNat (t : Nat) : (saturate t).toNat = min t 0xFFFFFFFF := by
  unfold saturate
  split
  case isTrue h => exact (Nat.min_eq_right (Nat.le_of_lt h)).symm
  case isFalse h =>
    rw [BitVec.toNat_ofNat]
    omega

theorem freqAt_countedFreq (freq : Vector Word 256) (bytes : List Byte) (v : Symbol) :
    (freqAt (countedFreq freq bytes) v).toNat = min (countSum freq bytes v) 0xFFFFFFFF := by
  rw [countedFreq, freqAt_tabulate, BitVec.ofNat_toNat, BitVec.setWidth_eq, saturate_toNat]

theorem firstSaturated_eq_none {freq : Vector Word 256} {bytes : List Byte}
    (h : ∀ v, countSum freq bytes v ≤ 0xFFFFFFFF) : firstSaturated freq bytes = none :=
  List.find?_eq_none.mpr fun v _ => by simpa using h v

theorem firstSaturated_eq_some {freq : Vector Word 256} {bytes : List Byte} {v0 : Symbol}
    (h : 0xFFFFFFFF < countSum freq bytes v0) (hlower : ∀ v < v0, countSum freq bytes v ≤ 0xFFFFFFFF) :
    firstSaturated freq bytes = some v0 :=
  find?_symbols_eq_some (decide_eq_true h) fun v hv => decide_eq_false (Nat.not_lt.mpr (hlower v hv))

theorem countBytes_of_none {bytes : List Byte} (h : firstSaturated s.freq bytes = none) :
    countBytes bytes s = { s.succeeded with freq := countedFreq s.freq bytes } := by
  rw [countBytes, h]
  exact finish_ok _

theorem countBytes_of_some {bytes : List Byte} {v : Symbol} (h : firstSaturated s.freq bytes = some v) :
    countBytes bytes s = { s.failed .freqOvf (v.setWidth 32) with freq := countedFreq s.freq bytes } := by
  rw [countBytes, h]
  exact finish_of_ne_ok (code := .freqOvf) (by decide) _ _

/-! ### The commands (R111, R112) -/

theorem execFreqCount_outside (h : s.params.bufBytes < s.src + s.len) :
    execFreqCount s = .next (s.failed .range 0) := by
  rw [execFreqCount, if_pos (State.inBuf_eq_false_iff.mpr h), raise_of_ne_ok (by decide)]

theorem execFreqCount_inside (h : s.src + s.len ≤ s.params.bufBytes) :
    execFreqCount s = .next (countBytes (s.bufRange s.src s.len) s) := by
  rw [execFreqCount, if_neg (by rw [State.inBuf_eq_true_iff.mpr h]; decide)]

/-- Settles O12: the table written has 0 at every entry, and the rest is the record of a success. -/
theorem freqClearZeroesTheTable : Obligations.FreqClearZeroesTheTable := by
  intro s
  refine ⟨tabulate 256 (fun _ => 0), fun v => freqAt_tabulate _ v, ?_⟩
  rw [exec_freqClear, execFreqClear, finish_ok]
  rfl

/-- Settles O13: a range inside BUF leaves the saturated sums, and the search in ascending order decides the record: no symbol
passes the bound, or the lowest that does is the one reported. -/
theorem freqCountAddsTheOccurrences : Obligations.FreqCountAddsTheOccurrences := by
  intro s
  simp only [exec_freqCount, ← countSum_bufRange]
  refine ⟨execFreqCount_outside, fun hin hfits => ?exact, fun hin v0 hsat hlower => ?saturated⟩
  case exact =>
    refine ⟨countedFreq s.freq (s.bufRange s.src s.len), fun v => ?_, ?_⟩
    · rw [freqAt_countedFreq, Nat.min_eq_left (hfits v)]
    · rw [execFreqCount_inside hin, countBytes_of_none (firstSaturated_eq_none hfits)]
  case saturated =>
    refine ⟨countedFreq s.freq (s.bufRange s.src s.len), freqAt_countedFreq _ _, ?_⟩
    rw [execFreqCount_inside hin, countBytes_of_some (firstSaturated_eq_some hsat hlower)]

end Sys2Proof.Machine
end

section
/-! SUPPORT. What the tree commands make of FREQ (41_tree.md R130 to R139): how TREE_INIT arranges the leaves in the queue, which
two nodes a merge takes, how TREE_BUILD ends, what the root weighs, and that the tree does not depend on how the queue is arranged. -/

namespace Sys2Proof.Machine

/-- The loop of heap_insert compares nodes of the queue alone. -/
theorem SiftsUp.congr {less less' : NodeIdx → NodeIdx → Bool} {q q' : List NodeIdx} {i : Nat} (h : SiftsUp less q i q')
    (hi : i < q.length) (heq : ∀ a ∈ q, ∀ b ∈ q, less a b = less' a b) : SiftsUp less' q i q' := by
  have hmem {l : List NodeIdx} {k : Nat} (hk : k < l.length) : l.getD k 0 ∈ l := by
    rw [List.getD_eq_getElem _ _ hk]
    exact List.getElem_mem hk
  induction h with
  | stop q i hstop =>
    refine .stop q i (hstop.imp_right fun hless => ?_)
    rwa [← heq _ (hmem hi) _ (hmem (by omega))]
  | up q i q' hpos hless _ ih =>
    have hp : (i - 1) / 2 < q.length := by omega
    refine .up q i q' hpos (by rwa [← heq _ (hmem hi) _ (hmem hp)]) (ih (by simpa [swapAt] using hp) ?_)
    have hsub : ∀ a ∈ swapAt q i ((i - 1) / 2), a ∈ q := by
      intro a ha
      obtain ha | rfl := List.mem_or_eq_of_mem_set ha
      · obtain ha | rfl := List.mem_or_eq_of_mem_set ha
        · exact ha
        · exact hmem hp
      · exact hmem hi
    exact fun a ha b hb => heq a (hsub a ha) b (hsub b hb)

namespace TreeMem

section
variable {t u : TreeMem} {freq : Vector Word 256} {vs ws : List Symbol}

/-! ### What HEAP_SIZE says (R24, R34) -/

theorem Counts.state_eq (h : t.Counts) :
    t.state = if t.heapSize = 0 then .empty else if t.heapSize = 1 then .done else .building := by
  simp only [← h.empty_iff, ← h.done_iff]
  cases t.state <;> rfl

theorem Counts.ne_empty_iff (h : t.Counts) : t.state ≠ .empty ↔ 1 ≤ t.heapSize.toNat := by
  rw [ne_eq, h.empty_iff, BitVec.toNat_eq]
  exact Nat.one_le_iff_ne_zero.symm

theorem Counts.state_of_many (h : t.Counts) (hsize : 2 ≤ t.heapSize.toNat) : t.state = .building := by
  rw [h.state_eq, if_neg (fun e => by simp [e] at hsize), if_neg (fun e => by simp [e] at hsize)]

theorem Counts.root_of_done (h : t.Counts) (hdone : t.state = .done) : t.root = t.heapAt 0 := by
  rw [h.root, if_pos hdone]

theorem queue_of_heapSize_one (h : t.heapSize = 1) : t.queue = [t.heapAt 0] := by
  simp [queue, h]

theorem heapSize_eq_one_iff : t.heapSize = 1 ↔ t.heapSize.toNat = 1 := BitVec.toNat_eq

/-! ### What TREE_INIT loads (R134) -/

theorem settle_eq (t : TreeMem) : ∃ state root, t.settle = { t with state := state, root := root } := by
  unfold settle
  split
  · exact ⟨_, _, rfl⟩
  · split <;> exact ⟨_, _, rfl⟩

theorem Loaded.withState (h : Loaded freq vs t) (state : TreeState) (root : NodeIdx) :
    Loaded freq vs { t with state := state, root := root } :=
  ⟨h.queue, h.order, h.nleaf, h.nint, h.leaf, h.other⟩

theorem loaded_init (freq : Vector Word 256) (t : TreeMem) : Loaded freq symbols (t.init freq) := by
  obtain ⟨state, root, h⟩ := settle_eq (t.load freq)
  rw [init, h]
  exact (loaded_load freq t).withState state root

theorem toNat_nleaf_init (freq : Vector Word 256) (t : TreeMem) :
    (t.init freq).nleaf.toNat = (presentSymbols freq).length := by
  rw [(loaded_init freq t).nleaf, (loaded_init freq t).heapSize]
  rfl

theorem nleaf_init_ne_zero (h : presentSymbols freq ≠ []) (t : TreeMem) : (t.init freq).nleaf ≠ 0 := fun e => by
  have hlength := toNat_nleaf_init freq t
  rw [e] at hlength
  exact h (List.length_eq_zero_iff.mp hlength.symm)

theorem length_presentSymbols_pos (h : presentSymbols freq ≠ []) : 1 ≤ (presentSymbols freq).length :=
  List.length_pos_iff.mpr h

theorem length_presentSymbols_le (freq : Vector Word 256) : (presentSymbols freq).length ≤ 256 :=
  length_symbols ▸ List.length_filter_le _ _

theorem init_state_ne_empty (h : presentSymbols freq ≠ []) (t : TreeMem) : (t.init freq).state ≠ .empty :=
  fun hempty => nleaf_init_ne_zero h t ((init_ok freq t).counts.no_leaf hempty)

/-- The entry of a symbol after TREE_INIT: its leaf, or cleared. -/
theorem Loaded.nodeAt_leafIndex (h : Loaded freq symbols t) (v : Symbol) :
    t.nodeAt (leafIndex v) = if freqAt freq v = 0 then Node.zero else leafNode (freqAt freq v) := by
  split
  case isTrue hzero =>
    refine h.other _ ?_
    rw [List.mem_map_of_injective leafIndex_injective]
    simp [presentIn, hzero]
  case isFalse hpresent => exact h.leaf v (List.mem_filter.mpr ⟨mem_symbols v, decide_eq_true hpresent⟩)

/-! ### The arrangement of the leaves (R131, R134) -/

theorem less_eq_of_nodeAt {a b : NodeIdx} (ha : u.nodeAt a = t.nodeAt a) (hb : u.nodeAt b = t.nodeAt b) :
    u.less a b = t.less a b := by
  rw [less, less, ha, hb]

/-- A leaf that is loaded stays as it is while the loop goes on. -/
theorem Loaded.nodeAt_later (h : Loaded freq vs t) (hu : Loaded freq (vs ++ ws) u) {n : NodeIdx}
    (hn : n ∈ (presentIn freq vs).map leafIndex) : u.nodeAt n = t.nodeAt n := by
  obtain ⟨v, hv, rfl⟩ := List.mem_map.mp hn
  have hv' : v ∈ presentIn freq (vs ++ ws) := by
    rw [presentIn, List.filter_append]
    exact List.mem_append_left _ hv
  rw [h.leaf v hv, hu.leaf v hv']

theorem presentIn_cons_of_absent {v : Symbol} (h : freqAt freq v = 0) : presentIn freq (v :: ws) = presentIn freq ws :=
  List.filter_cons_of_neg (by simp [h])

theorem presentIn_cons_of_present {v : Symbol} (h : freqAt freq v ≠ 0) :
    presentIn freq (v :: ws) = v :: presentIn freq ws :=
  List.filter_cons_of_pos (decide_eq_true h)

/-- One pass of the loop inserts the leaf of a present symbol (R131, R134). -/
theorem addLeaf_inserts {v : Symbol} (h : freqAt freq v ≠ 0) (hroom : t.heapSize.toNat < 256) :
    Inserts (t.addLeaf freq v).less t.queue (leafIndex v) (t.addLeaf freq v).queue := by
  have hinserts := (t.withLeaf freq v).heapInsert_inserts (leafIndex v) hroom
  rw [← funext₂ (less_congr (heapInsert_node (t.withLeaf freq v) (leafIndex v)))] at hinserts
  rw [addLeaf_of_present h]
  exact hinserts

/-- The loop inserts the leaves of the present symbols in its order; what a later leaf writes to NODE does not change how those in
the queue compare. -/
theorem Loaded.foldl_insertsAll (h : Loaded freq vs t) (hnodup : (vs ++ ws).Nodup) (hlen : (vs ++ ws).length ≤ 256) :
    InsertsAll (ws.foldl (TreeMem.addLeaf freq) t).less t.queue ((presentIn freq ws).map leafIndex)
      (ws.foldl (TreeMem.addLeaf freq) t).queue := by
  induction ws generalizing vs t with
  | nil => exact .nil _
  | cons v ws ih =>
    have hroom : t.heapSize.toNat < 256 := by
      have hcount : (presentIn freq vs).length ≤ vs.length := List.length_filter_le _ _
      rw [h.heapSize]
      simp only [List.length_append, List.length_cons] at hlen
      omega
    rw [List.append_cons] at hnodup hlen
    have hnext := h.addLeaf hnodup.of_append_left (by simp only [List.length_append, List.length_singleton] at hlen; omega)
    have hrest := ih hnext hnodup hlen
    rw [List.foldl_cons]
    by_cases hzero : freqAt freq v = 0
    · rw [presentIn_cons_of_absent hzero]
      rwa [addLeaf_of_absent hzero] at hrest ⊢
    · rw [presentIn_cons_of_present hzero, List.map_cons]
      refine .cons _ _ _ _ _ ((addLeaf_inserts hzero hroom).congr (by simp) fun a ha b hb => ?_) hrest
      have hloaded : ∀ n ∈ t.queue ++ [leafIndex v], n ∈ (presentIn freq (vs ++ [v])).map leafIndex := by
        intro n hn
        rw [presentIn_append_of_present hzero, List.map_append]
        exact (h.queue.append_right _).mem_iff.mp hn
      have hlast := hnext.foldl hnodup hlen
      exact (less_eq_of_nodeAt (hnext.nodeAt_later hlast (hloaded a ha)) (hnext.nodeAt_later hlast (hloaded b hb))).symm

theorem init_insertsAll (freq : Vector Word 256) (t : TreeMem) :
    InsertsAll (t.init freq).less [] ((presentSymbols freq).map leafIndex) (t.init freq).queue := by
  obtain ⟨state, root, h⟩ := settle_eq (t.load freq)
  rw [init, h]
  exact (loaded_clear freq t).foldl_insertsAll symbols_nodup length_symbols.le

/-! ### The cleared tree (R134) -/

theorem load_of_absent (h : ∀ v, freqAt freq v = 0) (t : TreeMem) : t.load freq = t.clear :=
  List.foldl_fixed' (fun v => addLeaf_of_absent (h v)) symbols

theorem init_of_absent (h : ∀ v, freqAt freq v = 0) (t : TreeMem) :
    t.init freq = { t.clear with state := .empty, root := 0 } := by
  rw [init, load_of_absent h]
  exact if_pos rfl

theorem nodeAt_clear (t : TreeMem) (n : NodeIdx) : t.clear.nodeAt n = Node.zero :=
  (loaded_clear (tabulate 256 fun _ => 0) t).other n (by simp [presentIn])

/-! ### The loop of TREE_BUILD (R137) -/

theorem buildLoop_of_building (fuel : Nat) (h : t.state = .building) : t.buildLoop (fuel + 1) = t.merge.buildLoop fuel := by
  rw [buildLoop, if_pos h]

theorem buildLoop_of_ne_building (fuel : Nat) (h : t.state ≠ .building) : t.buildLoop fuel = t := by
  cases fuel with
  | zero => rfl
  | succ fuel => rw [buildLoop, if_neg h]

/-- A merge of a sound build joins the two nodes it extracts. -/
theorem Ok.merge_joins (h : t.Ok) (hbuilding : t.state = .building) :
    Joins t t.merge (t.heapAt 0) t.secondLeast t.twoLess.queue := by
  obtain ⟨hlow, hhigh, hint, -⟩ := h.counts.of_building hbuilding
  exact TreeMem.merge_joins hlow hhigh hint

theorem Joins.toNat_heapSize {a b : NodeIdx} {rest : List NodeIdx} (h : Joins t u a b rest) :
    u.heapSize.toNat + 1 = t.heapSize.toNat := by
  rw [← length_queue, h.after.length_eq, ← length_queue t, h.before.length_eq]
  rfl

theorem Ok.toNat_heapSize_merge (h : t.Ok) (hbuilding : t.state = .building) :
    t.merge.heapSize.toNat + 1 = t.heapSize.toNat := (h.merge_joins hbuilding).toNat_heapSize

theorem Ok.merge_ne_empty (h : t.Ok) (hbuilding : t.state = .building) : t.merge.state ≠ .empty := by
  obtain ⟨hlow, -⟩ := h.counts.of_building hbuilding
  have hsize := h.toNat_heapSize_merge hbuilding
  exact (merge_ok h hbuilding).counts.ne_empty_iff.mpr (by omega)

/-- A build of `k + 1` queued nodes is complete after `k` merges. -/
theorem Ok.buildLoop_done {fuel : Nat} (h : t.Ok) (hsome : t.state ≠ .empty) (hfuel : t.heapSize.toNat ≤ fuel + 1) :
    (t.buildLoop fuel).state = .done := by
  induction fuel generalizing t with
  | zero =>
    have hsize := h.counts.ne_empty_iff.mp hsome
    exact h.counts.done_iff.mpr (heapSize_eq_one_iff.mpr (by omega))
  | succ fuel ih =>
    cases hstate : t.state with
    | empty => exact absurd hstate hsome
    | done => rw [buildLoop_of_ne_building _ (by simp [hstate]), hstate]
    | building =>
      have hsize := h.toNat_heapSize_merge hstate
      rw [buildLoop_of_building _ hstate]
      exact ih (merge_ok h hstate) (h.merge_ne_empty hstate) (by omega)

/-- `u` has the leaves of `t`: a merge writes no entry below 256 (R42, R136). -/
structure SameLeaves (t u : TreeMem) : Prop where
  nleaf : u.nleaf = t.nleaf
  nodeAt : ∀ v, u.nodeAt (leafIndex v) = t.nodeAt (leafIndex v)

theorem Ok.merge_sameLeaves (h : t.Ok) (hbuilding : t.state = .building) : SameLeaves t t.merge := by
  obtain ⟨-, -, hint, -⟩ := h.counts.of_building hbuilding
  have hj := h.merge_joins hbuilding
  exact ⟨hj.nleaf, fun v => hj.nodeAt_low hint (by rw [toNat_leafIndex]; omega)⟩

theorem Ok.buildLoop_sameLeaves (fuel : Nat) (h : t.Ok) : SameLeaves t (t.buildLoop fuel) := by
  induction fuel generalizing t with
  | zero => exact ⟨rfl, fun _ => rfl⟩
  | succ fuel ih =>
    by_cases hbuilding : t.state = .building
    · have hone := h.merge_sameLeaves hbuilding
      have hmore := ih (merge_ok h hbuilding)
      rw [buildLoop_of_building _ hbuilding]
      exact ⟨hmore.nleaf.trans hone.nleaf, fun v => (hmore.nodeAt v).trans (hone.nodeAt v)⟩
    · rw [buildLoop_of_ne_building _ hbuilding]
      exact ⟨rfl, fun _ => rfl⟩

theorem build_sameLeaves (freq : Vector Word 256) (t : TreeMem) : SameLeaves (t.init freq) (t.build freq) :=
  (init_ok freq t).buildLoop_sameLeaves 255

/-- TREE_BUILD of a nonempty FREQ completes the tree (R137). -/
theorem build_done (h : presentSymbols freq ≠ []) (t : TreeMem) : (t.build freq).state = .done :=
  (init_ok freq t).buildLoop_done (init_state_ne_empty h t)
    ((loaded_init freq t).heapSize.trans_le (length_presentSymbols_le freq))

theorem nleaf_build (freq : Vector Word 256) (t : TreeMem) : (t.build freq).nleaf = (t.init freq).nleaf :=
  (build_sameLeaves freq t).nleaf

/-! ### The weight of the root (R139) -/

/-- The root of a complete tree weighs what its leaves weigh. -/
theorem Ok.weightOf_root (h : t.Ok) (hdone : t.state = .done) : t.weightOf t.root = t.weightSum (t.leaves.map leafIndex) := by
  have hsize : t.heapSize = 1 := h.counts.done_iff.mp hdone
  have hint : t.nint.toNat ≤ 255 := by
    have hsum := h.counts.sum
    have hbound := h.counts.bound
    rw [heapSize_eq_one_iff.mp hsize] at hsum
    omega
  rw [h.counts.root_of_done hdone, ← (h.shape (by simp [hdone])).weightSum_queue hint, queue_of_heapSize_one hsize]
  simp [weightSum]

theorem SameLeaves.leaves (h : SameLeaves t u) : u.leaves = t.leaves :=
  List.filter_congr fun v _ => congrArg Node.valid (h.nodeAt v)

theorem SameLeaves.weightSum_leaves (h : SameLeaves t u) :
    u.weightSum (u.leaves.map leafIndex) = t.weightSum (t.leaves.map leafIndex) := by
  rw [h.leaves, weightSum, weightSum, List.map_map, List.map_map]
  exact congrArg List.sum (List.map_congr_left fun v _ => weightOf_congr (h.nodeAt v))

/-- An absent symbol adds nothing to the sum of FREQ. -/
theorem sum_presentIn (freq : Vector Word 256) (vs : List Symbol) :
    ((presentIn freq vs).map fun v => (freqAt freq v).toNat).sum = (vs.map fun v => (freqAt freq v).toNat).sum := by
  induction vs with
  | nil => rfl
  | cons v vs ih =>
    by_cases hzero : freqAt freq v = 0
    · rw [presentIn_cons_of_absent hzero, ih]
      simp [hzero]
    · rw [presentIn_cons_of_present hzero, List.map_cons, List.map_cons, List.sum_cons, List.sum_cons, ih]

/-- The leaves that TREE_INIT makes weigh the sum of FREQ. -/
theorem Loaded.weightSum_leaves (h : Loaded freq symbols t) :
    t.weightSum (t.leaves.map leafIndex) = (symbols.map fun v => (freqAt freq v).toNat).sum := by
  rw [← sum_presentIn, h.leaves_eq, weightSum, List.map_map]
  refine congrArg List.sum (List.map_congr_left fun v hv => ?_)
  rw [Function.comp, weightOf, h.leaf v hv, weight_leafNode]

theorem weightOf_root_build (h : presentSymbols freq ≠ []) (t : TreeMem) :
    (t.build freq).weightOf (t.build freq).root = (symbols.map fun v => (freqAt freq v).toNat).sum := by
  rw [(build_ok freq t).weightOf_root (build_done h t), (build_sameLeaves freq t).weightSum_leaves,
    (loaded_init freq t).weightSum_leaves]

/-! ### The two least nodes of the queue (R130, R133) -/

theorem heapAt_zero_mem (h : 1 ≤ t.heapSize.toNat) : t.heapAt 0 ∈ t.queue := mem_queue.mpr ⟨0, h, rfl⟩

/-- HEAP[0] is less than every other node of the queue. -/
theorem HeapOrder.least (h : t.HeapOrder) {n : NodeIdx} (hn : n ∈ t.queue) (hne : n ≠ t.heapAt 0) :
    t.less (t.heapAt 0) n = true := by
  obtain ⟨i, hi, rfl⟩ := mem_queue.mp hn
  exact heapAt_zero_least h i (Nat.pos_of_ne_zero fun e => hne (e ▸ rfl)) hi

theorem HeapOrder.least_heapRest (h : t.HeapOrder) (hnodup : t.queue.Nodup) (hlow : 1 ≤ t.heapSize.toNat)
    (hhigh : t.heapSize.toNat ≤ 256) {n : NodeIdx} (hn : n ∈ t.heapRest.queue) : t.less (t.heapAt 0) n = true := by
  have hperm := t.queue_heapRest hlow hhigh
  have hnotin := (List.nodup_cons.mp (hperm.nodup_iff.mp hnodup)).1
  exact h.least (hperm.mem_iff.mpr (List.mem_cons_of_mem _ hn)) fun e => hnotin (e ▸ hn)

theorem nodup_heapRest (hnodup : t.queue.Nodup) (hlow : 1 ≤ t.heapSize.toNat) (hhigh : t.heapSize.toNat ≤ 256) :
    t.heapRest.queue.Nodup := ((t.queue_heapRest hlow hhigh).nodup_iff.mp hnodup).of_cons

theorem less_heapRest (t : TreeMem) : t.heapRest.less = t.less := funext₂ (less_congr (heapRest_node t))

@[simp] theorem node_complete (t : TreeMem) : t.complete.node = t.node := by
  unfold complete
  split <;> rfl

/-- A merge arranges the queue by two extractions and an insertion (R131, R132, R136). -/
theorem merge_arranges (h : 2 ≤ t.heapSize.toNat) (h' : t.heapSize.toNat ≤ 256) :
    Extracts t.less t.queue (t.heapAt 0) t.heapRest.queue ∧
      Extracts t.less t.heapRest.queue t.secondLeast t.twoLess.queue ∧
      Inserts t.merge.less t.twoLess.queue t.nextInternal t.merge.queue := by
  have hsize := toNat_heapRest_heapSize (t := t) (by omega)
  have hroom : (t.twoLess.arenaJoin (t.heapAt 0) t.secondLeast).heapSize.toNat < 256 := by
    rw [arenaJoin_heapSize, toNat_twoLess_heapSize h]
    omega
  refine ⟨t.heapRest_extracts (by omega) h', ?_, ?_⟩
  · rw [← less_heapRest]
    exact t.heapRest.heapRest_extracts (by omega) (by omega)
  · have hinserts := heapInsert_inserts _ t.twoLess.nextInternal hroom
    rw [arenaJoin_queue, twoLess_nextInternal] at hinserts
    rw [merge_eq, queue_complete, twoLess_nextInternal, funext₂ (less_congr (node_complete _)),
      funext₂ (less_congr (heapInsert_node _ _))]
    exact hinserts

/-- The first node that a merge takes is less than the rest of the queue, and the second less than what then remains. -/
theorem merge_takes_least (h : 2 ≤ t.heapSize.toNat) (h' : t.heapSize.toNat ≤ 256) (ho : t.HeapOrder)
    (hnodup : t.queue.Nodup) :
    (∀ c ∈ t.secondLeast :: t.twoLess.queue, t.less (t.heapAt 0) c = true) ∧
      ∀ c ∈ t.twoLess.queue, t.less t.secondLeast c = true := by
  have hsize := toNat_heapRest_heapSize (t := t) (by omega)
  refine ⟨fun c hc => ?first, fun c hc => ?second⟩
  case first =>
    have hperm := t.heapRest.queue_heapRest (by omega) (by omega)
    exact ho.least_heapRest hnodup (by omega) h' (hperm.mem_iff.mpr hc)
  case second =>
    rw [← less_heapRest]
    exact (t.order_heapRest (by omega) h' ho hnodup).least_heapRest (nodup_heapRest hnodup (by omega) h') (by omega)
      (by omega) hc

/-- The merge that empties the rest of the queue completes the tree at the new node. -/
theorem Joins.done_of_nil {a b : NodeIdx} (h : Joins t u a b []) (hu : u.Counts) :
    u.state = .done ∧ u.root = t.nextInternal := by
  have hqueue : u.queue = [t.nextInternal] := List.perm_singleton.mp h.after
  have hsize : u.heapSize = 1 := heapSize_eq_one_iff.mpr (by rw [← length_queue, hqueue]; rfl)
  have hdone := hu.done_iff.mpr hsize
  rw [queue_of_heapSize_one hsize] at hqueue
  exact ⟨hdone, (hu.root_of_done hdone).trans (List.singleton_inj.mp hqueue)⟩

/-- Any other merge leaves the build going on. -/
theorem Joins.building_of_ne_nil {a b : NodeIdx} {rest : List NodeIdx} (h : Joins t u a b rest) (hu : u.Counts)
    (hrest : rest ≠ []) : u.state = .building ∧ u.root = 0 := by
  have hlength := h.after.length_eq
  have hpos := List.length_pos_iff.mpr hrest
  rw [length_queue, List.length_cons] at hlength
  have hbuilding := hu.state_of_many (by omega)
  obtain ⟨-, -, -, hroot⟩ := hu.of_building hbuilding
  exact ⟨hbuilding, hroot⟩

/-! ### The tree does not depend on the arrangement of the queue (R138) -/

/-- `u` differs from `t` in the arrangement of HEAP alone, and in what follows from the rest. -/
structure Rearranges (t u : TreeMem) : Prop where
  nodeAt : ∀ n, u.nodeAt n = t.nodeAt n
  queue : u.queue.Perm t.queue
  nleaf : u.nleaf = t.nleaf
  nint : u.nint = t.nint

theorem Rearranges.heapSize (h : Rearranges t u) : u.heapSize = t.heapSize :=
  BitVec.eq_of_toNat_eq (by rw [← length_queue, ← length_queue, h.queue.length_eq])

theorem Rearranges.state (h : Rearranges t u) (ht : t.Counts) (hu : u.Counts) : u.state = t.state := by
  rw [ht.state_eq, hu.state_eq, h.heapSize]

theorem Rearranges.less (h : Rearranges t u) (a b : NodeIdx) : u.less a b = t.less a b :=
  less_eq_of_nodeAt (h.nodeAt a) (h.nodeAt b)

/-- The least node is the same in every arrangement, since the order is total. -/
theorem Rearranges.heapAt_zero (h : Rearranges t u) (ht : t.HeapOrder) (hu : u.HeapOrder) (hsize : 1 ≤ t.heapSize.toNat) :
    u.heapAt 0 = t.heapAt 0 := by
  by_contra hne
  have hut := hu.least (h.queue.mem_iff.mpr (heapAt_zero_mem hsize)) (Ne.symm hne)
  have htu := ht.least (h.queue.mem_iff.mp (heapAt_zero_mem (by rwa [h.heapSize]))) hne
  exact less_asymm htu (h.less _ _ ▸ hut)

theorem Rearranges.heapRest (h : Rearranges t u) (ht : t.HeapOrder) (hu : u.HeapOrder) (hlow : 1 ≤ t.heapSize.toNat)
    (hhigh : t.heapSize.toNat ≤ 256) : Rearranges t.heapRest u.heapRest where
  nodeAt n := by rw [nodeAt_heapRest, nodeAt_heapRest, h.nodeAt]
  queue := by
    have hsize := congrArg BitVec.toNat h.heapSize
    have hperm := ((u.queue_heapRest (by omega) (by omega)).symm.trans h.queue).trans (t.queue_heapRest hlow hhigh)
    rw [h.heapAt_zero ht hu hlow] at hperm
    exact hperm.cons_inv
  nleaf := by rw [heapRest_nleaf, heapRest_nleaf, h.nleaf]
  nint := by rw [heapRest_nint, heapRest_nint, h.nint]

theorem Ok.orders_of_building (h : t.Ok) (hbuilding : t.state = .building) : t.HeapOrder ∧ t.heapRest.HeapOrder := by
  obtain ⟨hlow, hhigh, -, -⟩ := h.counts.of_building hbuilding
  have horder := h.order (by simp [hbuilding])
  exact ⟨horder, t.order_heapRest (by omega) hhigh horder (h.shape (by simp [hbuilding])).queue_nodup⟩

/-- Two arrangements of one build extract the same two nodes. -/
theorem Rearranges.twoLess (h : Rearranges t u) (ht : t.Ok) (hu : u.Ok) (hbuilding : t.state = .building) :
    u.heapAt 0 = t.heapAt 0 ∧ u.secondLeast = t.secondLeast ∧ Rearranges t.twoLess u.twoLess := by
  obtain ⟨hlow, hhigh, -, -⟩ := ht.counts.of_building hbuilding
  obtain ⟨hto, hto'⟩ := ht.orders_of_building hbuilding
  obtain ⟨huo, huo'⟩ := hu.orders_of_building ((h.state ht.counts hu.counts).trans hbuilding)
  have hsize := toNat_heapRest_heapSize (t := t) (by omega)
  have hrest := h.heapRest hto huo (by omega) hhigh
  exact ⟨h.heapAt_zero hto huo (by omega), hrest.heapAt_zero hto' huo' (by omega),
    hrest.heapRest hto' huo' (by omega) (by omega)⟩

/-- So they make the same merge. -/
theorem Rearranges.merge (h : Rearranges t u) (ht : t.Ok) (hu : u.Ok) (hbuilding : t.state = .building) :
    Rearranges t.merge u.merge := by
  obtain ⟨hfirst, hsecond, hrest⟩ := h.twoLess ht hu hbuilding
  have htj := ht.merge_joins hbuilding
  have huj := hu.merge_joins ((h.state ht.counts hu.counts).trans hbuilding)
  have hnew : u.nextInternal = t.nextInternal := by rw [nextInternal, nextInternal, h.nint]
  exact
    { nodeAt := fun n => by
        rw [htj.node, huj.node, hnew, h.nodeAt, hfirst, hsecond, joinNode, joinNode, h.nodeAt, h.nodeAt]
      queue := huj.after.trans (hnew ▸ (hrest.queue.cons _).trans htj.after.symm)
      nleaf := by rw [htj.nleaf, huj.nleaf, h.nleaf]
      nint := by rw [htj.nint, huj.nint, h.nint] }

theorem Rearranges.buildLoop (fuel : Nat) (h : Rearranges t u) (ht : t.Ok) (hu : u.Ok) :
    Rearranges (t.buildLoop fuel) (u.buildLoop fuel) := by
  induction fuel generalizing t u with
  | zero => exact h
  | succ fuel ih =>
    have hstate := h.state ht.counts hu.counts
    by_cases hbuilding : t.state = .building
    · have hbuilding' := hstate.trans hbuilding
      rw [buildLoop_of_building _ hbuilding, buildLoop_of_building _ hbuilding']
      exact ih (h.merge ht hu hbuilding) (merge_ok ht hbuilding) (merge_ok hu hbuilding')
    · rw [buildLoop_of_ne_building _ hbuilding, buildLoop_of_ne_building _ (hstate ▸ hbuilding)]
      exact h

/-- What TREE_INIT loads depends on FREQ alone, but for the heap's arrangement. -/
theorem Loaded.rearranges (ht : Loaded freq vs t) (hu : Loaded freq vs u) : Rearranges t u := by
  have hqueue := hu.queue.trans ht.queue.symm
  refine ⟨fun n => ?_, hqueue, ?_, hu.nint.trans ht.nint.symm⟩
  · obtain ⟨v, hv, rfl, hnode⟩ | ⟨hn, hnode⟩ := ht.nodeAt_cases n
    · rw [hnode, hu.leaf v hv]
    · rw [hnode, hu.other n hn]
  · refine BitVec.eq_of_toNat_eq ?_
    rw [ht.nleaf, hu.nleaf, ← length_queue, ← length_queue, hqueue.length_eq]

theorem build_rearranges (freq : Vector Word 256) (t u : TreeMem) : Rearranges (t.build freq) (u.build freq) :=
  ((loaded_init freq t).rearranges (loaded_init freq u)).buildLoop 255 (init_ok freq t) (init_ok freq u)

theorem Rearranges.node (h : Rearranges t u) : u.node = t.node := by
  refine Vector.ext fun i hi => ?_
  have hat := h.nodeAt (BitVec.ofNat 9 i)
  have hidx : (BitVec.ofNat 9 i).toNat = i := by rw [BitVec.toNat_ofNat]; omega
  simpa [TreeMem.nodeAt, hidx, hi] using hat

/-- The root is 0, or the one node of the queue. -/
theorem Rearranges.root (h : Rearranges t u) (ht : t.Counts) (hu : u.Counts) : u.root = t.root := by
  rw [ht.root, hu.root, h.state ht hu]
  split
  case isFalse => rfl
  case isTrue hdone =>
    have hsize := ht.done_iff.mp hdone
    have hperm := h.queue
    rw [queue_of_heapSize_one hsize, queue_of_heapSize_one (h.heapSize.trans hsize)] at hperm
    exact List.singleton_inj.mp (List.perm_singleton.mp hperm)

end

end TreeMem

end Sys2Proof.Machine
end

section
/-! SUPPORT. The tree commands as whole steps of the state (41_tree.md R134 to R139), and CODE_GEN out of sequence (42_codegen.md
R160). -/

namespace Sys2Proof.Machine

open TreeMem

variable {s t : State} {tree : TreeMem}

/-! ### The completion of a tree command -/

/-- TREE_INIT and TREE_BUILD succeed when there is a leaf (R134, R137). -/
theorem finishTree_of_leaf (h : tree.nleaf ≠ 0) :
    finishTree tree s = { s.succeeded with tree := tree, codesValid := false } := by
  rw [finishTree, if_neg h, finish_ok]
  rfl

/-- Without a leaf they report E_EMPTY(0) (R134, R137). -/
theorem finishTree_of_no_leaf (h : tree.nleaf = 0) :
    finishTree tree s = { s.failed .empty 0 with tree := tree, codesValid := false } := by
  rw [finishTree, if_pos h, finish_of_ne_ok (by decide)]
  rfl

theorem execTreeInit_of_present (h : presentSymbols s.freq ≠ []) :
    execTreeInit s = .next { s.succeeded with tree := s.tree.init s.freq, codesValid := false } := by
  rw [execTreeInit, finishTree_of_leaf (nleaf_init_ne_zero h s.tree)]

theorem execTreeBuild_of_present (h : presentSymbols s.freq ≠ []) :
    execTreeBuild s = .next { s.succeeded with tree := s.tree.build s.freq, codesValid := false } := by
  rw [execTreeBuild, finishTree_of_leaf (nleaf_build s.freq s.tree ▸ nleaf_init_ne_zero h s.tree)]

/-- During a sound build TREE_STEP merges (R136). -/
theorem execTreeStep_of_building (h : s.tree.Ok) (hbuilding : s.tree.state = .building) :
    execTreeStep s = .next { s.succeeded with tree := s.tree.merge } := by
  obtain ⟨hlow, hhigh, hint, -⟩ := h.counts.of_building hbuilding
  have hcan : s.tree.canMerge = true := by simp [canMerge, hlow, hhigh, hint]
  rw [execTreeStep, if_neg (not_not.mpr hbuilding), if_pos hcan, finish_ok]
  rfl

/-- Settles O16: both commands check TREE_STATE first. -/
theorem wrongSequenceIsReported : Obligations.WrongSequenceIsReported := by
  intro s
  refine ⟨fun h => ?_, fun h => ?_⟩
  · rw [exec_treeStep, execTreeStep, if_pos h, raise_of_ne_ok (by decide)]
  · rw [exec_codeGen, execCodeGen, if_pos h, raise_of_ne_ok (by decide)]

/-- Settles O15: the loop of TREE_INIT passes every symbol by, and the loop of TREE_BUILD does not begin. -/
theorem emptyTableIsReported : Obligations.EmptyTableIsReported := by
  intro s habsent i hi
  have hinit := init_of_absent habsent s.tree
  have hbuild : s.tree.build s.freq = s.tree.init s.freq := buildLoop_of_ne_building 255 (by simp [hinit])
  have hexec : exec i s = .next (finishTree { s.tree.clear with state := .empty, root := 0 } s) := by
    rw [← hinit]
    simp only [List.mem_cons, List.not_mem_nil, or_false] at hi
    obtain rfl | rfl := hi
    · rfl
    · rw [exec_treeBuild, execTreeBuild, hbuild]
  rw [finishTree_of_no_leaf rfl] at hexec
  exact ⟨_, hexec, nodeAt_clear s.tree, rfl, rfl, rfl, rfl, rfl, rfl⟩

/-- Settles O14: the loop of TREE_INIT loads the leaves, each entering the queue in its turn, and HEAP_SIZE = NLEAF decides
TREE_STATE. -/
theorem treeInitLoadsTheLeaves : Obligations.TreeInitLoadsTheLeaves := by
  intro s hpresent
  have h := loaded_init s.freq s.tree
  have hcounts := (init_ok s.freq s.tree).counts
  refine ⟨s.tree.init s.freq, execTreeInit_of_present hpresent, h.nodeAt_leafIndex, fun n hn => h.nodeAt_high hn,
    toNat_nleaf_init s.freq s.tree, h.nint, h.nleaf.symm, h.queue, h.order, init_insertsAll s.freq s.tree,
    fun hone => ?one, fun hmany => ?many⟩
  case one =>
    have hdone := hcounts.done_iff.mpr (h.nleaf ▸ hone)
    exact ⟨hdone, hcounts.root_of_done hdone⟩
  case many =>
    have hzero := nleaf_init_ne_zero hpresent s.tree
    have hbuilding : (s.tree.init s.freq).state = .building := by
      rw [hcounts.state_eq, ← h.nleaf, if_neg hzero, if_neg hmany]
    obtain ⟨-, -, -, hroot⟩ := hcounts.of_building hbuilding
    exact ⟨hbuilding, hroot⟩

/-- Settles O17: the heap's order puts the two least nodes out in turn, and what is left of the queue decides whether the merge was
the last. -/
theorem treeStepMergesTheTwoLeast : Obligations.TreeStepMergesTheTwoLeast := by
  intro s h hbuilding
  obtain ⟨hlow, hhigh, hint, -⟩ := h.counts.of_building hbuilding
  have horder := h.order (by simp [hbuilding])
  have hshape := h.shape (by simp [hbuilding])
  have hj := h.merge_joins hbuilding
  have hcounts := (merge_ok h hbuilding).counts
  obtain ⟨hfirst, hsecond, hinserts⟩ := merge_arranges hlow hhigh
  obtain ⟨hleast, hleast'⟩ := merge_takes_least hlow hhigh horder hshape.queue_nodup
  have hnew := hj.nodeAt_new
  refine ⟨s.tree.heapAt 0, s.tree.secondLeast, s.tree.nextInternal, s.tree.twoLess.queue, s.tree.merge,
    toNat_nextInternal hint, hj.before, hleast, hleast', execTreeStep_of_building h hbuilding, by rw [hnew]; rfl,
    by rw [hnew]; rfl, by rw [hnew]; rfl, by rw [hnew]; rfl, hj.weight_new hshape hint h.counts.bound,
    fun m hm => hj.nodeAt_old hm, hj.after, merge_order hlow hhigh hint horder hshape, ⟨_, _, hfirst, hsecond, hinserts⟩,
    hj.nleaf, hj.toNat_nint hint, hj.toNat_heapSize, fun hnil => ?last, hj.building_of_ne_nil hcounts⟩
  case last =>
    rw [hnil] at hj
    exact hj.done_of_nil hcounts

/-- Settles O18: every merge takes one node from the queue, so 255 suffice, and HEAP_SIZE = 1 gives the counters. -/
theorem treeBuildCompletesTheTree : Obligations.TreeBuildCompletesTheTree := by
  intro s hpresent
  have hok := build_ok s.freq s.tree
  have hdone := build_done hpresent s.tree
  have hsize := hok.counts.done_iff.mp hdone
  have hsum := hok.counts.sum
  rw [heapSize_eq_one_iff.mp hsize] at hsum
  refine ⟨s.tree.build s.freq, execTreeBuild_of_present hpresent, hdone, ?_, by omega, hsize, hok.counts.root_of_done hdone,
    hok⟩
  rw [nleaf_build, toNat_nleaf_init]

/-! ### TREE_BUILD as a sequence (R137) -/

theorem repeatTreeStep_succ {k : Nat} (h : execTreeStep s = .next t) : repeatTreeStep (k + 1) s = repeatTreeStep k t := by
  simp only [repeatTreeStep, exec_treeStep, h]

/-- With `k + 1` nodes queued, `k` TREE_STEPs are the loop of TREE_BUILD; a success already recorded is recorded again. -/
theorem repeatTreeStep_eq_buildLoop {k fuel : Nat} (h : s.tree.Ok) (hrecord : s.succeeded = s)
    (hsize : s.tree.heapSize.toNat = k + 1) (hfuel : k ≤ fuel) :
    repeatTreeStep k s = some { s with tree := s.tree.buildLoop fuel } := by
  induction k generalizing s fuel with
  | zero =>
    have hdone := h.counts.done_iff.mpr (heapSize_eq_one_iff.mpr hsize)
    rw [buildLoop_of_ne_building fuel (by simp [hdone])]
    rfl
  | succ k ih =>
    obtain ⟨fuel, rfl⟩ : ∃ m, fuel = m + 1 := ⟨fuel - 1, by omega⟩
    have hbuilding := h.counts.state_of_many (by omega)
    have hlength := h.toNat_heapSize_merge hbuilding
    have hexec := execTreeStep_of_building h hbuilding
    rw [hrecord] at hexec
    rw [repeatTreeStep_succ hexec, buildLoop_of_building fuel hbuilding]
    exact ih (merge_ok h hbuilding) (congrArg (fun r : State => { r with tree := s.tree.merge }) hrecord)
      (Nat.succ.inj (hlength.trans hsize)) (Nat.le_of_succ_le_succ hfuel)

/-- Settles O19: TREE_INIT queues NLEAF nodes and records a success, which the TREE_STEPs record again. -/
theorem treeBuildIsInitThenSteps : Obligations.TreeBuildIsInitThenSteps := by
  intro s hpresent
  have hpos := length_presentSymbols_pos hpresent
  have hle := length_presentSymbols_le s.freq
  have hsize : (s.tree.init s.freq).heapSize.toNat = (presentSymbols s.freq).length - 1 + 1 := by
    rw [Nat.sub_add_cancel hpos]
    exact (loaded_init s.freq s.tree).heapSize
  exact ⟨_, _, execTreeInit_of_present hpresent, execTreeBuild_of_present hpresent,
    repeatTreeStep_eq_buildLoop (init_ok s.freq s.tree) rfl hsize (by omega)⟩

/-! ### What the tree depends on (R138, R139) -/

/-- Settles O20: the priority order is total, so the arrangement of the queue, in which alone two builds from one FREQ can
differ, does not choose the nodes merged. -/
theorem treeDependsOnFreqAlone : Obligations.TreeDependsOnFreqAlone := by
  intro s1 s2 hfreq
  refine ⟨_, _, rfl, rfl, ?_⟩
  simp only [finishTree_tree, hfreq]
  have h := build_rearranges s2.freq s2.tree s1.tree
  have hcounts1 := (build_ok s2.freq s1.tree).counts
  have hcounts2 := (build_ok s2.freq s2.tree).counts
  exact ⟨h.node, h.root hcounts2 hcounts1, h.nleaf, h.nint, h.heapSize, h.state hcounts2 hcounts1⟩

/-- Settles O21: the root weighs what the leaves weigh, and TREE_INIT makes these of FREQ. -/
theorem rootWeightIsTheFrequencySum : Obligations.RootWeightIsTheFrequencySum := by
  intro s t hpresent hexec
  cases hexec
  exact weightOf_root_build hpresent s.tree

end Sys2Proof.Machine
end

section
/-! SUPPORT. The code table (42_codegen.md R160 to R163): the paths of a complete tree from its root, of which each node has
exactly one, at most 255 bits long; what the traversal of CODE_GEN records of them; and what the codes are as a code. -/

namespace Sys2Proof.Machine

namespace TreeMem

section
variable {t : TreeMem} {p q : Bits} {n m : NodeIdx} {b c : Bool} {v w : Symbol}

/-! ### Paths -/

/-- `p` meets no leaf before its end. -/
def Inner (t : TreeMem) (p : Bits) : Prop := ∀ q b, q ++ [b] <+: p → (t.nodeAt (t.follow q)).leaf = false

/-- `p` leads from the root to the leaf of `v` and meets no leaf on the way, not even at the root. -/
structure LeafPath (t : TreeMem) (v : Symbol) (p : Bits) : Prop where
  inner : t.Inner p
  follow : t.follow p = leafIndex v
  leaf : (t.nodeAt (leafIndex v)).leaf = true

@[simp] theorem follow_nil (t : TreeMem) : t.follow [] = t.root := rfl

@[simp] theorem follow_concat (t : TreeMem) (p : Bits) (b : Bool) : t.follow (p ++ [b]) = t.child (t.follow p) b :=
  List.foldl_concat ..

theorem inner_nil (t : TreeMem) : t.Inner [] := fun _ _ h => absurd (List.prefix_nil.mp h) (by simp)

theorem inner_concat_iff : t.Inner (p ++ [b]) ↔ t.Inner p ∧ (t.nodeAt (t.follow p)).leaf = false := by
  refine ⟨fun h => ⟨fun q c hq => h q c (hq.trans (List.prefix_append ..)), h p b (List.prefix_refl _)⟩, ?_⟩
  rintro ⟨hinner, hlast⟩ q c hq
  obtain heq | hq := List.prefix_concat_iff.mp hq
  · rwa [(List.append_inj' heq rfl).1]
  · exact hinner q c hq

/-- Every node on the way is internal. -/
theorem Inner.internal_of_prefix (h : t.Inner q) (hpq : p <+: q) (hne : p ≠ q) : (t.nodeAt (t.follow p)).leaf = false := by
  obtain ⟨r, rfl⟩ := hpq
  cases r with
  | nil => simp at hne
  | cons b r => exact h p b ⟨r, by simp⟩

/-- A path that goes on beyond `p` takes one bit or the other there. -/
theorem prefix_iff_eq_or_concat : p <+: q ↔ q = p ∨ ∃ b, p ++ [b] <+: q := by
  constructor
  · rintro ⟨r, rfl⟩
    cases r with
    | nil => exact .inl (List.append_nil p)
    | cons b r => exact .inr ⟨b, r, by simp⟩
  · rintro (rfl | ⟨b, h⟩)
    · exact List.prefix_refl _
    · exact (List.prefix_append ..).trans h

theorem LeafPath.not_internal (h : t.LeafPath v p) : (t.nodeAt (t.follow p)).leaf ≠ false := by
  simp [h.follow, h.leaf]

/-- Under a root that is no leaf these are the paths of R161. -/
theorem LeafPath.path (h : t.LeafPath v p) (hroot : (t.nodeAt t.root).leaf = false) : t.Path v p := by
  refine ⟨?_, h.follow, h.leaf, fun k _ hk => h.inner.internal_of_prefix (List.take_prefix ..) ?_⟩
  · rintro rfl
    exact h.not_internal hroot
  · intro heq
    have := congrArg List.length heq
    rw [List.length_take] at this
    omega

/-- No path to a leaf goes on to another (R163). -/
theorem LeafPath.eq_of_prefix (hp : t.LeafPath v p) (hq : t.LeafPath w q) (h : p <+: q) : v = w := by
  by_cases heq : p = q
  · subst heq
    exact leafIndex_injective (hp.follow.symm.trans hq.follow)
  · exact absurd (hq.inner.internal_of_prefix h heq) hp.not_internal

/-! ### A complete tree (R43) -/

/-- A complete tree: a forest whose one root is ROOT (R43). -/
structure IsTree (t : TreeMem) : Prop extends t.Shape where
  queue : t.queue = [t.root]
  nint : t.nint.toNat ≤ 255

/-- A tree that is DONE is complete, with one internal node fewer than leaves (R24, R135). -/
theorem Ok.isTree (h : t.Ok) (hdone : t.state = .done) : t.IsTree ∧ t.nint.toNat + 1 = t.nleaf.toNat := by
  have hsize : t.heapSize = 1 := h.counts.done_iff.mp hdone
  have hsum := h.counts.sum
  have hbound := h.counts.bound
  rw [heapSize_eq_one_iff.mp hsize] at hsum
  refine ⟨⟨h.shape (by simp [hdone]), ?_, by omega⟩, by omega⟩
  rw [h.counts.root_of_done hdone, queue_of_heapSize_one hsize]

/-- The edges of the tree: an internal node and the bit that leads to the child. -/
def edges (t : TreeMem) : List (NodeIdx × Bool) := t.internals.flatMap fun n => [(n, false), (n, true)]

theorem mem_edges {e : NodeIdx × Bool} : e ∈ t.edges ↔ e.1 ∈ t.internals := by
  obtain ⟨n, b⟩ := e
  cases b <;> simp [edges]

/-- A bound on the edges below a node: 0 at a leaf, else the number of internal nodes up to its index, which falls along every
edge. -/
def height (n : NodeIdx) : Nat := n.toNat - 255

/-- A quantity that each internal node shares out between its children has one sum over the parents and over the children. -/
theorem sum_edges {f : NodeIdx → Nat} (hf : ∀ n ∈ t.internals, f (t.child n false) + f (t.child n true) = f n) :
    (t.edges.map fun e => f (t.child e.1 e.2)).sum = (t.internals.map f).sum := by
  rw [edges, List.map_flatMap, List.flatMap_def, List.sum_flatten, List.map_map]
  exact congrArg List.sum (List.map_congr_left fun n hn => by simpa using hf n hn)

/-! ### What a traversal records -/

/-- From `ct` to `ct'` each leaf with a path through `p` is given its path, and every entry that is not given one is kept. -/
def Records (t : TreeMem) (p : Bits) (ct ct' : Vector Bits 256) : Prop :=
  ∀ v, t.LeafPath v (codeAt ct' v) ∨ codeAt ct' v = codeAt ct v ∧ ∀ q, p <+: q → ¬ t.LeafPath v q

theorem records_setCode {ct : Vector Bits 256} (hp : t.Inner p) (hleaf : (t.nodeAt (t.follow p)).leaf = true)
    (hv : t.follow p = leafIndex v) : t.Records p ct (setCode ct v p) := by
  intro w
  rw [codeAt_setCode]
  split
  case isTrue heq =>
    subst heq
    exact .inl ⟨hp, hv, hv ▸ hleaf⟩
  case isFalse hne =>
    exact .inr ⟨rfl, fun q hpq hq => hne ((LeafPath.mk hp hv (hv ▸ hleaf)).eq_of_prefix hq hpq).symm⟩

/-- At an internal node the left subtree and then the right one are recorded. -/
theorem Records.node {ct ct1 ct2 : Vector Bits 256} (hinternal : (t.nodeAt (t.follow p)).leaf = false)
    (hl : t.Records (p ++ [false]) ct ct1) (hr : t.Records (p ++ [true]) ct1 ct2) : t.Records p ct ct2 := by
  intro v
  obtain hpath | ⟨hsame2, hnot2⟩ := hr v
  · exact .inl hpath
  rw [hsame2]
  obtain hpath | ⟨hsame1, hnot1⟩ := hl v
  · exact .inl hpath
  refine .inr ⟨hsame1, fun q hpq hq => ?_⟩
  obtain rfl | ⟨b, hb⟩ := prefix_iff_eq_or_concat.mp hpq
  · exact hq.not_internal hinternal
  · cases b
    · exact hnot1 q hb hq
    · exact hnot2 q hb hq

/-- `ct` holds the codes of R161: the empty code of a symbol without a leaf, the code 0 of a lone leaf, and the paths. -/
structure HoldsCodes (t : TreeMem) (ct : Vector Bits 256) : Prop where
  absent : ∀ v, (t.nodeAt (leafIndex v)).valid = false → codeAt ct v = []
  lone : ∀ v, (t.nodeAt t.root).leaf = true → (t.nodeAt (leafIndex v)).valid = true → codeAt ct v = [false]
  path : ∀ v, (t.nodeAt t.root).leaf = false → (t.nodeAt (leafIndex v)).valid = true → t.LeafPath v (codeAt ct v)

/-- Exactly the leaves have a code (R163). -/
theorem HoldsCodes.ne_nil_iff {ct : Vector Bits 256} (h : t.HoldsCodes ct) (v : Symbol) :
    codeAt ct v ≠ [] ↔ (t.nodeAt (leafIndex v)).valid = true := by
  refine ⟨fun hne => Bool.eq_true_of_not_eq_false fun hv => hne (h.absent v hv), fun hv => ?_⟩
  by_cases hroot : (t.nodeAt t.root).leaf = true
  · simp [h.lone v hroot hv]
  · have hinternal := Bool.eq_false_of_not_eq_true hroot
    obtain ⟨hne, -⟩ := (h.path v hinternal hv).path hinternal
    exact hne

namespace IsTree

variable (h : t.IsTree)
include h

theorem root_valid : (t.nodeAt t.root).valid = true := h.valid_of_queue (by simp [h.queue])

theorem internal_high (hvalid : (t.nodeAt n).valid = true) (hinternal : (t.nodeAt n).leaf = false) : 256 ≤ n.toNat := by
  by_contra hlow
  exact absurd ((h.low_leaf n (by omega) hvalid).symm.trans hinternal) (by decide)

theorem leaf_low (hleaf : (t.nodeAt n).leaf = true) : n.toNat < 256 := by
  by_contra hhigh
  exact absurd (hleaf.symm.trans (h.high_internal n (by omega))) (by decide)

theorem leaf_leafIndex (hvalid : (t.nodeAt (leafIndex v)).valid = true) : (t.nodeAt (leafIndex v)).leaf = true :=
  h.low_leaf _ (by rw [toNat_leafIndex]; omega) hvalid

theorem mem_internals_iff : n ∈ t.internals ↔ (t.nodeAt n).valid = true ∧ (t.nodeAt n).leaf = false := by
  rw [mem_internals h.nint]
  constructor
  · rintro ⟨hhigh, hlt⟩
    exact ⟨(h.high_valid n hhigh).mpr hlt, h.high_internal n hhigh⟩
  · rintro ⟨hvalid, hinternal⟩
    exact ⟨h.internal_high hvalid hinternal, h.lt_of_valid hvalid⟩

theorem child_valid (hn : n ∈ t.internals) (b : Bool) : (t.nodeAt (t.child n b)).valid = true := by
  obtain ⟨hvalid, hinternal⟩ := h.mem_internals_iff.mp hn
  obtain ⟨hl, hr, -⟩ := h.children n hvalid hinternal
  cases b
  · exact hl
  · exact hr

theorem child_lt (hn : n ∈ t.internals) (b : Bool) : t.child n b < n := by
  obtain ⟨hvalid, hinternal⟩ := h.mem_internals_iff.mp hn
  obtain ⟨-, -, -, hl, hr⟩ := h.children n hvalid hinternal
  cases b
  · exact hl
  · exact hr

theorem owned_eq : t.owned = t.root :: t.edges.map (fun e => t.child e.1 e.2) := by
  rw [owned, h.queue, edges, List.map_flatMap]
  rfl

/-- Every node but the root has a parent. -/
theorem root_or_child (hvalid : (t.nodeAt m).valid = true) : m = t.root ∨ ∃ n ∈ t.internals, ∃ b, m = t.child n b := by
  rw [← h.owned_valid, h.owned_eq, List.mem_cons, List.mem_map] at hvalid
  exact hvalid.imp_right fun ⟨e, he, heq⟩ => ⟨e.1, mem_edges.mp he, e.2, heq.symm⟩

theorem child_ne_root (hn : n ∈ t.internals) (b : Bool) : t.child n b ≠ t.root := by
  have hnodup := h.owned_once
  rw [h.owned_eq, List.nodup_cons] at hnodup
  exact fun heq => hnodup.1 (heq ▸ List.mem_map_of_mem (mem_edges (e := (n, b)).mpr hn))

/-- No node has two parents, nor is it both children of one. -/
theorem child_injective (hn : n ∈ t.internals) (hm : m ∈ t.internals) (heq : t.child n b = t.child m c) :
    n = m ∧ b = c := by
  have hnodup := h.owned_once
  rw [h.owned_eq, List.nodup_cons] at hnodup
  exact Prod.mk.inj (List.inj_on_of_nodup_map hnodup.2 (mem_edges (e := (n, b)).mpr hn) (mem_edges (e := (m, c)).mpr hm) heq)

/-! ### Each node has one path -/

/-- A path that meets no leaf before its end leads to a node. -/
theorem valid_follow (hp : t.Inner p) : (t.nodeAt (t.follow p)).valid = true := by
  induction p using List.reverseRecOn with
  | nil => exact h.root_valid
  | append_singleton p b ih =>
    obtain ⟨hinner, hinternal⟩ := inner_concat_iff.mp hp
    rw [follow_concat]
    exact h.child_valid (h.mem_internals_iff.mpr ⟨ih hinner, hinternal⟩) b

theorem follow_mem_internals (hp : t.Inner p) (hinternal : (t.nodeAt (t.follow p)).leaf = false) :
    t.follow p ∈ t.internals :=
  h.mem_internals_iff.mpr ⟨h.valid_follow hp, hinternal⟩

/-- A path to every node: its parent's, whose index is greater, and one bit more. -/
theorem exists_path (hvalid : (t.nodeAt n).valid = true) : ∃ p, t.Inner p ∧ t.follow p = n := by
  induction hk : 511 - n.toNat using Nat.strong_induction_on generalizing n with
  | _ k ih =>
    obtain rfl | ⟨m, hm, b, rfl⟩ := h.root_or_child hvalid
    · exact ⟨[], inner_nil t, rfl⟩
    · obtain ⟨hm', hinternal⟩ := h.mem_internals_iff.mp hm
      have hlt := BitVec.lt_def.mp (h.child_lt hm b)
      obtain ⟨p, hp, rfl⟩ := ih (511 - m.toNat) (by omega) hm' rfl
      exact ⟨p ++ [b], inner_concat_iff.mpr ⟨hp, hinternal⟩, follow_concat t p b⟩

/-- Two paths to one node are one path, since their last edges come from the one parent. -/
theorem path_unique (hp : t.Inner p) (hq : t.Inner q) (heq : t.follow p = t.follow q) : p = q := by
  induction p using List.reverseRecOn generalizing q with
  | nil =>
    cases q using List.reverseRecOn with
    | nil => rfl
    | append_singleton q c =>
      obtain ⟨hq', hc⟩ := inner_concat_iff.mp hq
      rw [follow_concat] at heq
      exact absurd heq.symm (h.child_ne_root (h.follow_mem_internals hq' hc) c)
  | append_singleton p b ih =>
    obtain ⟨hp', hb⟩ := inner_concat_iff.mp hp
    have hpi := h.follow_mem_internals hp' hb
    rw [follow_concat] at heq
    cases q using List.reverseRecOn with
    | nil => exact absurd heq (h.child_ne_root hpi b)
    | append_singleton q c =>
      obtain ⟨hq', hc⟩ := inner_concat_iff.mp hq
      rw [follow_concat] at heq
      obtain ⟨hnode, rfl⟩ := h.child_injective hpi (h.follow_mem_internals hq' hc) heq
      rw [ih hp' hq' hnode]

/-! ### The depth of the tree (R162) -/

theorem height_child_lt (hn : n ∈ t.internals) (b : Bool) : height (t.child n b) < height n := by
  have hlt := BitVec.lt_def.mp (h.child_lt hn b)
  obtain ⟨hhigh, -⟩ := (mem_internals h.nint).mp hn
  unfold height
  omega

theorem height_root_le : height t.root ≤ 255 := by
  have hlt := h.lt_of_valid h.root_valid
  have hint := h.nint
  unfold height
  omega

theorem length_add_height_le (hp : t.Inner p) : p.length + height (t.follow p) ≤ 255 := by
  induction p using List.reverseRecOn with
  | nil => simpa using h.height_root_le
  | append_singleton p b ih =>
    obtain ⟨hinner, hinternal⟩ := inner_concat_iff.mp hp
    have hlt := h.height_child_lt (h.follow_mem_internals hinner hinternal) b
    have hle := ih hinner
    rw [follow_concat, List.length_append, List.length_singleton]
    omega

/-! ### The traversal of CODE_GEN (R160, R162) -/

/-- The traversal below a path ends and records the leaves below it. -/
theorem visit_records {fuel : Nat} (hp : t.Inner p) (hfuel : height (t.follow p) < fuel) (ct : Vector Bits 256) :
    ∃ ct', t.visit fuel (t.follow p) p ct = some ct' ∧ t.Records p ct ct' := by
  induction fuel generalizing p ct with
  | zero => omega
  | succ fuel ih =>
    by_cases hleaf : (t.nodeAt (t.follow p)).leaf = true
    · have hlow := h.leaf_low hleaf
      refine ⟨setCode ct ((t.follow p).setWidth 8) p, ?_, records_setCode hp hleaf (leafIndex_setWidth hlow).symm⟩
      rw [visit, if_pos hleaf, recordCode, if_pos hlow]
    · have hinternal := Bool.eq_false_of_not_eq_true hleaf
      have hmem := h.follow_mem_internals hp hinternal
      have hchild (b : Bool) : t.Inner (p ++ [b]) ∧ height (t.follow (p ++ [b])) < fuel := by
        have hlt := h.height_child_lt hmem b
        rw [follow_concat]
        exact ⟨inner_concat_iff.mpr ⟨hp, hinternal⟩, by omega⟩
      obtain ⟨ct1, hvisit1, hrec1⟩ := ih (hchild false).1 (hchild false).2 ct
      obtain ⟨ct2, hvisit2, hrec2⟩ := ih (hchild true).1 (hchild true).2 ct1
      rw [follow_concat] at hvisit1 hvisit2
      refine ⟨ct2, ?_, hrec1.node hinternal hrec2⟩
      rw [visit, if_neg hleaf, show (t.nodeAt (t.follow p)).left = t.child (t.follow p) false from rfl, hvisit1]
      exact hvisit2

/-! ### The code table (R160, R161) -/

/-- A root that is a leaf is the whole tree. -/
theorem eq_root_of_leaf (hroot : (t.nodeAt t.root).leaf = true) (hvalid : (t.nodeAt n).valid = true) : n = t.root := by
  obtain ⟨p, hp, rfl⟩ := h.exists_path hvalid
  by_cases hnil : [] = p
  · rw [← hnil, follow_nil]
  · exact absurd (hroot.symm.trans (hp.internal_of_prefix List.nil_prefix hnil)) (by decide)

theorem root_internal (hint : 1 ≤ t.nint.toNat) : (t.nodeAt t.root).leaf = false := by
  refine Bool.eq_false_of_not_eq_true fun hroot => ?_
  have hmem : (256 : NodeIdx) ∈ t.internals := (mem_internals h.nint).mpr ⟨by decide, Nat.lt_add_of_pos_right hint⟩
  obtain ⟨hvalid, hinternal⟩ := h.mem_internals_iff.mp hmem
  rw [h.eq_root_of_leaf hroot hvalid, hroot] at hinternal
  cases hinternal

theorem exists_leafPath (hvalid : (t.nodeAt (leafIndex v)).valid = true) : ∃ p, t.LeafPath v p := by
  obtain ⟨p, hp, hv⟩ := h.exists_path hvalid
  exact ⟨p, hp, hv, h.leaf_leafIndex hvalid⟩

theorem valid_of_leafPath (hp : t.LeafPath v p) : (t.nodeAt (leafIndex v)).valid = true :=
  hp.follow ▸ h.valid_follow hp.inner

theorem holdsCodes_of_leaf (hroot : (t.nodeAt t.root).leaf = true) (hv : leafIndex v = t.root) :
    t.HoldsCodes (setCode (tabulate 256 fun _ => []) v [false]) where
  absent w hw := by
    have hne : w ≠ v := by
      rintro rfl
      rw [hv, h.root_valid] at hw
      cases hw
    rw [codeAt_setCode, if_neg hne, codeAt_tabulate]
  lone w _ hw := by
    rw [codeAt_setCode, if_pos (leafIndex_injective ((h.eq_root_of_leaf hroot hw).trans hv.symm))]
  path w hinternal := absurd (hroot.symm.trans hinternal) (by decide)

/-- What the traversal records from the root on, into the empty table. -/
theorem holdsCodes_of_records {ct : Vector Bits 256} (hroot : (t.nodeAt t.root).leaf = false)
    (hrec : t.Records [] (tabulate 256 fun _ => []) ct) : t.HoldsCodes ct where
  absent v hv := by
    obtain hpath | ⟨hsame, -⟩ := hrec v
    · exact absurd (hv.symm.trans (h.valid_of_leafPath hpath)) (by decide)
    · rw [hsame, codeAt_tabulate]
  lone v hleaf := absurd (hleaf.symm.trans hroot) (by decide)
  path v _ hv := by
    obtain ⟨p, hp⟩ := h.exists_leafPath hv
    exact (hrec v).resolve_right fun hnone => hnone.2 p List.nil_prefix hp

/-- CODE_GEN's table exists and holds the codes. -/
theorem codes_hold : ∃ ct, t.codes = some ct ∧ t.HoldsCodes ct := by
  by_cases hroot : (t.nodeAt t.root).leaf = true
  · have hlow := h.leaf_low hroot
    refine ⟨_, ?_, h.holdsCodes_of_leaf hroot (leafIndex_setWidth hlow)⟩
    rw [codes, if_pos hroot, recordCode, if_pos hlow]
  · have hheight : height t.root < 256 := Nat.lt_succ_of_le h.height_root_le
    obtain ⟨ct, hvisit, hrec⟩ := h.visit_records (inner_nil t) hheight (tabulate 256 fun _ => [])
    refine ⟨ct, ?_, h.holdsCodes_of_records (Bool.eq_false_of_not_eq_true hroot) hrec⟩
    rw [codes, if_neg hroot]
    exact hvisit

/-! ### The codes as a code (R163) -/

/-- Only one symbol's code begins with the code of a leaf. -/
theorem eq_of_code_prefix {ct : Vector Bits 256} (hct : t.HoldsCodes ct) (hv : (t.nodeAt (leafIndex v)).valid = true)
    (hw : (t.nodeAt (leafIndex w)).valid = true) (hprefix : codeAt ct v <+: codeAt ct w) : v = w := by
  by_cases hroot : (t.nodeAt t.root).leaf = true
  · exact leafIndex_injective ((h.eq_root_of_leaf hroot hv).trans (h.eq_root_of_leaf hroot hw).symm)
  · have hinternal := Bool.eq_false_of_not_eq_true hroot
    exact (hct.path v hinternal hv).eq_of_prefix (hct.path w hinternal hw) hprefix

/-- A quantity shared out from the root down ends up with the leaves, since every node but the root is a child once (R43). -/
theorem sum_leaves {f : NodeIdx → Nat} (hf : ∀ n ∈ t.internals, f (t.child n false) + f (t.child n true) = f n) :
    (t.leaves.map fun v => f (leafIndex v)).sum = f t.root := by
  have hperm := ((h.owned_perm h.nint).map f).sum_eq
  have hedges := sum_edges hf
  rw [h.owned_eq] at hperm
  simp only [List.map_cons, List.map_append, List.map_map, List.sum_cons, List.sum_append, Function.comp_def, hedges]
    at hperm
  omega

/-- Since each node has one path, it has a depth. -/
theorem exists_depth : ∃ depth : NodeIdx → Nat, ∀ p, t.Inner p → depth (t.follow p) = p.length := by
  choose! path hinner hfollow using fun n => h.exists_path (n := n)
  refine ⟨fun n => (path n).length, fun p hp => ?_⟩
  have hvalid := h.valid_follow hp
  exact congrArg List.length (h.path_unique (hinner _ hvalid) hp (hfollow _ hvalid))

/-- The share 2^(255 - d) of a node at depth d falls to its children in halves: no internal node is at depth 255. -/
theorem share_halves {depth : NodeIdx → Nat} (hdepth : ∀ p, t.Inner p → depth (t.follow p) = p.length)
    (hn : n ∈ t.internals) :
    2 ^ (255 - depth (t.child n false)) + 2 ^ (255 - depth (t.child n true)) = 2 ^ (255 - depth n) := by
  obtain ⟨hvalid, hinternal⟩ := h.mem_internals_iff.mp hn
  obtain ⟨p, hp, rfl⟩ := h.exists_path hvalid
  have hchild (b : Bool) : depth (t.child (t.follow p) b) = p.length + 1 := by
    rw [← follow_concat, hdepth _ (inner_concat_iff.mpr ⟨hp, hinternal⟩), List.length_append, List.length_singleton]
  have hlen := h.length_add_height_le hp
  have hheight := h.height_child_lt hn false
  have hexp : 255 - (p.length + 1) + 1 = 255 - p.length := by omega
  rw [hchild, hchild, hdepth p hp, ← mul_two, ← pow_succ, hexp]

/-- The Kraft sum of the codes: the shares of the leaves make up the root's, 2^255. -/
theorem kraft_sum {ct : Vector Bits 256} (hct : t.HoldsCodes ct) (hroot : (t.nodeAt t.root).leaf = false) :
    (t.leaves.map fun v => 2 ^ (255 - (codeAt ct v).length)).sum = 2 ^ 255 := by
  obtain ⟨depth, hdepth⟩ := h.exists_depth
  calc (t.leaves.map fun v => 2 ^ (255 - (codeAt ct v).length)).sum
      = (t.leaves.map fun v => 2 ^ (255 - depth (leafIndex v))).sum := by
        refine congrArg List.sum (List.map_congr_left fun v hv => ?_)
        obtain ⟨hinner, hfollow, -⟩ := hct.path v hroot (mem_leaves.mp hv)
        rw [← hfollow, hdepth _ hinner]
    _ = 2 ^ (255 - depth t.root) := h.sum_leaves (f := fun n => 2 ^ (255 - depth n)) fun _ => h.share_halves hdepth
    _ = 2 ^ 255 := by rw [← follow_nil, hdepth [] (inner_nil t)]; rfl

end IsTree

end

end TreeMem

/-! ### MAXLEN (R160) -/

/-- MAXLEN is the greatest of the lengths, or 0. -/
theorem maxCodeLen_greatest (ct : Vector Bits 256) :
    (∀ v, (codeAt ct v).length ≤ maxCodeLen ct) ∧ ∃ v, (codeAt ct v).length = maxCodeLen ct := by
  have hmax : (0 :: symbols.map fun v => (codeAt ct v).length).max? = some (maxCodeLen ct) := List.max?_cons'
  obtain ⟨hmem, hle⟩ := List.max?_eq_some_iff.mp hmax
  have hbound (v : Symbol) : (codeAt ct v).length ≤ maxCodeLen ct :=
    hle _ (List.mem_cons_of_mem _ (List.mem_map.mpr ⟨v, mem_symbols v, rfl⟩))
  refine ⟨hbound, ?_⟩
  obtain hzero | hmem := List.mem_cons.mp hmem
  · exact ⟨0, Nat.le_antisymm (hbound 0) (hzero ▸ Nat.zero_le _)⟩
  · obtain ⟨v, -, hv⟩ := List.mem_map.mp hmem
    exact ⟨v, hv⟩

/-- It fits its 8 bits, since every code does (R7, R162). -/
theorem toNat_maxCodeLen {ct : Vector Bits 256} (h : CodeTableFits ct) :
    (BitVec.ofNat 8 (maxCodeLen ct)).toNat = maxCodeLen ct := by
  obtain ⟨-, v, hv⟩ := maxCodeLen_greatest ct
  have hfit := h v
  rw [BitVec.toNat_ofNat]
  omega

/-! ### The command and the table it leaves -/

open TreeMem

variable {s : State}

theorem execCodeGen_of_codes {ct : Vector Bits 256} (hdone : s.tree.state = .done) (hcodes : s.tree.codes = some ct) :
    execCodeGen s = .next { s.succeeded with ct := ct, maxLen := BitVec.ofNat 8 (maxCodeLen ct), codesValid := true } := by
  simp only [execCodeGen, hdone, hcodes, finish_ok]
  rfl

/-- While CODES_VALID is 1 there is a complete tree, with one internal node fewer than leaves, and CT holds its codes. -/
theorem State.CodesCurrent.holds (hcurrent : s.CodesCurrent) (h : s.tree.Ok) (hvalid : s.codesValid = true) :
    s.tree.IsTree ∧ s.tree.nint.toNat + 1 = s.tree.nleaf.toNat ∧ s.tree.HoldsCodes s.ct := by
  obtain ⟨hdone, hcodes⟩ := hcurrent hvalid
  obtain ⟨htree, hint⟩ := h.isTree hdone
  obtain ⟨ct, hct, hholds⟩ := htree.codes_hold
  obtain rfl : ct = s.ct := Option.some.inj (hct.symm.trans hcodes)
  exact ⟨htree, hint, hholds⟩

/-- Settles O22: the traversal of a complete tree ends and records the leaves' paths. -/
theorem codeGenRecordsThePaths : Obligations.CodeGenRecordsThePaths := by
  intro s h hdone
  obtain ⟨htree, -⟩ := h.isTree hdone
  obtain ⟨ct, hcodes, hholds⟩ := htree.codes_hold
  have hlen := toNat_maxCodeLen (codeTableFits_codes hcodes)
  refine ⟨ct, BitVec.ofNat 8 (maxCodeLen ct), execCodeGen_of_codes hdone hcodes, hholds.absent, hholds.lone,
    fun v hroot hv => (hholds.path v hroot hv).path hroot, ?_⟩
  rw [hlen]
  exact maxCodeLen_greatest ct

/-- Settles O23: a path that met a leaf on its way would not be a path, and exactly the leaves have one. -/
theorem codesArePrefixFree : Obligations.CodesArePrefixFree := by
  intro s h hcurrent hvalid
  obtain ⟨htree, -, hholds⟩ := hcurrent.holds h hvalid
  have hiff := hholds.ne_nil_iff
  exact ⟨fun v w hne hv hw hprefix =>
    hne (htree.eq_of_code_prefix hholds ((hiff v).mp hv) ((hiff w).mp hw) hprefix), hiff⟩

/-- Settles O24: the symbols that have a code are the leaves, whose shares of the root's 2^255 add up to it. -/
theorem codesAreComplete : Obligations.CodesAreComplete := by
  intro s h hcurrent hvalid hmany
  obtain ⟨htree, hint, hholds⟩ := hcurrent.holds h hvalid
  have hleaves : symbols.filter (fun v => decide (codeAt s.ct v ≠ [])) = s.tree.leaves :=
    List.filter_congr fun v _ => Bool.eq_iff_iff.mpr (decide_eq_true_iff.trans (hholds.ne_nil_iff v))
  rw [hleaves]
  exact htree.kraft_sum hholds (htree.root_internal (by omega))

end Sys2Proof.Machine
end

section
/-! SUPPORT. The bit packer (43_pack.md R180 to R183): the padding's arithmetic, the bits of the packed stream, the codes of a
list of bytes, and ENCODE by the outcome of its checks. -/

namespace Sys2Proof.Machine

/-! ### The padding (R182) -/

/-- The padding fills the last payload byte. -/
theorem add_padOf (T : Nat) : T + padOf T = 8 * ((T + 7) / 8) := by
  unfold padOf
  omega

theorem padOf_lt (T : Nat) : padOf T < 8 := Nat.mod_lt _ (by decide)

theorem payload_length (T : Nat) : (T + padOf T) / 8 = (T + 7) / 8 := by
  rw [add_padOf, Nat.mul_div_cancel_left _ (by decide)]

theorem streamLength_pos (T : Nat) : 0 < streamLength T := by
  unfold streamLength
  omega

/-- A bit string holds as many bits as its payload, less the padding (R183). -/
theorem streamLength_sub_padOf (T : Nat) : 8 * (streamLength T - 1) - padOf T = T := by
  have := add_padOf T
  unfold streamLength
  omega

/-! ### The packed stream (R181) -/

@[simp] theorem length_packBytes (n : Nat) (bits : Bits) : (packBytes n bits).length = n := by
  induction n generalizing bits with
  | zero => rfl
  | succ n ih => rw [packBytes, List.length_cons, ih]

/-- Bit `k` of a bit string stands in byte `k / 8`, `k % 8` places below the most significant; past the string's end it is 0. -/
theorem getLsbD_packBytes {n : Nat} {bits : Bits} {k : Nat} (h : k / 8 < (packBytes n bits).length) :
    ((packBytes n bits)[k / 8]).getLsbD (7 - k % 8) = bits.getD k false := by
  induction n generalizing bits k with
  | zero => exact absurd h (Nat.not_lt_zero _)
  | succ n ih =>
    by_cases hk : k < 8
    · have hbyte : k / 8 = 0 := Nat.div_eq_of_lt hk
      simp only [packBytes, hbyte, List.getElem_cons_zero, Nat.mod_eq_of_lt hk]
      exact msbFirst_getLsbD 8 _ k hk
    · obtain ⟨j, rfl⟩ : ∃ j, k = j + 8 := ⟨k - 8, by omega⟩
      have hbyte : (j + 8) / 8 = j / 8 + 1 := Nat.add_div_right j (by decide)
      have hj : j / 8 < (packBytes n (bits.drop 8)).length := by
        rw [length_packBytes] at h ⊢
        omega
      simp only [packBytes, hbyte, List.getElem_cons_succ, Nat.add_mod_right]
      rw [ih hj, List.getD_eq_getElem?_getD, List.getElem?_drop, Nat.add_comm, List.getD_eq_getElem?_getD]

/-- Zeros at the end of a bit string read as what lies past its end. -/
theorem getD_append_zeros (bits : Bits) (n k : Nat) : (bits ++ List.replicate n false).getD k false = bits.getD k false := by
  by_cases hk : k < bits.length
  · exact List.getD_append _ _ _ _ hk
  · have hk := Nat.not_lt.mp hk
    rw [List.getD_append_right _ _ _ _ hk, List.getD_eq_default _ _ hk, List.getD_eq_getElem?_getD,
      List.getElem?_getD_replicate_default_eq]

@[simp] theorem length_packStream (bits : Bits) : (packStream bits).bytes.length = streamLength bits.length := by
  simp only [packStream, List.length_cons, length_packBytes]
  exact (Nat.add_comm _ 1).trans (congrArg (1 + ·) (payload_length bits.length))

@[simp] theorem packStream_pad (bits : Bits) : (packStream bits).pad = padOf bits.length := rfl

@[simp] theorem packStream_bits (bits : Bits) : (packStream bits).bits = bits.length := rfl

/-- The stream begins with the padding byte. -/
theorem packStream_zero (bits : Bits) (h : 0 < (packStream bits).bytes.length) :
    ((packStream bits).bytes[0]).toNat = padOf bits.length := by
  have := padOf_lt bits.length
  refine (BitVec.toNat_ofNat _ _).trans (Nat.mod_eq_of_lt ?_)
  exact this.trans (by decide)

/-- The payload follows it, most significant bit first, and the padding bits are 0. -/
theorem packStream_succ {bits : Bits} {k : Nat} (h : k / 8 + 1 < (packStream bits).bytes.length) :
    ((packStream bits).bytes[k / 8 + 1]).getLsbD (7 - k % 8) = bits.getD k false := by
  refine Eq.trans ?_ (getD_append_zeros bits (padOf bits.length) k)
  exact getLsbD_packBytes _

/-! ### The codes of a list of bytes (R180) -/

section
variable {ct : Vector Bits 256} {v : Byte} {vs : List Byte}

theorem collectCodes_cons_of_coded (h : codeAt ct v ≠ []) (k : Nat) :
    collectCodes ct (v :: vs) k = (collectCodes ct vs (k + 1)).map (codeAt ct v ++ ·) := by
  rw [collectCodes, if_neg (by rwa [List.length_eq_zero_iff])]
  cases collectCodes ct vs (k + 1) <;> rfl

theorem collectCodes_cons_of_uncoded (h : codeAt ct v = []) (k : Nat) : collectCodes ct (v :: vs) k = .error k := by
  rw [collectCodes, if_pos (by rw [h]; rfl)]

/-- The codes are collected exactly when every byte has one. -/
theorem collectCodes_eq_ok_iff {k : Nat} {bits : Bits} :
    collectCodes ct vs k = .ok bits ↔ (∀ v ∈ vs, codeAt ct v ≠ []) ∧ bits = vs.flatMap (codeAt ct) := by
  induction vs generalizing k bits with
  | nil =>
    rw [collectCodes, Except.ok.injEq, eq_comm]
    exact (and_iff_right (List.forall_mem_nil _)).symm
  | cons v vs ih =>
    by_cases hv : codeAt ct v = []
    · simp [collectCodes_cons_of_uncoded hv, hv]
    · rw [collectCodes_cons_of_coded hv]
      constructor
      · intro h
        cases hrest : collectCodes ct vs (k + 1) with
        | error j => rw [hrest] at h; cases h
        | ok rest =>
          rw [hrest] at h
          cases h
          obtain ⟨hvs, rfl⟩ := ih.mp hrest
          exact ⟨List.forall_mem_cons.mpr ⟨hv, hvs⟩, rfl⟩
      · rintro ⟨hcoded, rfl⟩
        rw [ih.mpr ⟨(List.forall_mem_cons.mp hcoded).2, rfl⟩]
        rfl

/-- Otherwise the first byte that has none is reported, by its offset. -/
theorem collectCodes_eq_error {i : Nat} (hi : i < vs.length) (huncoded : codeAt ct vs[i] = [])
    (hlower : ∀ j (hj : j < i), codeAt ct vs[j] ≠ []) (k : Nat) : collectCodes ct vs k = .error (k + i) := by
  induction vs generalizing i k with
  | nil => exact absurd hi (Nat.not_lt_zero i)
  | cons v vs ih =>
    cases i with
    | zero => exact collectCodes_cons_of_uncoded huncoded k
    | succ i =>
      have hrest : collectCodes ct vs (k + 1) = .error (k + 1 + i) :=
        ih (Nat.lt_of_succ_lt_succ hi) huncoded (fun j hj => hlower (j + 1) (Nat.succ_lt_succ hj)) (k + 1)
      have hv : codeAt ct v ≠ [] := hlower 0 (Nat.zero_lt_succ i)
      rw [collectCodes_cons_of_coded hv, hrest, Nat.add_assoc, Nat.add_comm 1]
      rfl

end

variable {s t : State}

theorem State.sourceBits_eq (s : State) : s.sourceBits = (s.bufRange s.src s.len).flatMap (codeAt s.ct) :=
  (List.flatMap_map _ _ _).symm

/-! ### The destination checks and the output (R75, R76, R243) -/

theorem checkDst_outside {o : Output} (h : s.params.bufBytes < s.dst + o.bytes.length) :
    checkDst s o = .error (.range, 1) := by
  rw [checkDst, if_pos (State.inBuf_eq_false_iff.mpr h)]

theorem checkDst_overlap {o : Output} (hfit : s.dst + o.bytes.length ≤ s.params.bufBytes)
    (hoverlap : overlap s.src s.len s.dst o.bytes.length = true) : checkDst s o = .error (.overlap, 0) := by
  rw [checkDst, if_neg (ne_false_of_eq_true (State.inBuf_eq_true_iff.mpr hfit)), if_pos hoverlap]

/-- The destination checks pass the output on, or fail. -/
theorem checkDst_cases (s : State) (o : Output) :
    checkDst s o = .ok o ∨ ∃ code info, code ≠ .ok ∧ checkDst s o = .error (code, info) := by
  unfold checkDst
  split
  · exact .inr ⟨_, _, by decide, rfl⟩
  split
  · exact .inr ⟨_, _, by decide, rfl⟩
  · exact .inl rfl

/-- What a successful ENCODE or DECODE with the output `o` leaves of `s` (R180, R200). -/
def State.succeededWith (s : State) (o : Output) : State :=
  { s.succeeded with
    buf := s.buf.writeList s.dst o.bytes
    outLen := BitVec.ofNat 32 o.bytes.length
    pad := BitVec.ofNat 3 o.pad
    totalBits := BitVec.ofNat 32 o.bits }

theorem emit_ok_eq_succeededWith (o : Output) (s : State) : emit (.ok o) s = s.succeededWith o := by
  rw [emit_ok, finish_ok]
  rfl

theorem State.bufByte_succeededWith (s : State) (o : Output) (x : Nat) :
    (s.succeededWith o).bufByte x = (s.writeBuf s.dst o.bytes).bufByte x := rfl

theorem State.bufByte_succeededWith_of_lt {o : Output} {i : Nat} (h : i < o.bytes.length) :
    (s.succeededWith o).bufByte (s.dst + i) = o.bytes[i] := by
  rw [State.bufByte_succeededWith, State.bufByte_writeBuf, dif_pos ⟨Nat.le_add_right _ _, Nat.add_lt_add_left h _⟩]
  simp only [Nat.add_sub_cancel_left]

theorem State.bufByte_succeededWith_of_outside {o : Output} {x : Nat} (h : ¬ (s.dst ≤ x ∧ x < s.dst + o.bytes.length)) :
    (s.succeededWith o).bufByte x = s.bufByte x := by
  rw [State.bufByte_succeededWith, State.bufByte_writeBuf, dif_neg h]

/-! ### The checks of ENCODE in order (R180, R243) -/

theorem encodePlan_invalid (hvalid : s.codesValid = false) : encodePlan s = .error (.seq, 0) := by
  rw [encodePlan, if_pos hvalid]

theorem encodePlan_outside (hvalid : s.codesValid = true) (hout : s.params.bufBytes < s.src + s.len) :
    encodePlan s = .error (.range, 0) := by
  rw [encodePlan, if_neg (ne_false_of_eq_true hvalid), if_pos (State.inBuf_eq_false_iff.mpr hout)]

theorem encodePlan_empty (hvalid : s.codesValid = true) (hin : s.src + s.len ≤ s.params.bufBytes) (hlen : s.len = 0) :
    encodePlan s = .error (.empty, 0) := by
  rw [encodePlan, if_neg (ne_false_of_eq_true hvalid),
    if_neg (ne_false_of_eq_true (State.inBuf_eq_true_iff.mpr hin)), if_pos hlen]

theorem encodePlan_uncoded (hvalid : s.codesValid = true) (hin : s.src + s.len ≤ s.params.bufBytes) {i : Nat}
    (hi : i < s.len) (huncoded : codeAt s.ct (s.bufByte (s.src + i)) = [])
    (hlower : ∀ j, j < i → codeAt s.ct (s.bufByte (s.src + j)) ≠ []) :
    encodePlan s = .error (.noCode, BitVec.ofNat 32 i) := by
  have hcodes : collectCodes s.ct (s.bufRange s.src s.len) 0 = .error (0 + i) :=
    collectCodes_eq_error (by simpa using hi) (by simpa using huncoded) (fun j hj => by simpa using hlower j hj) 0
  rw [encodePlan, if_neg (ne_false_of_eq_true hvalid),
    if_neg (ne_false_of_eq_true (State.inBuf_eq_true_iff.mpr hin)), if_neg (Nat.ne_zero_of_lt hi), hcodes, Nat.zero_add]

theorem encodePlan_coded (hvalid : s.codesValid = true) (hin : s.src + s.len ≤ s.params.bufBytes) (hlen : s.len ≠ 0)
    (hcoded : ∀ i, i < s.len → codeAt s.ct (s.bufByte (s.src + i)) ≠ []) :
    encodePlan s = checkDst s (packStream s.sourceBits) := by
  have hcodes : collectCodes s.ct (s.bufRange s.src s.len) 0 = .ok s.sourceBits :=
    collectCodes_eq_ok_iff.mpr ⟨by simpa [State.bufRange] using hcoded, s.sourceBits_eq⟩
  rw [encodePlan, if_neg (ne_false_of_eq_true hvalid),
    if_neg (ne_false_of_eq_true (State.inBuf_eq_true_iff.mpr hin)), if_neg hlen, hcodes]

/-- ENCODE produces the packed source bits, or fails. -/
theorem encodePlan_cases (s : State) :
    encodePlan s = .ok (packStream s.sourceBits) ∨ ∃ code info, code ≠ .ok ∧ encodePlan s = .error (code, info) := by
  unfold encodePlan
  split
  · exact .inr ⟨_, _, by decide, rfl⟩
  split
  · exact .inr ⟨_, _, by decide, rfl⟩
  split
  · exact .inr ⟨_, _, by decide, rfl⟩
  cases hcodes : collectCodes s.ct (s.bufRange s.src s.len) 0 with
  | error i => exact .inr ⟨_, _, by decide, rfl⟩
  | ok bits =>
    obtain ⟨-, rfl⟩ := collectCodes_eq_ok_iff.mp hcodes
    rw [← s.sourceBits_eq]
    exact checkDst_cases s _

/-! ### The command (R180) -/

theorem execEncode_of_error {code : ResultCode} {info : Word} (hplan : encodePlan s = .error (code, info))
    (hcode : code ≠ .ok) : execEncode s = .next (s.failed code info) := by
  rw [execEncode, hplan, emit_error, finish_of_ne_ok hcode]

theorem execEncode_of_ok {o : Output} (hplan : encodePlan s = .ok o) : execEncode s = .next (s.succeededWith o) := by
  rw [execEncode, hplan, emit_ok_eq_succeededWith]

/-- An ENCODE that reports OK has written the packed source bits, which fit BUF. -/
theorem execEncode_result_ok (h : execEncode s = .next t) (hok : t.result = .ok) :
    t = s.succeededWith (packStream s.sourceBits) ∧ s.dst + streamLength s.sourceBits.length ≤ s.params.bufBytes := by
  obtain hplan | ⟨code, info, hcode, hplan⟩ := encodePlan_cases s
  · rw [execEncode_of_ok hplan] at h
    cases h
    exact ⟨rfl, length_packStream s.sourceBits ▸ encodePlan_fits hplan⟩
  · rw [execEncode_of_error hplan hcode] at h
    cases h
    exact absurd hok hcode

theorem Params.bufBytes_le {p : Params} (h : p.legal = true) : p.bufBytes ≤ 65536 := by
  simp only [Params.legal, Bool.and_eq_true, decide_eq_true_eq] at h
  exact h.2

/-- A stream that fits a legal BUF has its length, its padding and its number of bits in the three result registers. -/
theorem outputRegisters_packStream {bits : Bits} (hlegal : s.params.legal = true)
    (hfit : s.dst + streamLength bits.length ≤ s.params.bufBytes) :
    (s.succeededWith (packStream bits)).outLen.toNat = streamLength bits.length ∧
      (s.succeededWith (packStream bits)).pad.toNat = padOf bits.length ∧
      (s.succeededWith (packStream bits)).totalBits.toNat = bits.length := by
  have hsize := Params.bufBytes_le hlegal
  have hbits : bits.length ≤ 8 * streamLength bits.length := by
    unfold streamLength
    omega
  simp only [State.succeededWith, BitVec.toNat_ofNat, length_packStream, packStream_pad, packStream_bits]
  exact ⟨Nat.mod_eq_of_lt (by omega), Nat.mod_eq_of_lt (padOf_lt _), Nat.mod_eq_of_lt (by omega)⟩

/-- BUF after a successful ENCODE: each bit of the payload, the padding's too (R181, R182). -/
theorem payloadBit_packStream {bits : Bits} {k : Nat} (hk : k < bits.length + padOf bits.length) :
    ((s.succeededWith (packStream bits)).bufByte (s.dst + 1 + k / 8)).getLsbD (7 - k % 8) = bits.getD k false := by
  have hbyte : k / 8 + 1 < (packStream bits).bytes.length := by
    rw [length_packStream, streamLength]
    rw [add_padOf] at hk
    omega
  rw [Nat.add_assoc, Nat.add_comm 1, State.bufByte_succeededWith_of_lt hbyte, packStream_succ]

/-- Settles O25: each clause's hypotheses pass the checks before its own and fail that one, and a failed check writes the
completion record only. -/
theorem encodeReportsTheFirstFailure : Obligations.EncodeReportsTheFirstFailure := by
  intro s
  simp only [exec_encode]
  refine ⟨fun hvalid => ?seq, fun hvalid => ⟨fun hout => ?range0, fun hin => ⟨fun hlen => ?empty,
    fun i hi huncoded hlower => ?noCode, fun hlen hcoded => ⟨fun hout => ?range1, fun hfit hsrc hdst => ?overlap⟩⟩⟩⟩
  case seq => exact execEncode_of_error (encodePlan_invalid hvalid) (by decide)
  case range0 => exact execEncode_of_error (encodePlan_outside hvalid hout) (by decide)
  case empty => exact execEncode_of_error (encodePlan_empty hvalid hin hlen) (by decide)
  case noCode => exact execEncode_of_error (encodePlan_uncoded hvalid hin hi huncoded hlower) (by decide)
  case range1 =>
    refine execEncode_of_error ?_ (by decide)
    rw [encodePlan_coded hvalid hin hlen hcoded, checkDst_outside (by rwa [length_packStream])]
  case overlap =>
    have hoverlap : overlap s.src s.len s.dst (streamLength s.sourceBits.length) = true := by
      simp only [overlap, Bool.and_eq_true, decide_eq_true_eq]
      exact ⟨⟨⟨Nat.pos_of_ne_zero hlen, streamLength_pos _⟩, hsrc⟩, hdst⟩
    refine execEncode_of_error ?_ (by decide)
    rw [encodePlan_coded hvalid hin hlen hcoded,
      checkDst_overlap (by rwa [length_packStream]) (by rwa [length_packStream])]

/-- Settles O26: the checks pass, and the bytes written are those of the packed source bits. -/
theorem encodePacksTheCodes : Obligations.EncodePacksTheCodes := by
  intro s hlegal hvalid hin hlen hcoded hfit hapart
  have hplan : encodePlan s = .ok (packStream s.sourceBits) := by
    rw [encodePlan_coded hvalid hin hlen hcoded, checkDst_ok_iff, length_packStream]
    refine ⟨rfl, hfit, ?_⟩
    simp only [overlap, Bool.and_eq_false_iff, decide_eq_false_iff_not]
    omega
  have hpos : 0 < (packStream s.sourceBits).bytes.length := by
    rw [length_packStream]
    exact streamLength_pos _
  obtain ⟨houtLen, hpad, htotal⟩ := outputRegisters_packStream hlegal hfit
  refine ⟨_, _, _, _, s.succeededWith (packStream s.sourceBits), rfl, execEncode_of_ok hplan, houtLen, hpad, htotal,
    ?padByte, fun k hk => ?code, fun k hk hk' => ?padding, fun x hx => ?frame⟩
  case padByte => rw [← Nat.add_zero s.dst, State.bufByte_succeededWith_of_lt hpos, packStream_zero]
  case code => exact payloadBit_packStream (Nat.lt_add_right _ hk)
  case padding => rw [payloadBit_packStream hk', List.getD_eq_default _ _ hk]
  case frame => exact State.bufByte_succeededWith_of_outside (by rwa [length_packStream])

/-- Settles O27: the registers hold the packed stream's numbers, whose payload is the source bits and the padding. -/
theorem paddingIsCorrect : Obligations.PaddingIsCorrect := by
  intro s t hlegal hexec hok
  obtain ⟨rfl, hfit⟩ := execEncode_result_ok hexec hok
  obtain ⟨houtLen, hpad, htotal⟩ := outputRegisters_packStream hlegal hfit
  rw [houtLen, hpad, htotal]
  exact ⟨streamLength_sub_padOf _, List.length_flatMap⟩

end Sys2Proof.Machine
end

section
/-! SUPPORT. The bit depacker and its tree walk (44_unpack.md R200 to R205): the bits of a stream, the walk along paths of the
tree, the checks of DECODE in order, and the round trip of ENCODE and DECODE. -/

namespace Sys2Proof.Machine

variable {s t : State}

/-! ### The bits of a stream (R71, R201) -/

/-- Bit `k` of a byte sequence is bit `7 - k % 8` of byte `k / 8`. -/
theorem bitsOfBytes_eq_map_range (bytes : List Byte) :
    bitsOfBytes bytes = (List.range (8 * bytes.length)).map fun k => (bytes.getD (k / 8) 0).getLsbD (7 - k % 8) := by
  induction bytes with
  | nil => rfl
  | cons b bytes ih =>
    have hfirst : ∀ k ∈ List.range 8, ((b :: bytes).getD (k / 8) 0).getLsbD (7 - k % 8) = b.getLsbD (7 - k) := by
      intro k hk
      have hk := List.mem_range.mp hk
      rw [Nat.div_eq_of_lt hk, Nat.mod_eq_of_lt hk, List.getD_cons_zero]
    have hlater (k : Nat) :
        ((b :: bytes).getD ((8 + k) / 8) 0).getLsbD (7 - (8 + k) % 8) = (bytes.getD (k / 8) 0).getLsbD (7 - k % 8) := by
      rw [Nat.add_div_left k (by decide), Nat.add_mod_left, List.getD_cons_succ]
    rw [List.length_cons, Nat.mul_succ, Nat.add_comm, List.range_add, List.map_append, List.map_map,
      List.map_congr_left hfirst, bitsOfBytes, List.flatMap_cons]
    exact congrArg (bitsOfByte b ++ ·) (ih.trans (List.map_congr_left fun k _ => (hlater k).symm))

/-- The payload without its last `P` bits, as DECODE unpacks it. -/
theorem State.streamBits_eq_take (s : State) :
    s.streamBits =
      (bitsOfBytes (s.bufRange (s.src + 1) (s.len - 1))).take (8 * (s.len - 1) - (s.bufByte s.src).toNat) := by
  rw [bitsOfBytes_eq_map_range, State.bufRange_length, ← List.map_take, List.take_range, Nat.min_eq_left (Nat.sub_le _ _),
    State.streamBits]
  refine List.map_congr_left fun k hk => ?_
  have hbyte : k / 8 < (s.bufRange (s.src + 1) (s.len - 1)).length := by
    have hk := List.mem_range.mp hk
    rw [State.bufRange_length]
    omega
  rw [List.getD_eq_getElem _ _ hbyte, State.bufRange_getElem]

@[simp] theorem State.length_streamBits (s : State) :
    s.streamBits.length = 8 * (s.len - 1) - (s.bufByte s.src).toNat := by
  rw [State.streamBits, List.length_map, List.length_range]

/-- A nonempty stream is its padding byte and its payload. -/
theorem State.bufRange_stream (h : s.len ≠ 0) :
    s.bufRange s.src s.len = s.bufByte s.src :: s.bufRange (s.src + 1) (s.len - 1) := by
  obtain ⟨n, hn⟩ := Nat.exists_eq_succ_of_ne_zero h
  refine List.ext_getElem (by simp [hn]) fun i _ _ => ?_
  cases i with
  | zero => simp
  | succ i => simp [Nat.add_right_comm, Nat.add_assoc]

/-! ### The walk along a path (R161, R200) -/

namespace TreeMem

section
variable {t : TreeMem} {p whole part bits : Bits} {b : Bool} {n : NodeIdx} {v : Symbol} {vs out : List Symbol}

theorem walk_cons_of_leaf {k start : Nat} (h : (t.nodeAt (t.child n b)).leaf = true) :
    t.walk (b :: bits) n k start =
      ((t.child n b).setWidth 8 :: (t.walk bits t.root (k + 1) (k + 1)).1, (t.walk bits t.root (k + 1) (k + 1)).2) := by
  rw [walk, if_pos h]

theorem walk_cons_of_internal {k start : Nat} (h : (t.nodeAt (t.child n b)).leaf = false) :
    t.walk (b :: bits) n k start = t.walk bits (t.child n b) (k + 1) start := by
  rw [walk, if_neg (ne_true_of_eq_false h)]

/-- `p` meets no leaf, not even at its end; the root is not asked. -/
def Leafless (t : TreeMem) (p : Bits) : Prop :=
  ∀ k, 0 < k → k ≤ p.length → (t.nodeAt (t.follow (p.take k))).leaf = false

theorem leafless_of_append (bits : Bits)
    (h : ∀ k, 0 < k → k ≤ p.length → (t.nodeAt (t.follow ((p ++ bits).take k))).leaf = false) : t.Leafless p := by
  intro k hpos hk
  rw [← List.take_append_of_le_length (l₂ := bits) hk]
  exact h k hpos hk

theorem Leafless.of_concat (h : t.Leafless (p ++ [b])) :
    t.Leafless p ∧ (t.nodeAt (t.child (t.follow p) b)).leaf = false := by
  have hlen : (p ++ [b]).length = p.length + 1 := List.length_append
  constructor
  · exact leafless_of_append [b] fun k hpos hk => h k hpos (by omega)
  · have hlast := h (p.length + 1) (Nat.succ_pos _) (by omega)
    rwa [← hlen, List.take_length, follow_concat] at hlast

/-- Below an internal root this is a path on which every node is internal. -/
theorem Leafless.inner (h : t.Leafless p) (hroot : (t.nodeAt t.root).leaf = false) : t.Inner p := by
  intro q b hprefix
  have hlen := hprefix.length_le
  rw [List.length_append, List.length_singleton] at hlen
  cases q with
  | nil => exact hroot
  | cons c q =>
    rw [List.prefix_iff_eq_take.mp ((List.prefix_append _ [b]).trans hprefix)]
    exact h _ (Nat.succ_pos _) (Nat.le_of_succ_le hlen)

/-- Bits that meet no leaf take the walk down the tree. -/
theorem Leafless.walk_append {k start : Nat} (h : t.Leafless p) (bits : Bits) :
    t.walk (p ++ bits) t.root k start = t.walk bits (t.follow p) (k + p.length) start := by
  induction p using List.reverseRecOn generalizing bits with
  | nil => rfl
  | append_singleton p b ih =>
    obtain ⟨hinit, hlast⟩ := h.of_concat
    rw [List.append_assoc, List.singleton_append, ih hinit, walk_cons_of_internal hlast, follow_concat, List.length_append,
      List.length_singleton, Nat.add_assoc]

/-- The path to a leaf emits its symbol and takes the walk back to the root. -/
theorem Path.walk_append {k start : Nat} (h : t.Path v p) (bits : Bits) :
    t.walk (p ++ bits) t.root k start =
      (v :: (t.walk bits t.root (k + p.length) (k + p.length)).1,
        (t.walk bits t.root (k + p.length) (k + p.length)).2) := by
  obtain ⟨hne, hfollow, hleaf, hinternal⟩ := h
  obtain ⟨q, b, rfl⟩ := (List.eq_nil_or_concat' p).resolve_left hne
  rw [List.length_append, List.length_singleton] at hinternal ⊢
  rw [follow_concat] at hfollow
  have hinit : t.Leafless q := leafless_of_append [b] fun j hpos hj => hinternal j hpos (Nat.lt_succ_of_le hj)
  have hsymbol : (v.setWidth 9).setWidth 8 = v := by simp
  rw [List.append_assoc, List.singleton_append, hinit.walk_append, walk_cons_of_leaf (hfollow ▸ hleaf), hfollow, hsymbol,
    Nat.add_assoc]

/-- So the paths of several symbols emit them all, and the next code begins where they end. -/
theorem Spells.walk_append {k : Nat} (h : t.Spells out whole) (bits : Bits) :
    t.walk (whole ++ bits) t.root k k =
      (out ++ (t.walk bits t.root (k + whole.length) (k + whole.length)).1,
        (t.walk bits t.root (k + whole.length) (k + whole.length)).2) := by
  induction out generalizing whole k with
  | nil =>
    obtain rfl : whole = [] := h
    rfl
  | cons v vs ih =>
    obtain ⟨p, rest, rfl, hp, hrest⟩ := h
    rw [List.append_assoc, hp.walk_append, ih hrest, List.length_append, Nat.add_assoc]
    rfl

/-! ### The symbols of a payload (R200, R202) -/

/-- `bits` is a payload of the symbols `out`: their paths, or zeros under a lone leaf. -/
def Represents (t : TreeMem) (out : List Symbol) (bits : Bits) : Prop :=
  ((t.nodeAt t.root).leaf = false ∧ t.Spells out bits) ∨
    ((t.nodeAt t.root).leaf = true ∧ (∀ b ∈ bits, b = false) ∧ out = List.replicate bits.length (t.root.setWidth 8))

theorem Represents.decodeBits (h : t.Represents out bits) : t.decodeBits bits = .ok out := by
  obtain ⟨hroot, hspells⟩ | ⟨hroot, hzeros, rfl⟩ := h
  · have hwalk := hspells.walk_append (k := 0) []
    rw [List.append_nil] at hwalk
    rw [TreeMem.decodeBits, if_neg (ne_true_of_eq_false hroot), hwalk]
    simp [walk]
  · have hnone : bits.findIdx? id = none := List.findIdx?_eq_none_iff.mpr hzeros
    rw [TreeMem.decodeBits, if_pos hroot, hnone]

/-- A lone leaf has no code that begins with a 1. -/
theorem decodeBits_badCode (hroot : (t.nodeAt t.root).leaf = true) {k : Nat} (hk : k < bits.length)
    (hone : bits.getD k false = true) (hzeros : ∀ j, j < k → bits.getD j false = false) :
    t.decodeBits bits = .error (.badCode, BitVec.ofNat 32 k) := by
  have hfirst : bits.findIdx? id = some k := by
    refine List.findIdx?_eq_some_iff_getElem.mpr ⟨hk, ?_, fun j hj => ?_⟩
    · rwa [List.getD_eq_getElem _ _ hk] at hone
    · have := hzeros j hj
      rw [List.getD_eq_getElem _ _ (hj.trans hk)] at this
      exact ne_true_of_eq_false this
  rw [TreeMem.decodeBits, if_pos hroot, hfirst]

/-- Only the empty path that meets no leaf ends at the root of a tree (R43). -/
theorem IsTree.follow_ne_root (h : t.IsTree) (hroot : (t.nodeAt t.root).leaf = false) (hne : part ≠ [])
    (hpart : t.Leafless part) : t.follow part ≠ t.root :=
  fun heq => hne (h.path_unique (hpart.inner hroot) (inner_nil t) heq)

/-- A payload that ends inside a path is cut short, from the path's first bit on. -/
theorem IsTree.decodeBits_trunc (h : t.IsTree) (hroot : (t.nodeAt t.root).leaf = false) (hspells : t.Spells out whole)
    (hne : part ≠ []) (hpart : t.Leafless part) :
    t.decodeBits (whole ++ part) = .error (.trunc, BitVec.ofNat 32 whole.length) := by
  have hrest := hpart.walk_append (k := whole.length) (start := whole.length) []
  rw [List.append_nil] at hrest
  have hwalk : t.walk (whole ++ part) t.root 0 0 = (out, t.follow part, whole.length) := by
    rw [hspells.walk_append, Nat.zero_add, hrest]
    simp [walk]
  rw [TreeMem.decodeBits, if_neg (ne_true_of_eq_false hroot), hwalk]
  exact if_pos (h.follow_ne_root hroot hne hpart)

/-- Every node of a forest weighs something, since its leaves do (R43). -/
theorem Shape.weightOf_pos (h : t.Shape) (hvalid : (t.nodeAt n).valid = true) : 1 ≤ t.weightOf n := by
  induction hk : n.toNat using Nat.strong_induction_on generalizing n with
  | _ k ih =>
    by_cases hleaf : (t.nodeAt n).leaf = true
    · exact (h.leaf_weight n hvalid hleaf).1
    · have hinternal := Bool.eq_false_of_not_eq_true hleaf
      obtain ⟨hl, -, -, hlt, -⟩ := h.children n hvalid hinternal
      have hpos := ih _ (hk ▸ BitVec.lt_def.mp hlt) hl rfl
      have hsum := h.weight n hvalid hinternal
      omega

/-! ### The payload of source bytes (R180, R205) -/

theorem spells_flatMap {ct : Vector Bits 256} (h : ∀ v ∈ vs, t.Path v (codeAt ct v)) :
    t.Spells vs (vs.flatMap (codeAt ct)) := by
  induction vs with
  | nil => rfl
  | cons v vs ih =>
    obtain ⟨hv, hvs⟩ := List.forall_mem_cons.mp h
    exact ⟨codeAt ct v, vs.flatMap (codeAt ct), List.flatMap_cons, hv, ih hvs⟩

/-- Under a lone leaf the codes of `vs` are one 0 bit for each. -/
theorem represents_flatMap_of_leaf {ct : Vector Bits 256} (hroot : (t.nodeAt t.root).leaf = true)
    (h : ∀ v ∈ vs, codeAt ct v = [false] ∧ v = t.root.setWidth 8) : t.Represents vs (vs.flatMap (codeAt ct)) := by
  have hbits : vs.flatMap (codeAt ct) = List.replicate vs.length false := by
    rw [List.flatMap_def, List.map_congr_left fun v hv => (h v hv).1, List.map_const', List.flatten_replicate_singleton]
  rw [hbits]
  refine .inr ⟨hroot, fun b hb => List.eq_of_mem_replicate hb, ?_⟩
  rw [List.length_replicate]
  exact List.eq_replicate_iff.mpr ⟨rfl, fun v hv => (h v hv).2⟩

/-- The codes of bytes that all have one are a payload of these bytes. -/
theorem HoldsCodes.represents {ct : Vector Bits 256} (hct : t.HoldsCodes ct) (h : t.IsTree)
    (hcoded : ∀ v ∈ vs, codeAt ct v ≠ []) : t.Represents vs (vs.flatMap (codeAt ct)) := by
  have hvalid : ∀ v ∈ vs, (t.nodeAt (leafIndex v)).valid = true := fun v hv => (hct.ne_nil_iff v).mp (hcoded v hv)
  by_cases hroot : (t.nodeAt t.root).leaf = true
  · refine represents_flatMap_of_leaf hroot fun v hv => ⟨hct.lone v hroot (hvalid v hv), ?_⟩
    rw [← h.eq_root_of_leaf hroot (hvalid v hv)]
    simp [leafIndex]
  · have hinternal := Bool.eq_false_of_not_eq_true hroot
    exact .inl ⟨hinternal, spells_flatMap fun v hv => (hct.path v hinternal (hvalid v hv)).path hinternal⟩

/-! ### The stream (R96, R200) -/

theorem decodeStream_badPad_seven {P : Byte} {payload : List Byte} (h : 7 < P.toNat) :
    t.decodeStream (P :: payload) = .error (.badPad, 1) := by
  rw [decodeStream, if_pos h]

theorem decodeStream_badPad_payload {P : Byte} {payload : List Byte} (hseven : P.toNat ≤ 7)
    (h : 8 * payload.length < P.toNat) : t.decodeStream (P :: payload) = .error (.badPad, 2) := by
  rw [decodeStream, if_neg (Nat.not_lt.mpr hseven), if_pos h]

end

end TreeMem

/-! ### The checks of DECODE in order (R200, R243) -/

theorem decodePlan_not_done (hdone : s.tree.state ≠ .done) : decodePlan s = .error (.seq, 0) := by
  rw [decodePlan, if_pos hdone]

theorem decodePlan_outside (hdone : s.tree.state = .done) (hout : s.params.bufBytes < s.src + s.len) :
    decodePlan s = .error (.range, 0) := by
  rw [decodePlan, if_neg (not_not_intro hdone), if_pos (State.inBuf_eq_false_iff.mpr hout)]

/-- Past the first two checks the stream is unpacked and walked, and the destination is checked last. -/
theorem decodePlan_inside (hdone : s.tree.state = .done) (hin : s.src + s.len ≤ s.params.bufBytes) :
    decodePlan s = (s.tree.decodeStream (s.bufRange s.src s.len)).bind (checkDst s) := by
  rw [decodePlan, if_neg (not_not_intro hdone), if_neg (ne_false_of_eq_true (State.inBuf_eq_true_iff.mpr hin))]
  cases s.tree.decodeStream (s.bufRange s.src s.len) <;> rfl

/-- DECODE's checks pass up to the padding byte: there is a tree, and a stream with a legal padding byte lies in BUF. -/
structure State.PaddedStream (s : State) : Prop where
  done : s.tree.state = .done
  inside : s.src + s.len ≤ s.params.bufBytes
  nonempty : s.len ≠ 0
  pad_le : (s.bufByte s.src).toNat ≤ 7
  pad_le_payload : (s.bufByte s.src).toNat ≤ 8 * (s.len - 1)

/-- What DECODE produces when the payload is the symbols `out`. -/
def State.decoded (s : State) (out : List Symbol) : Output :=
  { bytes := out, pad := (s.bufByte s.src).toNat, bits := s.streamBits.length }

/-- The checks from there on: the payload's bits, their number of symbols, and the destination. -/
theorem State.PaddedStream.decodePlan_eq (h : s.PaddedStream) :
    decodePlan s = (s.tree.decodeBits s.streamBits).bind fun out =>
      if out.length ≠ s.tree.weightOf s.tree.root then .error (.count, BitVec.ofNat 32 out.length)
      else checkDst s (s.decoded out) := by
  rw [decodePlan_inside h.done h.inside, State.bufRange_stream h.nonempty, TreeMem.decodeStream,
    if_neg (Nat.not_lt.mpr h.pad_le), State.bufRange_length, if_neg (Nat.not_lt.mpr h.pad_le_payload),
    ← State.streamBits_eq_take, ← State.length_streamBits]
  cases s.tree.decodeBits s.streamBits with
  | error e => rfl
  | ok out => exact apply_ite (Except.bind · (checkDst s)) _ _ _

theorem State.PaddedStream.decodePlan_error (h : s.PaddedStream) {e : ResultCode × Word}
    (hbits : s.tree.decodeBits s.streamBits = .error e) : decodePlan s = .error e := by
  rw [h.decodePlan_eq, hbits]
  rfl

theorem State.PaddedStream.decodePlan_count (h : s.PaddedStream) {out : List Symbol}
    (hout : s.tree.Represents out s.streamBits) (hcount : out.length ≠ s.tree.weightOf s.tree.root) :
    decodePlan s = .error (.count, BitVec.ofNat 32 out.length) := by
  rw [h.decodePlan_eq, hout.decodeBits]
  exact if_pos hcount

theorem State.PaddedStream.decodePlan_decoded (h : s.PaddedStream) {out : List Symbol}
    (hout : s.tree.Represents out s.streamBits) (hcount : out.length = s.tree.weightOf s.tree.root) :
    decodePlan s = checkDst s (s.decoded out) := by
  rw [h.decodePlan_eq, hout.decodeBits]
  exact if_neg (not_not_intro hcount)

/-! ### The command (R200) -/

theorem execDecode_of_error {code : ResultCode} {info : Word} (hplan : decodePlan s = .error (code, info))
    (hcode : code ≠ .ok) : execDecode s = .next (s.failed code info) := by
  rw [execDecode, hplan, emit_error, finish_of_ne_ok hcode]

theorem execDecode_of_ok {o : Output} (hplan : decodePlan s = .ok o) : execDecode s = .next (s.succeededWith o) := by
  rw [execDecode, hplan, emit_ok_eq_succeededWith]

/-- Symbols that fit a legal BUF have their number, the padding and the number of bits in the three result registers. -/
theorem State.PaddedStream.outputRegisters (h : s.PaddedStream) (hlegal : s.params.legal = true) {out : List Symbol}
    (hfit : s.dst + out.length ≤ s.params.bufBytes) :
    (s.succeededWith (s.decoded out)).outLen.toNat = out.length ∧
      (s.succeededWith (s.decoded out)).pad.toNat = (s.bufByte s.src).toNat ∧
      (s.succeededWith (s.decoded out)).totalBits.toNat = s.streamBits.length := by
  have hsize := Params.bufBytes_le hlegal
  have hinside := h.inside
  have hpad := h.pad_le
  have hbits := s.length_streamBits
  simp only [State.succeededWith, State.decoded, BitVec.toNat_ofNat]
  exact ⟨Nat.mod_eq_of_lt (by omega), Nat.mod_eq_of_lt (by omega), Nat.mod_eq_of_lt (by omega)⟩

/-- A payload of as many symbols as the root weighs is decoded, when the destination fits BUF and lies apart from the stream. -/
theorem State.PaddedStream.execDecode_of_represents (h : s.PaddedStream) {out : List Symbol}
    (hout : s.tree.Represents out s.streamBits) (hcount : out.length = s.tree.weightOf s.tree.root)
    (hfit : s.dst + out.length ≤ s.params.bufBytes)
    (hapart : out = [] ∨ s.dst + out.length ≤ s.src ∨ s.src + s.len ≤ s.dst) :
    execDecode s = .next (s.succeededWith (s.decoded out)) := by
  have hoverlap : overlap s.src s.len s.dst out.length = false := by
    simp only [overlap, Bool.and_eq_false_iff, decide_eq_false_iff_not]
    rw [← List.length_eq_zero_iff] at hapart
    omega
  refine execDecode_of_ok ?_
  rw [h.decodePlan_decoded hout hcount, checkDst_ok_iff]
  exact ⟨rfl, hfit, hoverlap⟩

/-- Settles O28: each clause's hypotheses pass the checks before its own and fail that one, and a failed check writes the
completion record only. -/
theorem decodeChecksTheStream : Obligations.DecodeChecksTheStream := by
  intro s
  simp only [exec_decode]
  refine ⟨fun hdone => ?seq, fun hdone => ⟨fun hout => ?range0, fun hin => ⟨fun hlen => ?badPad0, fun hlen hseven => ?badPad1,
    fun hlen hseven hpayload => ?badPad2⟩⟩⟩
  case seq => exact execDecode_of_error (decodePlan_not_done hdone) (by decide)
  case range0 => exact execDecode_of_error (decodePlan_outside hdone hout) (by decide)
  case badPad0 =>
    refine execDecode_of_error ?_ (by decide)
    rw [decodePlan_inside hdone hin, hlen]
    rfl
  case badPad1 =>
    refine execDecode_of_error ?_ (by decide)
    rw [decodePlan_inside hdone hin, State.bufRange_stream hlen, TreeMem.decodeStream_badPad_seven hseven]
    rfl
  case badPad2 =>
    refine execDecode_of_error ?_ (by decide)
    rw [decodePlan_inside hdone hin, State.bufRange_stream hlen,
      TreeMem.decodeStream_badPad_payload hseven (by rwa [State.bufRange_length])]
    rfl

/-- Settles O29: the payload's bits fail where the walk does, and a root that weighs something makes the overlap count. -/
theorem decodeReportsCorruptStreams : Obligations.DecodeReportsCorruptStreams := by
  intro s _ htree hdone hin hlen hseven hpayload
  have hs : s.PaddedStream := ⟨hdone, hin, hlen, hseven, hpayload⟩
  obtain ⟨htree, -⟩ := htree.isTree hdone
  simp only [exec_decode]
  refine ⟨fun hroot k hk hone hzeros => ?badCode, fun hroot out whole part hbits hspells hne hinternal => ?trunc,
    fun out hout => ⟨fun hcount => ?count, fun hcount => ⟨fun hout1 => ?range1, fun hfit hsrc hdst => ?overlap⟩⟩⟩
  case badCode =>
    exact execDecode_of_error (hs.decodePlan_error (TreeMem.decodeBits_badCode hroot hk hone hzeros)) (by decide)
  case trunc =>
    refine execDecode_of_error (hs.decodePlan_error ?_) (by decide)
    rw [hbits, htree.decodeBits_trunc hroot hspells hne hinternal]
  case count => exact execDecode_of_error (hs.decodePlan_count hout hcount) (by decide)
  case range1 =>
    exact execDecode_of_error ((hs.decodePlan_decoded hout hcount).trans (checkDst_outside hout1)) (by decide)
  case overlap =>
    have hpos : 0 < out.length := hcount ▸ htree.weightOf_pos htree.root_valid
    have hoverlap : overlap s.src s.len s.dst out.length = true := by
      simp only [overlap, Bool.and_eq_true, decide_eq_true_eq]
      exact ⟨⟨⟨Nat.pos_of_ne_zero hlen, hpos⟩, hsrc⟩, hdst⟩
    exact execDecode_of_error ((hs.decodePlan_decoded hout hcount).trans (checkDst_overlap hfit hoverlap)) (by decide)

/-- Settles O30: the walk emits the symbols, their number and the destination pass the checks, and they are what is written. -/
theorem decodeRecoversTheSymbols : Obligations.DecodeRecoversTheSymbols := by
  intro s out hlegal hdone hin hlen hseven hpayload hout hcount hfit hapart
  have hs : s.PaddedStream := ⟨hdone, hin, hlen, hseven, hpayload⟩
  obtain ⟨houtLen, hpad, htotal⟩ := hs.outputRegisters hlegal hfit
  exact ⟨_, _, _, _, s.succeededWith (s.decoded out), rfl, hs.execDecode_of_represents hout hcount hfit hapart, houtLen, hpad,
    htotal, fun _ hi => State.bufByte_succeededWith_of_lt hi, fun _ hx => State.bufByte_succeededWith_of_outside hx⟩

/-! ### The round trip (R205) -/

/-- An ENCODE that reports OK has passed its checks. -/
theorem encodePlan_of_result_ok (h : execEncode s = .next t) (hok : t.result = .ok) :
    encodePlan s = .ok (packStream s.sourceBits) := by
  obtain hplan | ⟨code, info, hcode, hplan⟩ := encodePlan_cases s
  · exact hplan
  · rw [execEncode_of_error hplan hcode] at h
    cases h
    exact absurd hok hcode

/-- Every source byte then has a code. -/
theorem encodePlan_ok_coded {o : Output} (h : encodePlan s = .ok o) : ∀ v ∈ s.bufRange s.src s.len, codeAt s.ct v ≠ [] := by
  unfold encodePlan at h
  split at h
  · cases h
  split at h
  · cases h
  split at h
  · cases h
  cases hcodes : collectCodes s.ct (s.bufRange s.src s.len) 0 with
  | error i =>
    rw [hcodes] at h
    cases h
  | ok bits => exact (collectCodes_eq_ok_iff.mp hcodes).1

/-- After an ENCODE of `bits`, a DECODE of its stream to `d` in flight. -/
def State.decodingBack (s : State) (bits : Bits) (d : Word) : State :=
  { s.succeededWith (packStream bits) with
    seq := .busy (encodeInstr .decode) (BitVec.ofNat 32 s.dst) (s.succeededWith (packStream bits)).outLen d }

section
variable {bits : Bits} {d : Word}

@[simp] theorem State.decodingBack_src : (s.decodingBack bits d).src = s.dst := by
  refine Eq.trans (b := (BitVec.ofNat 32 s.dst).toNat) rfl ?_
  unfold State.dst
  split <;> rw [BitVec.ofNat_toNat, BitVec.setWidth_eq]

@[simp] theorem State.bufByte_decodingBack (x : Nat) :
    (s.decodingBack bits d).bufByte x = (s.succeededWith (packStream bits)).bufByte x := rfl

theorem State.decodingBack_padByte : ((s.decodingBack bits d).bufByte s.dst).toNat = padOf bits.length := by
  have hpos : 0 < (packStream bits).bytes.length := by
    rw [length_packStream]
    exact streamLength_pos _
  rw [State.bufByte_decodingBack, ← Nat.add_zero s.dst, State.bufByte_succeededWith_of_lt hpos, packStream_zero]

variable (hlegal : s.params.legal = true) (hfit : s.dst + streamLength bits.length ≤ s.params.bufBytes)
include hlegal hfit

theorem State.decodingBack_len : (s.decodingBack bits d).len = streamLength bits.length :=
  (outputRegisters_packStream hlegal hfit).1

/-- The stream that ENCODE leaves has a legal padding byte. -/
theorem State.decodingBack_paddedStream (hdone : s.tree.state = .done) : (s.decodingBack bits d).PaddedStream := by
  have hlen : (s.decodingBack bits d).len = streamLength bits.length := decodingBack_len hlegal hfit
  have hpos := streamLength_pos bits.length
  have hpadding := padOf_lt bits.length
  have hpayload := add_padOf bits.length
  constructor
  case done => exact hdone
  case inside => rwa [decodingBack_src, hlen]
  case nonempty => omega
  case pad_le =>
    rw [decodingBack_src, decodingBack_padByte]
    omega
  case pad_le_payload =>
    rw [decodingBack_src, decodingBack_padByte, hlen, streamLength]
    omega

/-- Its bits are those that were packed. -/
theorem State.decodingBack_streamBits : (s.decodingBack bits d).streamBits = bits := by
  have hlen : (s.decodingBack bits d).len = streamLength bits.length := decodingBack_len hlegal hfit
  rw [State.streamBits, decodingBack_src, decodingBack_padByte, hlen, streamLength_sub_padOf]
  refine List.ext_getElem (by simp) fun k _ hk => ?_
  rw [List.getElem_map, List.getElem_range, ← List.getD_eq_getElem _ false hk]
  exact payloadBit_packStream (Nat.lt_add_right _ hk)

end

/-- Settles O31: the bits of the stream are the codes of the source bytes, so they are a payload of these bytes, which DECODE
writes. -/
theorem decodeInvertsEncode : Obligations.DecodeInvertsEncode := by
  intro s t d hinv hvalid hexec hok hcount hfit hapart
  have hcoded := encodePlan_ok_coded (encodePlan_of_result_ok hexec hok)
  obtain ⟨rfl, hstream⟩ := execEncode_result_ok hexec hok
  obtain ⟨htree, -, hholds⟩ := hinv.current.holds hinv.tree hvalid
  have hlegal := hinv.memory.params
  have hs : (s.decodingBack s.sourceBits d).PaddedStream :=
    State.decodingBack_paddedStream hlegal hstream (hinv.current hvalid).1
  have hpayload : s.tree.Represents (s.bufRange s.src s.len) (s.decodingBack s.sourceBits d).streamBits := by
    rw [State.decodingBack_streamBits hlegal hstream, s.sourceBits_eq]
    exact hholds.represents htree hcoded
  have hlen := s.bufRange_length s.src s.len
  rw [← hlen] at hcount hfit hapart
  rw [← State.decodingBack_src (s := s) (bits := s.sourceBits) (d := d)] at hapart
  refine ⟨_, hs.execDecode_of_represents hpayload hcount hfit (.inr hapart), rfl, ?_, fun i hi => ?_⟩
  · exact (hs.outputRegisters hlegal hfit).1.trans hlen
  · rw [← hlen] at hi
    rw [← State.bufRange_getElem s s.src s.len i hi]
    exact State.bufByte_succeededWith_of_lt hi

end Sys2Proof.Machine
end

section
/-! SUPPORT. The system operations (45_system.md R220 to R225): the completion of every word, issue, acknowledge, soft reset and
what it leaves of an aborted command. -/

namespace Sys2Proof.Machine

variable {s t : State} {i : Instr} {cmd a b c w : Word}

/-! ### Commands always complete (R220, R245) -/

/-- In a sound state every command completes: TREE_STEP has the bounds that a merge needs (R135), and CODE_GEN's traversal of a
complete tree ends (R162). -/
theorem exec_runs (h : s.tree.Ok) (i : Instr) : Runs (exec i s) := by
  obtain ⟨hstepSeq, hcodeSeq⟩ := wrongSequenceIsReported s
  cases i with
  | treeStep =>
    by_cases hbuilding : s.tree.state = .building
    · exact ⟨_, execTreeStep_of_building h hbuilding⟩
    · exact ⟨_, hstepSeq hbuilding⟩
  | codeGen =>
    by_cases hdone : s.tree.state = .done
    · obtain ⟨htree, -⟩ := h.isTree hdone
      obtain ⟨ct, hcodes, -⟩ := htree.codes_hold
      exact ⟨_, execCodeGen_of_codes hdone hcodes⟩
    · exact ⟨_, hcodeSeq hdone⟩
  | _ => exact ⟨_, rfl⟩

/-- Every word completes, a legal one as its command and any other with E_ILLEGAL. -/
theorem complete_runs (h : s.tree.Ok) (cmd : Word) : Runs (complete cmd s) := by
  unfold complete
  split
  · exact exec_runs h _
  · exact ⟨_, rfl⟩

/-- Settles O60: a completion runs in a sound state, and the host's actions and waiting run in every state. -/
theorem soundStatesNeverStop : Obligations.SoundStatesNeverStop := by
  intro s h
  unfold step
  split
  · exact complete_runs h _
  · exact ⟨_, rfl⟩
  · exact ⟨_, rfl⟩

/-- Settles O11: NOP is the completion record of a success alone. -/
theorem nopOnlyCompletes : Obligations.NopOnlyCompletes := by
  intro s
  rw [exec_nop, execNop, finish_ok]

/-! ### Illegal words (R92, R93, R222) -/

/-- A command's word as a number: ZERO is 0 and OPC is one of the nine (R91). -/
theorem encodeInstr_toNat (i : Instr) :
    (encodeInstr i).toNat % 2 ^ 24 = 0 ∧
      (encodeInstr i).toNat / 2 ^ 24 ∈ [0x00, 0x01, 0x02, 0x10, 0x11, 0x12, 0x20, 0x30, 0x31] := by
  cases i <;> decide

/-- So a word with any other number is no command's, and decoding rejects it. -/
theorem exists_decodeError
    (h : cmd.toNat % 2 ^ 24 ≠ 0 ∨ cmd.toNat / 2 ^ 24 ∉ [0x00, 0x01, 0x02, 0x10, 0x11, 0x12, 0x20, 0x30, 0x31]) :
    ∃ e, decodeWord cmd = .error e := by
  cases hdecode : decodeWord cmd with
  | error e => exact ⟨e, rfl⟩
  | ok i =>
    obtain rfl := (decodeAndEncodeAgree cmd i).mp hdecode
    obtain ⟨hzero, hopc⟩ := encodeInstr_toNat i
    exact absurd h (not_or.mpr ⟨not_not_intro hzero, not_not_intro hopc⟩)

theorem complete_of_decodeError {e : DecodeError} (h : decodeWord cmd = .error e) (s : State) :
    complete cmd s = .next (s.failed .illegal 0) := by
  rw [complete, h, illegalCommand, raise_of_ne_ok (by decide)]

/-- Settles O3: the due word is the step's, and decoding rejects it. -/
theorem illegalWordCompletes : Obligations.IllegalWordCompletes := by
  intro s cmd a b c hseq hdue hillegal
  obtain ⟨e, hdecode⟩ := exists_decodeError hillegal
  exact ⟨(step_of_due hseq hdue).trans (complete_of_decodeError hdecode s), rfl⟩

/-! ### Issue and acknowledge (R220, R225) -/

/-- Settles O39: the sequencer decides whether the write to CMD is an issue or is dropped. -/
theorem issueLatchesTheOperands : Obligations.IssueLatchesTheOperands := by
  intro s w
  refine ⟨fun hidle => ⟨Config.cmdLatency w s.draws, s.draws + 1, ?_⟩, fun hbusy => ?_⟩
  · rw [hostWrite_reg (r := .cmd) rfl, writeReg, issue, hidle]
  · exact (busyDropsWritesAndFreesReads s 0x010 w hbusy).1 (.inl rfl)

/-- Settles O40: a write to STATUS is the acknowledge, which masks each of the three bits with the word's. -/
theorem acknowledgeClearsTheSelectedBits : Obligations.AcknowledgeClearsTheSelectedBits := by
  intro s w
  have hmask : ∀ bit sel : Bool, (bit && !sel) = if sel then false else bit := by decide
  rw [hostWrite_reg (r := .status) rfl, writeReg, acknowledge, hmask, hmask, hmask]

/-! ### Soft reset (R223) -/

/-- A write to CTRL with SRST = 1 aborts the word in flight and resets the registers (R23, R223). -/
theorem hostWrite_srst (h : w.getLsbD 31 = true) (s : State) : hostWrite 0x008 w s = resetRegisters (abort s) := by
  rw [hostWrite_reg (r := .ctrl) rfl, writeReg, writeCtrl, if_pos h, softReset]

theorem abort_of_idle (h : s.seq = .idle) : abort s = s := by
  rw [abort, h]

theorem abort_of_decodeError {e : DecodeError} (hseq : s.seq = .busy cmd a b c) (hdecode : decodeWord cmd = .error e) :
    abort s = s := by
  simp only [abort, hseq, hdecode]

theorem abort_of_decodeWord (hseq : s.seq = .busy cmd a b c) (hdecode : decodeWord cmd = .ok i) : abort s = clobber i s := by
  simp only [abort, hseq, hdecode]

/-- Settles O9: the registers are reset whatever the abort leaves, and while Idle there is nothing to abort. -/
theorem softResetValues : Obligations.SoftResetValues := by
  intro s w hsrst
  rw [hostWrite_srst hsrst]
  refine ⟨fun r hr => readReg_resetRegisters ?_ _, rfl, rfl, abort_params, fun hidle => ?_⟩
  · revert r
    decide
  · rw [abort_of_idle hidle]
    exact ⟨rfl, rfl, rfl, rfl, fun _ => rfl⟩

/-! ### What an aborted command leaves of the memories (R224) -/

@[simp] theorem clobberOutput_freq (plan : Except (ResultCode × Word) Output) : (clobberOutput plan s).freq = s.freq := by
  cases plan <;> rfl

@[simp] theorem clobberOutput_tree (plan : Except (ResultCode × Word) Output) : (clobberOutput plan s).tree = s.tree := by
  cases plan <;> rfl

theorem clobber_freq (hi : i ∉ [Instr.freqClear, .freqCount]) : (clobber i s).freq = s.freq := by
  cases i with
  | freqClear | freqCount => simp at hi
  | encode | decode => exact clobberOutput_freq _
  | _ => rfl

theorem clobber_tree (hi : i ∉ [Instr.treeInit, .treeStep, .treeBuild]) : (clobber i s).tree = s.tree := by
  cases i with
  | treeInit | treeStep | treeBuild => simp at hi
  | encode | decode => exact clobberOutput_tree _
  | _ => rfl

theorem clobber_ct (hi : i ≠ .codeGen) : (clobber i s).ct = s.ct := by
  cases i with
  | codeGen => exact absurd rfl hi
  | encode | decode => exact clobberOutput_ct _
  | _ => rfl

theorem clobber_bufByte (hi : i ∉ [Instr.encode, .decode]) (x : Nat) : (clobber i s).bufByte x = s.bufByte x := by
  cases i with
  | encode | decode => simp at hi
  | _ => rfl

/-- BUF outside the destination range of the output that the plan would have written. -/
theorem clobberOutput_bufByte {o : Output} {x : Nat} (hx : ¬ (s.dst ≤ x ∧ x < s.dst + o.bytes.length)) :
    (clobberOutput (.ok o) s).bufByte x = s.bufByte x := by
  refine (s.bufByte_writeBuf s.dst _ x).trans (dif_neg ?_)
  simpa only [List.length_map, List.length_range] using hx

/-- The abort of a command leaves BUF as it was, or the command would have succeeded with an output that fits BUF, and BUF is as
it was outside the output's range. -/
def AbortConfined (i : Instr) (s t : State) : Prop :=
  (∀ x, (clobber i s).bufByte x = s.bufByte x) ∨
    ∃ o : Output, t = s.succeededWith o ∧ s.dst + o.bytes.length ≤ s.params.bufBytes ∧
      ∀ x, ¬ (s.dst ≤ x ∧ x < s.dst + o.bytes.length) → (clobber i s).bufByte x = s.bufByte x

/-- The command whose end is the plan's is aborted by the plan's clobber (R224, log 8). -/
theorem abortConfined_of_plan {plan : Except (ResultCode × Word) Output} (hclobber : clobber i s = clobberOutput plan s)
    (hfit : ∀ o, plan = .ok o → s.dst + o.bytes.length ≤ s.params.bufBytes) : AbortConfined i s (emit plan s) := by
  unfold AbortConfined
  rw [hclobber]
  cases plan with
  | error e => exact .inl fun _ => rfl
  | ok o => exact .inr ⟨o, emit_ok_eq_succeededWith o s, hfit o rfl, fun _ => clobberOutput_bufByte⟩

theorem exec_abortConfined (h : exec i s = .next t) : AbortConfined i s t := by
  cases i with
  | encode => cases h; exact abortConfined_of_plan rfl fun _ => encodePlan_fits
  | decode => cases h; exact abortConfined_of_plan rfl fun _ => decodePlan_fits
  | _ => exact .inl (clobber_bufByte (by decide))

theorem AbortConfined.of_failed (h : AbortConfined i s t) (hfail : t.result ≠ .ok) (x : Nat) :
    (clobber i s).bufByte x = s.bufByte x := by
  obtain hkept | ⟨o, rfl, -⟩ := h
  · exact hkept x
  · exact absurd rfl hfail

/-- In a legal configuration OUT_LEN holds the length of the range. -/
theorem AbortConfined.of_outside (h : AbortConfined i s t) (hlegal : s.params.legal = true) {x : Nat}
    (hx : ¬ (s.dst ≤ x ∧ x < s.dst + t.outLen.toNat)) : (clobber i s).bufByte x = s.bufByte x := by
  obtain hkept | ⟨o, rfl, hfit, hkept⟩ := h
  · exact hkept x
  · have hsize := Params.bufBytes_le hlegal
    have hlen : (s.succeededWith o).outLen.toNat = o.bytes.length :=
      (BitVec.toNat_ofNat _ _).trans (Nat.mod_eq_of_lt (by omega))
    exact hkept x (hlen ▸ hx)

/-- Settles O10: an illegal word aborts to the same state, and a command to what its clobber leaves. -/
theorem abortedCommandTouchesOnlyItsTargets : Obligations.AbortedCommandTouchesOnlyItsTargets := by
  intro s cmd a b c w hseq hsrst
  rw [hostWrite_srst hsrst]
  refine ⟨fun hillegal => ?illegal, fun i hcmd => ?command⟩
  case illegal =>
    obtain ⟨e, hdecode⟩ := exists_decodeError hillegal
    rw [abort_of_decodeError hseq hdecode]
    exact ⟨rfl, rfl, rfl, rfl, fun _ => rfl⟩
  case command =>
    rw [abort_of_decodeWord hseq ((decodeAndEncodeAgree cmd i).mpr hcmd)]
    refine ⟨clobber_freq, fun hi => ?_, clobber_ct, clobber_bufByte, fun t hexec => ?_⟩
    · have htree := clobber_tree (s := s) hi
      exact ⟨(congrArg TreeMem.node htree :), (congrArg TreeMem.heap htree :)⟩
    · have hconfined := exec_abortConfined hexec
      exact ⟨hconfined.of_failed, fun hlegal _ => hconfined.of_outside hlegal⟩

end Sys2Proof.Machine
end

section
/-! SUPPORT. How errors are reported (60_exceptions.md R240 to R250): what a completion is by its outcome, the host's accesses
between commands, and the interrupt output. -/

namespace Sys2Proof.Machine

variable {s t : State} {i : Instr}

/-! ### No check fails with the code OK (R240, R243) -/

/-- A plan that produces an output or fails with a code other than OK has no error with the code OK. -/
theorem error_code_ne_ok {plan : Except (ResultCode × Word) Output} {o : Output}
    (hcases : plan = .ok o ∨ ∃ code info, code ≠ .ok ∧ plan = .error (code, info)) {e : ResultCode × Word}
    (h : plan = .error e) : e.1 ≠ .ok := by
  obtain rfl | ⟨code, info, hcode, rfl⟩ := hcases
  · cases h
  · cases h
    exact hcode

theorem TreeMem.decodeBits_error {t : TreeMem} {bits : Bits} {e : ResultCode × Word} (h : t.decodeBits bits = .error e) :
    e.1 ≠ .ok := by
  unfold TreeMem.decodeBits at h
  dsimp only at h
  split at h
  case isTrue => split at h <;> cases h; nofun
  case isFalse => split at h <;> cases h; nofun

theorem TreeMem.decodeStream_error {t : TreeMem} {bytes : List Byte} {e : ResultCode × Word}
    (h : t.decodeStream bytes = .error e) : e.1 ≠ .ok := by
  unfold TreeMem.decodeStream at h
  split at h
  · cases h; decide
  split at h
  · cases h; decide
  split at h
  · cases h; decide
  split at h
  case h_1 hbits => cases h; exact decodeBits_error hbits
  case h_2 => split at h <;> cases h; nofun

theorem decodePlan_error {e : ResultCode × Word} (h : decodePlan s = .error e) : e.1 ≠ .ok := by
  unfold decodePlan at h
  split at h
  · cases h; decide
  split at h
  · cases h; decide
  split at h
  case h_1 hstream => cases h; exact TreeMem.decodeStream_error hstream
  case h_2 => exact error_code_ne_ok (checkDst_cases s _) h

/-! ### What a completion is, by its outcome (R241, R244) -/

/-- What a completion of the command `i` can leave of `s`: a success, whatever it wrote, or one of the three ways to fail. -/
inductive CompletionOutcome (s : State) (i : Instr) : State → Prop where
  /-- a success; `u` is what the command wrote before its record, and ERRF is as it was -/
  | success (u : State) (herrf : u.errf = s.errf) : CompletionOutcome s i u.succeeded
  /-- a failure that writes the completion record alone (R244) -/
  | precise (hi : i ∉ [Instr.treeInit, .treeBuild]) {code : ResultCode} (hcode : code ≠ .ok)
      (hovf : ¬ (i = .freqCount ∧ code = .freqOvf)) (info : Word) : CompletionOutcome s i (s.failed code info)
  /-- E_FREQ_OVF, with the counts in place (R112) -/
  | saturated (hi : i = .freqCount) (info : Word) (freq : Vector Word 256) :
      CompletionOutcome s i { s.failed .freqOvf info with freq := freq }
  /-- E_EMPTY of a tree command, which leaves TREE_STATE EMPTY (R134, R137) -/
  | noLeaf (hi : i ∈ [Instr.treeInit, .treeBuild]) {tree : TreeMem} (hstate : tree.state = .empty) :
      CompletionOutcome s i { s.failed .empty 0 with tree := tree, codesValid := false }

theorem CompletionOutcome.of_finish_ok {u : State} (herrf : u.errf = s.errf) : CompletionOutcome s i (finish .ok 0 u) :=
  finish_ok u ▸ .success u herrf

theorem CompletionOutcome.of_finish (hi : i ∉ [Instr.treeInit, .treeBuild]) {code : ResultCode} (hcode : code ≠ .ok)
    (hovf : ¬ (i = .freqCount ∧ code = .freqOvf)) (info : Word) : CompletionOutcome s i (finish code info s) :=
  finish_of_ne_ok hcode info s ▸ .precise hi hcode hovf info

theorem countBytes_outcome (bytes : List Byte) (s : State) : CompletionOutcome s .freqCount (countBytes bytes s) := by
  cases hsat : firstSaturated s.freq bytes with
  | none =>
    rw [countBytes_of_none hsat]
    exact .success { s with freq := countedFreq s.freq bytes } rfl
  | some v =>
    rw [countBytes_of_some hsat]
    exact .saturated rfl _ _

theorem execFreqCount_outcome (h : execFreqCount s = .next t) : CompletionOutcome s .freqCount t := by
  obtain hin | hout := le_or_gt (s.src + s.len) s.params.bufBytes
  · cases (execFreqCount_inside hin).symm.trans h
    exact countBytes_outcome _ s
  · cases (execFreqCount_outside hout).symm.trans h
    exact .precise (by decide) (by decide) (by decide) _

/-- A queue and an arena without a leaf are empty (R35, R135). -/
theorem TreeMem.Counts.empty_of_no_leaf {tree : TreeMem} (h : tree.Counts) (hleaf : tree.nleaf = 0) :
    tree.state = .empty := by
  refine h.empty_iff.mpr (BitVec.eq_of_toNat_eq ?_)
  have hsum := h.sum
  simp only [hleaf, BitVec.ofNat_eq_ofNat, BitVec.toNat_ofNat, Nat.zero_mod] at hsum ⊢
  omega

theorem finishTree_outcome (hi : i ∈ [Instr.treeInit, .treeBuild]) {tree : TreeMem} (h : tree.Ok) :
    CompletionOutcome s i (finishTree tree s) := by
  by_cases hleaf : tree.nleaf = 0
  · rw [finishTree_of_no_leaf hleaf]
    exact .noLeaf hi (h.counts.empty_of_no_leaf hleaf)
  · rw [finishTree_of_leaf hleaf]
    exact .success { s with tree := tree, codesValid := false } rfl

theorem execTreeStep_outcome (h : execTreeStep s = .next t) : CompletionOutcome s .treeStep t := by
  unfold execTreeStep at h
  split at h
  case isTrue => cases h; exact .of_finish (by decide) (by decide) (by decide) _
  case isFalse => split at h <;> cases h; exact .of_finish_ok rfl

theorem execCodeGen_outcome (h : execCodeGen s = .next t) : CompletionOutcome s .codeGen t := by
  unfold execCodeGen at h
  split at h
  case isTrue => cases h; exact .of_finish (by decide) (by decide) (by decide) _
  case isFalse => split at h <;> cases h; exact .of_finish_ok rfl

/-- The end that ENCODE and DECODE share: every failure is precise. -/
theorem emit_outcome (hi : i ∈ [Instr.encode, .decode]) {plan : Except (ResultCode × Word) Output}
    (herror : ∀ e, plan = .error e → e.1 ≠ .ok) : CompletionOutcome s i (emit plan s) := by
  cases plan with
  | error e =>
    have hother : ∀ j ∈ [Instr.encode, .decode], j ∉ [Instr.treeInit, .treeBuild] ∧ j ≠ .freqCount := by decide
    obtain ⟨htree, hcount⟩ := hother i hi
    exact .of_finish htree (herror e rfl) (fun h => hcount h.1) _
  | ok o => exact .of_finish_ok rfl

/-- Every completion has one of these outcomes. -/
theorem exec_outcome (h : exec i s = .next t) : CompletionOutcome s i t := by
  cases i with
  | nop => cases h; exact .of_finish_ok rfl
  | freqClear => cases h; exact .of_finish_ok rfl
  | freqCount => exact execFreqCount_outcome h
  | treeInit => cases h; exact finishTree_outcome (by decide) (s.tree.init_ok s.freq)
  | treeStep => exact execTreeStep_outcome h
  | treeBuild => cases h; exact finishTree_outcome (by decide) (s.tree.build_ok s.freq)
  | codeGen => exact execCodeGen_outcome h
  | encode => cases h; exact emit_outcome (by decide) fun _ => error_code_ne_ok (encodePlan_cases s)
  | decode => cases h; exact emit_outcome (by decide) fun _ => decodePlan_error

/-- Settles O32: each outcome ends in the record of a success or of a failure. -/
theorem everyCompletionIsRecorded : Obligations.EveryCompletionIsRecorded := by
  intro i s t h
  cases exec_outcome h with
  | success u herrf => exact ⟨rfl, rfl, fun _ => ⟨rfl, herrf⟩, fun hfail => absurd rfl hfail⟩
  | precise _ hcode => exact ⟨rfl, rfl, fun hok => absurd hok hcode, fun _ => rfl⟩
  | saturated => exact ⟨rfl, rfl, nofun, fun _ => rfl⟩
  | noLeaf => exact ⟨rfl, rfl, nofun, fun _ => rfl⟩

/-- Settles O33: a failure is precise but for the two exceptions, each of its own commands. -/
theorem failedCommandsArePrecise : Obligations.FailedCommandsArePrecise := by
  intro i s t h hfail
  cases exec_outcome h with
  | success => exact absurd rfl hfail
  | precise hi _ hovf =>
    exact ⟨fun _ _ _ => rfl, fun _ _ => rfl, fun hcount hres => absurd ⟨hcount, hres⟩ hovf,
      fun htree => absurd (by simpa using htree) hi⟩
  | saturated hi =>
    subst hi
    exact ⟨fun hcount => absurd rfl hcount, fun _ hres => absurd rfl hres, fun _ _ => rfl, fun htree => by simp at htree⟩
  | noLeaf hi hstate =>
    exact ⟨fun _ hinit hbuild => by simp [hinit, hbuild] at hi, fun hcount => by simp [hcount] at hi, fun _ => nofun,
      fun _ => ⟨rfl, hstate⟩⟩

/-! ### The host's accesses between commands (R247, R280) -/

/-- While no completion is due the turn is the host's. -/
theorem State.turn_of_not_due (h : s.seq = .idle ∨ ¬ s.due) : s.turn = s.hostTurn := by
  unfold State.turn
  split
  case isTrue => rfl
  case isFalse hreset =>
    split
    case h_1 => rfl
    case h_2 hseq =>
      have hdue : ¬ s.due := h.resolve_left (by simp [hseq])
      exact if_neg fun hready => hdue (State.due_iff.mpr ⟨Bool.eq_false_of_not_eq_true hreset, hready⟩)

/-- A completion is not due before the delay has run out, while the host has an action that isn't WAIT. -/
theorem State.not_due_of_host {a : HostAct} {rest : List HostAct} (hhost : s.host = a :: rest) (hdelay : s.delay ≠ 0)
    (hwait : a ≠ .wait) : ¬ s.due := by
  simp [State.due, hhost, hdelay, hwait]

/-- Settles O5: with no completion due, the host's first action is the step, and without one the block waits. -/
theorem hostActsBetweenCommands : Obligations.HostActsBetweenCommands := by
  intro s hreset
  refine ⟨fun a rest hhost hturn => ?acts, fun hhost hidle => ?waits⟩
  case acts =>
    have hnotDue : s.seq = .idle ∨ ¬ s.due :=
      hturn.imp_right fun ⟨hdelay, hwait⟩ => State.not_due_of_host hhost hdelay hwait
    simp only [step, State.turn_of_not_due hnotDue, State.hostTurn, hhost, hostAct, hreset, Bool.false_eq_true, if_false]
  case waits => simp only [step, State.turn_of_not_due (.inl hidle), State.hostTurn, hhost]

/-! ### The interrupt output (R250) -/

theorem State.irq_eq_true_iff :
    s.irq = true ↔ (s.done = true ∧ s.doneIe = true) ∨ ((s.errf = true ∨ s.ovr = true) ∧ s.errIe = true) := by
  simp only [State.irq, Bool.or_eq_true, Bool.and_eq_true]

theorem State.irq_eq_false_of_no_flag (hdone : s.done = false) (herrf : s.errf = false) (hovr : s.ovr = false) :
    s.irq = false := by
  simp [State.irq, hdone, herrf, hovr]

theorem State.irq_eq_false_of_disabled (hdone : s.doneIe = false) (herr : s.errIe = false) : s.irq = false := by
  simp [State.irq, hdone, herr]

/-- Settles O41: the acknowledge clears the three flags, and a write of 0 to CTRL and both resets clear the enables. -/
theorem irqFollowsStatusAndControl : Obligations.IrqFollowsStatusAndControl := by
  intro s
  refine ⟨State.irq_eq_true_iff, ?acknowledge, ?disable, ?softReset, State.irq_eq_false_of_disabled rfl rfl⟩
  case acknowledge =>
    rw [acknowledgeClearsTheSelectedBits s 0x0000000E]
    exact State.irq_eq_false_of_no_flag rfl rfl rfl
  case disable =>
    obtain ⟨hwrite, -⟩ := ctrlHoldsTheEnables s 0 rfl
    rw [hwrite]
    exact State.irq_eq_false_of_disabled rfl rfl
  case softReset =>
    obtain ⟨-, -, hirq, -⟩ := softResetValues s 0x80000000 rfl
    exact hirq

end Sys2Proof.Machine
end

section
/-! SUPPORT. The hazards of the port (70_reset_and_hazards.md): a write to ARG0 to ARG2 while a command is in flight (R285), and
the port while rst_n is asserted (R280). -/

namespace Sys2Proof.Machine

/-! ### Writing the operand registers of a command in flight (R46, R94, R285) -/

/-- `s` with other values in ARG0 to ARG2, as writes to the three registers leave it. -/
def State.withArgs (s : State) (x y z : Word) : State := { s with arg0 := x, arg1 := y, arg2 := z }

variable {s t : State}

section
variable {x y z : Word}

@[simp] theorem State.withArgs_freq : (s.withArgs x y z).freq = s.freq := rfl
@[simp] theorem State.withArgs_tree : (s.withArgs x y z).tree = s.tree := rfl
@[simp] theorem State.withArgs_ct : (s.withArgs x y z).ct = s.ct := rfl
@[simp] theorem State.withArgs_codesValid : (s.withArgs x y z).codesValid = s.codesValid := rfl
@[simp] theorem State.withArgs_inBuf (a n : Nat) : (s.withArgs x y z).inBuf a n = s.inBuf a n := rfl
@[simp] theorem State.withArgs_bufRange (a n : Nat) : (s.withArgs x y z).bufRange a n = s.bufRange a n := rfl

/-- The end of TREE_INIT and TREE_BUILD reads and writes no operand register. -/
@[simp] theorem finishTree_withArgs (tree : TreeMem) (s : State) :
    finishTree tree (s.withArgs x y z) = (finishTree tree s).withArgs x y z := rfl

theorem execTreeInit_withArgs (h : execTreeInit s = .next t) :
    execTreeInit (s.withArgs x y z) = .next (t.withArgs x y z) := by
  cases h
  rw [execTreeInit, State.withArgs_tree, State.withArgs_freq, finishTree_withArgs]

theorem execTreeBuild_withArgs (h : execTreeBuild s = .next t) :
    execTreeBuild (s.withArgs x y z) = .next (t.withArgs x y z) := by
  cases h
  rw [execTreeBuild, State.withArgs_tree, State.withArgs_freq, finishTree_withArgs]

theorem execTreeStep_withArgs (h : execTreeStep s = .next t) :
    execTreeStep (s.withArgs x y z) = .next (t.withArgs x y z) := by
  unfold execTreeStep at h
  split at h
  case isTrue hstate =>
    cases h
    exact if_pos hstate
  case isFalse hstate =>
    split at h
    case isTrue hmerge =>
      cases h
      exact (if_neg hstate).trans (if_pos hmerge)
    case isFalse => cases h

theorem execCodeGen_withArgs (h : execCodeGen s = .next t) :
    execCodeGen (s.withArgs x y z) = .next (t.withArgs x y z) := by
  unfold execCodeGen at h
  split at h
  case isTrue hstate =>
    cases h
    exact if_pos hstate
  case isFalse hstate =>
    split at h
    case h_1 hcodes =>
      cases h
      rw [execCodeGen, State.withArgs_tree, if_neg hstate, hcodes]
      rfl
    case h_2 => cases h

/-! While a command is in flight its operands are the latched ones, so the commands that take some read no operand register. -/

variable {cmd a b c : Word} (hseq : s.seq = .busy cmd a b c)
include hseq

theorem State.src_withArgs : (s.withArgs x y z).src = s.src := by
  simp only [State.src, State.withArgs, hseq]

theorem State.len_withArgs : (s.withArgs x y z).len = s.len := by
  simp only [State.len, State.withArgs, hseq]

theorem State.dst_withArgs : (s.withArgs x y z).dst = s.dst := by
  simp only [State.dst, State.withArgs, hseq]

theorem checkDst_withArgs (o : Output) : checkDst (s.withArgs x y z) o = checkDst s o := by
  simp only [checkDst, State.src_withArgs hseq, State.len_withArgs hseq, State.dst_withArgs hseq,
    State.withArgs_inBuf]

theorem encodePlan_withArgs : encodePlan (s.withArgs x y z) = encodePlan s := by
  simp only [encodePlan, State.src_withArgs hseq, State.len_withArgs hseq, checkDst_withArgs hseq,
    State.withArgs_codesValid, State.withArgs_inBuf, State.withArgs_bufRange, State.withArgs_ct]

theorem decodePlan_withArgs : decodePlan (s.withArgs x y z) = decodePlan s := by
  simp only [decodePlan, State.src_withArgs hseq, State.len_withArgs hseq, checkDst_withArgs hseq,
    State.withArgs_tree, State.withArgs_inBuf, State.withArgs_bufRange]

/-- The end of ENCODE and DECODE writes at the latched destination. -/
theorem emit_withArgs (plan : Except (ResultCode × Word) Output) :
    emit plan (s.withArgs x y z) = (emit plan s).withArgs x y z := by
  cases plan with
  | error e => rfl
  | ok o =>
    rw [emit_ok, emit_ok, State.dst_withArgs hseq]
    rfl

theorem execFreqCount_withArgs (h : execFreqCount s = .next t) :
    execFreqCount (s.withArgs x y z) = .next (t.withArgs x y z) := by
  unfold execFreqCount at h ⊢
  rw [State.src_withArgs hseq, State.len_withArgs hseq, State.withArgs_inBuf, State.withArgs_bufRange]
  split at h
  case isTrue hrange =>
    cases h
    rw [if_pos hrange]
    rfl
  case isFalse hrange =>
    cases h
    rw [if_neg hrange]
    rfl

theorem execEncode_withArgs (h : execEncode s = .next t) :
    execEncode (s.withArgs x y z) = .next (t.withArgs x y z) := by
  cases h
  rw [execEncode, encodePlan_withArgs hseq, emit_withArgs hseq]

theorem execDecode_withArgs (h : execDecode s = .next t) :
    execDecode (s.withArgs x y z) = .next (t.withArgs x y z) := by
  cases h
  rw [execDecode, decodePlan_withArgs hseq, emit_withArgs hseq]

/-- The completion of a command in flight is the same whatever ARG0 to ARG2 hold, and leaves them as they are. -/
theorem exec_withArgs {i : Instr} (h : exec i s = .next t) :
    exec i (s.withArgs x y z) = .next (t.withArgs x y z) := by
  cases i with
  | nop => cases h; rfl
  | freqClear => cases h; rfl
  | freqCount => exact execFreqCount_withArgs hseq h
  | treeInit => exact execTreeInit_withArgs h
  | treeStep => exact execTreeStep_withArgs h
  | treeBuild => exact execTreeBuild_withArgs h
  | codeGen => exact execCodeGen_withArgs h
  | encode => exact execEncode_withArgs hseq h
  | decode => exact execDecode_withArgs hseq h

end

/-- Settles O36: a command in flight reads its latched operands alone, and no completion writes ARG0 to ARG2. -/
theorem argWritesDoNotDisturbTheCommand : Obligations.ArgWritesDoNotDisturbTheCommand :=
  fun _ _ _ _ _ _ _ _ _ _ hseq h => exec_withArgs hseq h

/-! ### The port while rst_n is asserted (R280) -/

/-- In reset no completion takes the turn. -/
theorem State.turn_of_inReset (h : s.inReset = true) : s.turn = s.hostTurn := if_pos h

/-- In reset an action is dropped, but for the release, which lowers the flag. -/
theorem resetAction_of_inReset (h : s.inReset = true) (a : HostAct) :
    resetAction a s = { s with inReset := decide (a ≠ .rstRelease) } := by
  have hkept : s = { s with inReset := true } := by rw [← h]
  cases a with
  | rstRelease => rfl
  | _ => exact hkept

/-- Settles O6: in reset the turn is the host's, and its action is dropped or is the release. -/
theorem portIsIgnoredInReset : Obligations.PortIsIgnoredInReset := by
  intro s hreset
  refine ⟨fun hhost => ?waits, fun a rest hhost => ?acts⟩
  case waits => simp only [step, State.turn_of_inReset hreset, State.hostTurn, hhost]
  case acts =>
    calc step s
      _ = .next (hostAct a rest s) := by simp only [step, State.turn_of_inReset hreset, State.hostTurn, hhost]
      _ = .next (resetAction a { s with host := rest }) := congrArg _ (if_pos hreset)
      _ = .next { s with host := rest, inReset := decide (a ≠ .rstRelease) } :=
        congrArg _ (resetAction_of_inReset (s := { s with host := rest }) hreset a)

end Sys2Proof.Machine
end
